-- ==== Sys2Proof/Word.lean ====
section
/-! DEFINITION. The word types of the block (00_scope.md R6, R7): a byte is 8 bits, a value written `uN` is `BitVec N`,
an address, a size or a length is a natural number. -/

namespace Sys2Proof

/-- A byte is 8 bits (R7). -/
abbrev Byte := BitVec 8

end Sys2Proof
end

