-- ==== Sys2Proof/Machine/Bytes.lean ====
section
/-! DEFINITION. Byte sequences and byte order (00_scope.md R7, 20_memory.md R54): little-endian everywhere. -/

namespace Sys2Proof

/-- `LE_n(v)`: the `n`-byte little-endian image of `v`, byte 0 holding `v[7:0]` (R7). -/
def leBytes : Nat → Nat → List Byte
  | 0, _ => []
  | n + 1, v => BitVec.ofNat 8 v :: leBytes n (v / 256)

/-- `FromLE(b)`: the inverse of `LE_n` (R7). -/
def fromLE : List Byte → Nat
  | [] => 0
  | b :: t => b.toNat + 256 * fromLE t

/-- `LE_n` of a bit vector of `8 n` bits or fewer. -/
def leBits {w : Nat} (n : Nat) (v : BitVec w) : List Byte := leBytes n v.toNat

/-- `Zero(n)`: `n` zero bytes (R7). -/
def zeroBytes (n : Nat) : List Byte := List.replicate n 0#8

/-- `b[i .. i+n)`: the `n` bytes from index `i` (R7). -/
def slice (b : List Byte) (i n : Nat) : List Byte := (b.drop i).take n

/-- The `8 n`-bit (or narrower) number whose little-endian image starts at index `i`. -/
def leAt (w : Nat) (b : List Byte) (i n : Nat) : BitVec w := BitVec.ofNat w (fromLE (slice b i n))

end Sys2Proof
end

