-- ==== Sys2Proof/Syntax.lean ====
section
/-! DEFINITION. The commands of the block, one constructor of `Instr` per row of spec/opcode_table.json (30_encoding.md
R71), and the operand types of R72, R46 and of the field records of 42_descriptor_encoders.md and
43_pte_encoders_and_walk.md. -/

namespace Sys2Proof

/-- The operand `arch` of CONSTRUCT: one of 32, 64 (R72, R260). -/
inductive Arch
  | a32 | a64
deriving DecidableEq, Repr

/-- The eight segment cache registers, in wire order (R26, R72). -/
inductive Sreg
  | es | cs | ss | ds | fs | gs | ldtr | tr
deriving DecidableEq, Repr

/-- The 64-bit registers without named sub-bitfields: RGET and RSET address each as a whole (R46). -/
inductive Scalar
  | rax | rcx | rdx | rbx | rsp | rbp | rsi | rdi
  | r8 | r9 | r10 | r11 | r12 | r13 | r14 | r15
  | rip
  | cr2 | cr3 | cr8
  | dr0 | dr1 | dr2 | dr3 | dr6 | dr7
deriving DecidableEq, Repr

/-- The named fields of `rflags` (R24). `of_` is the spec's `of`. -/
inductive RflagsField
  | cf | pf | af | zf | sf | tf | if_ | df | of_ | iopl | nt | rf | vm | ac | vif | vip | id
deriving DecidableEq, Repr

/-- The named fields of `cr0` (R28). -/
inductive Cr0Field
  | pe | mp | em | ts | et | ne | wp | am | nw | cd | pg
deriving DecidableEq, Repr

/-- The named fields of `cr4` (R30). -/
inductive Cr4Field
  | vme | pvi | tsd | de | pse | pae | mce | pge | pce | osfxsr | osxmmexcpt | umip | la57 | vmxe | smxe
  | fsgsbase | pcide | osxsave | smep | smap | pke
deriving DecidableEq, Repr

/-- The named fields of `efer` (R33). -/
inductive EferField
  | sce | lme | lma | nxe
deriving DecidableEq, Repr

/-- The named fields of a segment cache record (R25, R46). -/
inductive SegComp
  | base | limit | selector | type | s | dpl | p | avl | l | db | g
deriving DecidableEq, Repr

/-- The two table pointer registers (R27). -/
inductive TableReg
  | gdtr | idtr
deriving DecidableEq, Repr

/-- The addressable fields of RGET and RSET (R46): exactly these names. -/
inductive Field
  | scalar (r : Scalar)
  | rflags (f : RflagsField)
  | cr0 (f : Cr0Field)
  | cr4 (f : Cr4Field)
  | efer (f : EferField)
  | seg (r : Sreg) (c : SegComp)
  | tableBase (t : TableReg)
  | tableLimit (t : TableReg)
deriving DecidableEq, Repr

/-- The ten fields of a segment descriptor (R131); the base is 32 bits in the 8-byte form and 64 in the 16-byte form. -/
structure SegFields (w : Nat) where
  base : BitVec w
  limit : BitVec 20
  type : BitVec 4
  s : BitVec 1
  dpl : BitVec 2
  p : BitVec 1
  avl : BitVec 1
  l : BitVec 1
  db : BitVec 1
  g : BitVec 1
deriving DecidableEq, Repr

/-- The fields of a gate descriptor (R136, R139); the offset is 32 or 64 bits. -/
structure GateFields (w : Nat) where
  offset : BitVec w
  selector : BitVec 16
  type : BitVec 4
  dpl : BitVec 2
  p : BitVec 1
deriving DecidableEq, Repr

/-- The fields of a task gate descriptor (R141). -/
structure TaskGateFields where
  selector : BitVec 16
  type : BitVec 4
  dpl : BitVec 2
  p : BitVec 1
deriving DecidableEq, Repr

/-- The fields of the 32-bit task-state segment, in layout order (R81, R143). -/
structure Tss32Fields where
  link : BitVec 16
  esp0 : BitVec 32
  ss0 : BitVec 16
  esp1 : BitVec 32
  ss1 : BitVec 16
  esp2 : BitVec 32
  ss2 : BitVec 16
  cr3 : BitVec 32
  eip : BitVec 32
  eflags : BitVec 32
  eax : BitVec 32
  ecx : BitVec 32
  edx : BitVec 32
  ebx : BitVec 32
  esp : BitVec 32
  ebp : BitVec 32
  esi : BitVec 32
  edi : BitVec 32
  es : BitVec 16
  cs : BitVec 16
  ss : BitVec 16
  ds : BitVec 16
  fs : BitVec 16
  gs : BitVec 16
  ldt : BitVec 16
  t : BitVec 1
  iomapBase : BitVec 16
deriving DecidableEq, Repr

/-- The fields of the 64-bit task-state segment, in layout order (R82, R145). -/
structure Tss64Fields where
  rsp0 : BitVec 64
  rsp1 : BitVec 64
  rsp2 : BitVec 64
  ist1 : BitVec 64
  ist2 : BitVec 64
  ist3 : BitVec 64
  ist4 : BitVec 64
  ist5 : BitVec 64
  ist6 : BitVec 64
  ist7 : BitVec 64
  iomapBase : BitVec 16
deriving DecidableEq, Repr

/-- The fields of a legacy page-directory entry (R161). -/
structure Pde32Fields where
  p : BitVec 1
  rw : BitVec 1
  us : BitVec 1
  pwt : BitVec 1
  pcd : BitVec 1
  a : BitVec 1
  d : BitVec 1
  ps : BitVec 1
  g : BitVec 1
  avl : BitVec 3
  pfn : BitVec 20
deriving DecidableEq, Repr

/-- The fields of a top-level entry: bit 7 is reserved and no operand (R163). -/
structure Pml4eFields where
  p : BitVec 1
  rw : BitVec 1
  us : BitVec 1
  pwt : BitVec 1
  pcd : BitVec 1
  a : BitVec 1
  d : BitVec 1
  g : BitVec 1
  avl : BitVec 3
  pfn : BitVec 40
  avlHi : BitVec 11
  nx : BitVec 1
deriving DecidableEq, Repr

/-- The fields of a second- or third-level entry: bit 7 is `ps` (R165, R167). -/
structure DirEntryFields where
  p : BitVec 1
  rw : BitVec 1
  us : BitVec 1
  pwt : BitVec 1
  pcd : BitVec 1
  a : BitVec 1
  d : BitVec 1
  ps : BitVec 1
  g : BitVec 1
  avl : BitVec 3
  pfn : BitVec 40
  avlHi : BitVec 11
  nx : BitVec 1
deriving DecidableEq, Repr

/-- The fields of a fourth-level entry: bit 7 is `pat` (R169). -/
structure Pte64Fields where
  p : BitVec 1
  rw : BitVec 1
  us : BitVec 1
  pwt : BitVec 1
  pcd : BitVec 1
  a : BitVec 1
  d : BitVec 1
  pat : BitVec 1
  g : BitVec 1
  avl : BitVec 3
  pfn : BitVec 40
  avlHi : BitVec 11
  nx : BitVec 1
deriving DecidableEq, Repr

/-- The commands (R71), in the order of the operation code map. -/
inductive Instr
  | construct (arch : Arch)
  | alloc (size alignment : Nat)
  | mwrite (addr : Nat) (bytes : List Byte)
  | mread (addr size : Nat)
  | rget (field : Field)
  | rset (field : Field) (value : BitVec 64)
  | raw
  | loadimg (image : List Byte)
  | loadSeg (sreg : Sreg) (selector : BitVec 16)
  | setupReal
  | setupGdt
  | setupIdt (descriptors : List (List Byte))
  | setupPaging
  | descAddr (selector : BitVec 16)
  | walk32 (va : BitVec 32)
  | walk64 (va : BitVec 64)
  | encSeg (v : SegFields 32)
  | decSeg (bytes : List Byte)
  | encSeg64 (v : SegFields 64)
  | decSeg64 (bytes : List Byte)
  | encGate (v : GateFields 32)
  | decGate (bytes : List Byte)
  | encGate64 (v : GateFields 64)
  | decGate64 (bytes : List Byte)
  | encTaskGate (v : TaskGateFields)
  | decTaskGate (bytes : List Byte)
  | encTss32 (v : Tss32Fields)
  | decTss32 (bytes : List Byte)
  | encTss64 (v : Tss64Fields)
  | decTss64 (bytes : List Byte)
  | encPde32 (v : Pde32Fields)
  | decPde32 (bytes : List Byte)
  | encPml4e (v : Pml4eFields)
  | decPml4e (bytes : List Byte)
  | encPdpte (v : DirEntryFields)
  | decPdpte (bytes : List Byte)
  | encPde64 (v : DirEntryFields)
  | decPde64 (bytes : List Byte)
  | encPte64 (v : Pte64Fields)
  | decPte64 (bytes : List Byte)
deriving DecidableEq, Repr

/-- The mnemonics of the operation code map (R71), one per row. -/
inductive Op
  | construct | alloc | mwrite | mread | rget | rset | raw | loadimg
  | loadSeg | setupReal | setupGdt | setupIdt | setupPaging | descAddr | walk32 | walk64
  | encSeg | decSeg | encSeg64 | decSeg64 | encGate | decGate | encGate64 | decGate64
  | encTaskGate | decTaskGate | encTss32 | decTss32 | encTss64 | decTss64 | encPde32 | decPde32
  | encPml4e | decPml4e | encPdpte | decPdpte | encPde64 | decPde64 | encPte64 | decPte64
deriving DecidableEq, Repr

/-- The row of the operation code map a command belongs to. -/
def Instr.op : Instr → Op
  | .construct _ => .construct
  | .alloc _ _ => .alloc
  | .mwrite _ _ => .mwrite
  | .mread _ _ => .mread
  | .rget _ => .rget
  | .rset _ _ => .rset
  | .raw => .raw
  | .loadimg _ => .loadimg
  | .loadSeg _ _ => .loadSeg
  | .setupReal => .setupReal
  | .setupGdt => .setupGdt
  | .setupIdt _ => .setupIdt
  | .setupPaging => .setupPaging
  | .descAddr _ => .descAddr
  | .walk32 _ => .walk32
  | .walk64 _ => .walk64
  | .encSeg _ => .encSeg
  | .decSeg _ => .decSeg
  | .encSeg64 _ => .encSeg64
  | .decSeg64 _ => .decSeg64
  | .encGate _ => .encGate
  | .decGate _ => .decGate
  | .encGate64 _ => .encGate64
  | .decGate64 _ => .decGate64
  | .encTaskGate _ => .encTaskGate
  | .decTaskGate _ => .decTaskGate
  | .encTss32 _ => .encTss32
  | .decTss32 _ => .decTss32
  | .encTss64 _ => .encTss64
  | .decTss64 _ => .decTss64
  | .encPde32 _ => .encPde32
  | .decPde32 _ => .decPde32
  | .encPml4e _ => .encPml4e
  | .decPml4e _ => .decPml4e
  | .encPdpte _ => .encPdpte
  | .decPdpte _ => .decPdpte
  | .encPde64 _ => .encPde64
  | .decPde64 _ => .decPde64
  | .encPte64 _ => .encPte64
  | .decPte64 _ => .decPte64

end Sys2Proof
end

