-- ==== Sys2Proof/Machine/Flags.lean ====
section
/-! DEFINITION. The named sub-bitfields of `rflags`, `cr0`, `cr4`, `efer` (10_state.md R24, R28, R30, R33): where each lies,
how it is read and replaced (41_regfile_serializer_ops.md R123), and the width of every addressable field (R46). No command
of the block writes a flag as a side effect (R24). -/

namespace Sys2Proof

/-- Bit position of a field of `rflags` (R24); the lower bit for `iopl`. -/
def RflagsField.lo : RflagsField → Nat
  | .cf => 0
  | .pf => 2
  | .af => 4
  | .zf => 6
  | .sf => 7
  | .tf => 8
  | .if_ => 9
  | .df => 10
  | .of_ => 11
  | .iopl => 12
  | .nt => 14
  | .rf => 16
  | .vm => 17
  | .ac => 18
  | .vif => 19
  | .vip => 20
  | .id => 21

/-- Width of a field of `rflags` (R24): `iopl` is bits 13:12, every other field one bit. -/
def RflagsField.width : RflagsField → Nat
  | .iopl => 2
  | .cf | .pf | .af | .zf | .sf | .tf | .if_ | .df | .of_ | .nt | .rf | .vm | .ac | .vif | .vip | .id => 1

/-- Bit position of a field of `cr0` (R28). -/
def Cr0Field.lo : Cr0Field → Nat
  | .pe => 0
  | .mp => 1
  | .em => 2
  | .ts => 3
  | .et => 4
  | .ne => 5
  | .wp => 16
  | .am => 18
  | .nw => 29
  | .cd => 30
  | .pg => 31

/-- Bit position of a field of `cr4` (R30). -/
def Cr4Field.lo : Cr4Field → Nat
  | .vme => 0
  | .pvi => 1
  | .tsd => 2
  | .de => 3
  | .pse => 4
  | .pae => 5
  | .mce => 6
  | .pge => 7
  | .pce => 8
  | .osfxsr => 9
  | .osxmmexcpt => 10
  | .umip => 11
  | .la57 => 12
  | .vmxe => 13
  | .smxe => 14
  | .fsgsbase => 16
  | .pcide => 17
  | .osxsave => 18
  | .smep => 20
  | .smap => 21
  | .pke => 22

/-- Bit position of a field of `efer` (R33). -/
def EferField.lo : EferField → Nat
  | .sce => 0
  | .lme => 8
  | .lma => 10
  | .nxe => 11

/-- Width of a component of a segment cache record (R25). -/
def SegComp.width : SegComp → Nat
  | .base => 64
  | .limit => 32
  | .selector => 16
  | .type => 4
  | .dpl => 2
  | .s | .p | .avl | .l | .db | .g => 1

/-- Width of an addressable field, which is the width of RSET's value operand (R46). -/
def Field.width : Field → Nat
  | .scalar _ => 64
  | .rflags f => f.width
  | .cr0 _ => 1
  | .cr4 _ => 1
  | .efer _ => 1
  | .seg _ c => c.width
  | .tableBase _ => 64
  | .tableLimit _ => 16

/-- The `w` ones at bits `lo + w - 1` to `lo`. -/
def bitMask (lo w : Nat) : BitVec 64 := BitVec.ofNat 64 (2 ^ w - 1) <<< lo

/-- `r[lo+w-1 : lo]` (R123). -/
def getBitsAt (r : BitVec 64) (lo w : Nat) : BitVec 64 := (r >>> lo) &&& bitMask 0 w

/-- `r` with bits `lo+w-1` to `lo` replaced by `v`, every other bit unchanged (R123). -/
def setBitsAt (r : BitVec 64) (lo w : Nat) (v : BitVec 64) : BitVec 64 :=
  (r &&& ~~~ bitMask lo w) ||| ((v &&& bitMask 0 w) <<< lo)

end Sys2Proof
end

