-- ==== Sys2Proof/WellFormed.lean ====
section
/-! DEFINITION. What the operand types of R72 and R74 (b) ask beyond the Lean types: an `alignment` of at least 1, an image
of at least 400 bytes, descriptors of 8 or 16 bytes, byte operands of a decoder of its length, and a value no wider than the
field it is written to (00_scope.md R10). A command that breaks one of these is answered IllegalCommand (R74). -/

namespace Sys2Proof

/-- REGFILE_SIZE: the bytes of the Register File image (00_scope.md R5, 10_state.md R31). -/
def regFileSize : Nat := 400

/-- An element of SETUP_IDT's list is 8 or 16 bytes long (R72, R74 (b)). -/
def descriptorLengthOk (d : List Byte) : Bool := d.length == 8 || d.length == 16

/-- The command's operands are ones R72 and R74 (b) allow. -/
def Instr.wellFormed : Instr → Bool
  | .alloc _ alignment => decide (1 ≤ alignment)
  | .rset f v => decide (v.toNat < 2 ^ f.width)
  | .loadimg image => decide (regFileSize ≤ image.length)
  | .setupIdt ds => ds.all descriptorLengthOk
  | .decSeg b | .decGate b | .decTaskGate b => b.length == 8
  | .decSeg64 b | .decGate64 b => b.length == 16
  | .decTss32 b | .decTss64 b => b.length == 104
  | .decPde32 b => b.length == 4
  | .decPml4e b | .decPdpte b | .decPde64 b | .decPte64 b => b.length == 8
  | .construct _ | .mwrite _ _ | .mread _ _ | .rget _ | .raw | .loadSeg _ _ | .setupReal | .setupGdt | .setupPaging
  | .descAddr _ | .walk32 _ | .walk64 _ | .encSeg _ | .encSeg64 _ | .encGate _ | .encGate64 _ | .encTaskGate _
  | .encTss32 _ | .encTss64 _ | .encPde32 _ | .encPml4e _ | .encPdpte _ | .encPde64 _ | .encPte64 _ => true

end Sys2Proof
end

