-- ==== Sys2Proof/Decode.lean ====
section
/-! DEFINITION. The operation code map (30_encoding.md R71) and the byte form in which the command port carries a command.
R70 packs no operands into bits, so the byte form of the operand record is the model's own (notes/assumptions/1.md to
3.md): the `op` byte, then every operand in the order of R71's table. A `uN` takes `ceil(N / 8)` bytes, little-endian, with
the bits above `N` zero (an operand of `N + 1` bits cannot be carried, 00_scope.md R10); a natural number is a sequence of
7-bit groups, least significant first, bit 7 set in all but the last; a byte sequence is its length and its bytes. Decoding
is total on any bytes: what is not a command of R71 with operands of R72 is rejected (R74), and the block answers
IllegalCommand. The encoder stands after the decoder. -/

namespace Sys2Proof

/-- The operation codes (R71). -/
def Op.code : Op → Byte
  | .construct => 0x00
  | .alloc => 0x01
  | .mwrite => 0x02
  | .mread => 0x03
  | .rget => 0x04
  | .rset => 0x05
  | .raw => 0x06
  | .loadimg => 0x07
  | .loadSeg => 0x10
  | .setupReal => 0x11
  | .setupGdt => 0x12
  | .setupIdt => 0x13
  | .setupPaging => 0x14
  | .descAddr => 0x18
  | .walk32 => 0x19
  | .walk64 => 0x1A
  | .encSeg => 0x20
  | .decSeg => 0x21
  | .encSeg64 => 0x22
  | .decSeg64 => 0x23
  | .encGate => 0x24
  | .decGate => 0x25
  | .encGate64 => 0x26
  | .decGate64 => 0x27
  | .encTaskGate => 0x28
  | .decTaskGate => 0x29
  | .encTss32 => 0x2A
  | .decTss32 => 0x2B
  | .encTss64 => 0x2C
  | .decTss64 => 0x2D
  | .encPde32 => 0x30
  | .decPde32 => 0x31
  | .encPml4e => 0x32
  | .decPml4e => 0x33
  | .encPdpte => 0x34
  | .decPdpte => 0x35
  | .encPde64 => 0x36
  | .decPde64 => 0x37
  | .encPte64 => 0x38
  | .decPte64 => 0x39

/-- Every row of the operation code map. -/
def Op.all : List Op :=
  [.construct, .alloc, .mwrite, .mread, .rget, .rset, .raw, .loadimg] ++
  [.loadSeg, .setupReal, .setupGdt, .setupIdt, .setupPaging, .descAddr, .walk32, .walk64] ++
  [.encSeg, .decSeg, .encSeg64, .decSeg64, .encGate, .decGate, .encGate64, .decGate64, .encTaskGate, .decTaskGate] ++
  [.encTss32, .decTss32, .encTss64, .decTss64] ++
  [.encPde32, .decPde32, .encPml4e, .decPml4e, .encPdpte, .decPdpte, .encPde64, .decPde64, .encPte64, .decPte64]

/-- The row an operation code selects; a code not in R71 selects none (R74 (a)). -/
def Op.ofCode (b : Byte) : Option Op := Op.all.find? fun o => o.code == b

/-- The codes of the segment registers (R72). -/
def Sreg.all : List Sreg := [.es, .cs, .ss, .ds, .fs, .gs, .ldtr, .tr]

/-- The plain scalars, in wire order (10_state.md R31). -/
def Scalar.all : List Scalar :=
  [.rax, .rcx, .rdx, .rbx, .rsp, .rbp, .rsi, .rdi, .r8, .r9, .r10, .r11, .r12, .r13, .r14, .r15] ++
  [.rip, .cr2, .cr3, .cr8, .dr0, .dr1, .dr2, .dr3, .dr6, .dr7]

/-- The fields of `rflags`, in bit order (R24). -/
def RflagsField.all : List RflagsField :=
  [.cf, .pf, .af, .zf, .sf, .tf, .if_, .df, .of_, .iopl, .nt, .rf, .vm, .ac, .vif, .vip, .id]

/-- The fields of `cr0`, in bit order (R28). -/
def Cr0Field.all : List Cr0Field := [.pe, .mp, .em, .ts, .et, .ne, .wp, .am, .nw, .cd, .pg]

/-- The fields of `cr4`, in bit order (R30). -/
def Cr4Field.all : List Cr4Field :=
  [.vme, .pvi, .tsd, .de, .pse, .pae, .mce, .pge, .pce, .osfxsr, .osxmmexcpt, .umip, .la57, .vmxe, .smxe] ++
  [.fsgsbase, .pcide, .osxsave, .smep, .smap, .pke]

/-- The fields of `efer`, in bit order (R33). -/
def EferField.all : List EferField := [.sce, .lme, .lma, .nxe]

/-- The components of a segment cache record, in the order of R46. -/
def SegComp.all : List SegComp := [.base, .limit, .selector, .type, .s, .dpl, .p, .avl, .l, .db, .g]

/-- Every addressable field, in the order R46 names them; a field's number on the port is its place here. -/
def Field.all : List Field :=
  Scalar.all.map .scalar ++ RflagsField.all.map .rflags ++ Cr0Field.all.map .cr0 ++ Cr4Field.all.map .cr4 ++
  EferField.all.map .efer ++ Sreg.all.flatMap (fun r => SegComp.all.map (.seg r)) ++
  [.tableBase .gdtr, .tableLimit .gdtr, .tableBase .idtr, .tableLimit .idtr]

/-! Decoding: each reader answers the value and the bytes after it. -/

/-- The next `n` bytes. -/
def takeBytes (n : Nat) (b : List Byte) : Option (List Byte × List Byte) :=
  if b.length < n then none else some (b.take n, b.drop n)

/-- A `uN` operand. -/
def readBits (w : Nat) (b : List Byte) : Option (BitVec w × List Byte) :=
  match takeBytes ((w + 7) / 8) b with
  | none => none
  | some (x, r) => if fromLE x < 2 ^ w then some (BitVec.ofNat w (fromLE x), r) else none

/-- A natural number operand; the last group is not zero unless it is the only one. -/
def readNat : List Byte → Option (Nat × List Byte)
  | [] => none
  | b :: t =>
    if b.toNat < 128 then some (b.toNat, t)
    else
      match readNat t with
      | none => none
      | some (v, r) => if v = 0 then none else some (b.toNat - 128 + 128 * v, r)

/-- A byte sequence operand. -/
def readSeq (b : List Byte) : Option (List Byte × List Byte) :=
  match readNat b with
  | none => none
  | some (n, r) => takeBytes n r

/-- `n` descriptors, each a byte sequence of 8 or 16 bytes (R72). -/
def readDescriptors : Nat → List Byte → Option (List (List Byte) × List Byte)
  | 0, b => some ([], b)
  | n + 1, b =>
    match readSeq b with
    | none => none
    | some (d, r) =>
      if descriptorLengthOk d then
        match readDescriptors n r with
        | none => none
        | some (ds, r') => some (d :: ds, r')
      else none

/-- The operand `arch`: 0 is 32, 1 is 64. -/
def readArch (b : List Byte) : Option (Arch × List Byte) := do
  let (v, b) ← readBits 8 b
  if v = 0 then some (.a32, b) else if v = 1 then some (.a64, b) else none

/-- The operand `alignment`: 0 is the alignment omitted, which is 1 (30_encoding.md R91); 1 is followed by its value, which is
at least 1 (R74 (b)). -/
def readAlignment (b : List Byte) : Option (Nat × List Byte) := do
  let (v, b) ← readBits 8 b
  if v = 0 then some (1, b)
  else if v = 1 then
    let (n, b) ← readNat b
    if 1 ≤ n then some (n, b) else none
  else none

/-- The operand `sreg` (R72). -/
def readSreg (b : List Byte) : Option (Sreg × List Byte) := do
  let (v, b) ← readBits 8 b
  let r ← Sreg.all[v.toNat]?
  some (r, b)

/-- The operand `field` (R46). -/
def readField (b : List Byte) : Option (Field × List Byte) := do
  let (v, b) ← readBits 8 b
  let f ← Field.all[v.toNat]?
  some (f, b)

/-- The fields of a segment descriptor, in the order of R131. -/
def readSegFields (w : Nat) (b : List Byte) : Option (SegFields w × List Byte) := do
  let (base, b) ← readBits w b
  let (limit, b) ← readBits 20 b
  let (type, b) ← readBits 4 b
  let (s, b) ← readBits 1 b
  let (dpl, b) ← readBits 2 b
  let (p, b) ← readBits 1 b
  let (avl, b) ← readBits 1 b
  let (l, b) ← readBits 1 b
  let (db, b) ← readBits 1 b
  let (g, b) ← readBits 1 b
  some (⟨base, limit, type, s, dpl, p, avl, l, db, g⟩, b)

/-- The fields of a gate, in the order of R136. -/
def readGateFields (w : Nat) (b : List Byte) : Option (GateFields w × List Byte) := do
  let (offset, b) ← readBits w b
  let (selector, b) ← readBits 16 b
  let (type, b) ← readBits 4 b
  let (dpl, b) ← readBits 2 b
  let (p, b) ← readBits 1 b
  some (⟨offset, selector, type, dpl, p⟩, b)

/-- The fields of a task gate, in the order of R141. -/
def readTaskGateFields (b : List Byte) : Option (TaskGateFields × List Byte) := do
  let (selector, b) ← readBits 16 b
  let (type, b) ← readBits 4 b
  let (dpl, b) ← readBits 2 b
  let (p, b) ← readBits 1 b
  some (⟨selector, type, dpl, p⟩, b)

/-- The fields of the 32-bit task-state segment, in layout order (R81). -/
def readTss32Fields (b : List Byte) : Option (Tss32Fields × List Byte) := do
  let (link, b) ← readBits 16 b
  let (esp0, b) ← readBits 32 b
  let (ss0, b) ← readBits 16 b
  let (esp1, b) ← readBits 32 b
  let (ss1, b) ← readBits 16 b
  let (esp2, b) ← readBits 32 b
  let (ss2, b) ← readBits 16 b
  let (cr3, b) ← readBits 32 b
  let (eip, b) ← readBits 32 b
  let (eflags, b) ← readBits 32 b
  let (eax, b) ← readBits 32 b
  let (ecx, b) ← readBits 32 b
  let (edx, b) ← readBits 32 b
  let (ebx, b) ← readBits 32 b
  let (esp, b) ← readBits 32 b
  let (ebp, b) ← readBits 32 b
  let (esi, b) ← readBits 32 b
  let (edi, b) ← readBits 32 b
  let (es, b) ← readBits 16 b
  let (cs, b) ← readBits 16 b
  let (ss, b) ← readBits 16 b
  let (ds, b) ← readBits 16 b
  let (fs, b) ← readBits 16 b
  let (gs, b) ← readBits 16 b
  let (ldt, b) ← readBits 16 b
  let (t, b) ← readBits 1 b
  let (iomapBase, b) ← readBits 16 b
  some (⟨link, esp0, ss0, esp1, ss1, esp2, ss2, cr3, eip, eflags, eax, ecx, edx, ebx, esp, ebp, esi, edi,
    es, cs, ss, ds, fs, gs, ldt, t, iomapBase⟩, b)

/-- The fields of the 64-bit task-state segment, in layout order (R82). -/
def readTss64Fields (b : List Byte) : Option (Tss64Fields × List Byte) := do
  let (rsp0, b) ← readBits 64 b
  let (rsp1, b) ← readBits 64 b
  let (rsp2, b) ← readBits 64 b
  let (ist1, b) ← readBits 64 b
  let (ist2, b) ← readBits 64 b
  let (ist3, b) ← readBits 64 b
  let (ist4, b) ← readBits 64 b
  let (ist5, b) ← readBits 64 b
  let (ist6, b) ← readBits 64 b
  let (ist7, b) ← readBits 64 b
  let (iomapBase, b) ← readBits 16 b
  some (⟨rsp0, rsp1, rsp2, ist1, ist2, ist3, ist4, ist5, ist6, ist7, iomapBase⟩, b)

/-- The fields of a legacy page-directory entry, in the order of R161. -/
def readPde32Fields (b : List Byte) : Option (Pde32Fields × List Byte) := do
  let (p, b) ← readBits 1 b
  let (rw, b) ← readBits 1 b
  let (us, b) ← readBits 1 b
  let (pwt, b) ← readBits 1 b
  let (pcd, b) ← readBits 1 b
  let (a, b) ← readBits 1 b
  let (d, b) ← readBits 1 b
  let (ps, b) ← readBits 1 b
  let (g, b) ← readBits 1 b
  let (avl, b) ← readBits 3 b
  let (pfn, b) ← readBits 20 b
  some (⟨p, rw, us, pwt, pcd, a, d, ps, g, avl, pfn⟩, b)

/-- The fields of a top-level entry, in the order of R163. -/
def readPml4eFields (b : List Byte) : Option (Pml4eFields × List Byte) := do
  let (p, b) ← readBits 1 b
  let (rw, b) ← readBits 1 b
  let (us, b) ← readBits 1 b
  let (pwt, b) ← readBits 1 b
  let (pcd, b) ← readBits 1 b
  let (a, b) ← readBits 1 b
  let (d, b) ← readBits 1 b
  let (g, b) ← readBits 1 b
  let (avl, b) ← readBits 3 b
  let (pfn, b) ← readBits 40 b
  let (avlHi, b) ← readBits 11 b
  let (nx, b) ← readBits 1 b
  some (⟨p, rw, us, pwt, pcd, a, d, g, avl, pfn, avlHi, nx⟩, b)

/-- The fields of a second- or third-level entry, in the order of R165. -/
def readDirEntryFields (b : List Byte) : Option (DirEntryFields × List Byte) := do
  let (p, b) ← readBits 1 b
  let (rw, b) ← readBits 1 b
  let (us, b) ← readBits 1 b
  let (pwt, b) ← readBits 1 b
  let (pcd, b) ← readBits 1 b
  let (a, b) ← readBits 1 b
  let (d, b) ← readBits 1 b
  let (ps, b) ← readBits 1 b
  let (g, b) ← readBits 1 b
  let (avl, b) ← readBits 3 b
  let (pfn, b) ← readBits 40 b
  let (avlHi, b) ← readBits 11 b
  let (nx, b) ← readBits 1 b
  some (⟨p, rw, us, pwt, pcd, a, d, ps, g, avl, pfn, avlHi, nx⟩, b)

/-- The fields of a fourth-level entry, in the order of R169. -/
def readPte64Fields (b : List Byte) : Option (Pte64Fields × List Byte) := do
  let (p, b) ← readBits 1 b
  let (rw, b) ← readBits 1 b
  let (us, b) ← readBits 1 b
  let (pwt, b) ← readBits 1 b
  let (pcd, b) ← readBits 1 b
  let (a, b) ← readBits 1 b
  let (d, b) ← readBits 1 b
  let (pat, b) ← readBits 1 b
  let (g, b) ← readBits 1 b
  let (avl, b) ← readBits 3 b
  let (pfn, b) ← readBits 40 b
  let (avlHi, b) ← readBits 11 b
  let (nx, b) ← readBits 1 b
  some (⟨p, rw, us, pwt, pcd, a, d, pat, g, avl, pfn, avlHi, nx⟩, b)

/-- The byte operand of a decoder of `n` bytes (R74 (b)), given to the command's constructor. -/
def readFixed (n : Nat) (mk : List Byte → Instr) (b : List Byte) : Option (Instr × List Byte) :=
  match takeBytes n b with
  | none => none
  | some (x, r) => some (mk x, r)

/-- A record operand given to the command's constructor. -/
def readRecord {α : Type} (mk : α → Instr) (r : Option (α × List Byte)) : Option (Instr × List Byte) :=
  match r with
  | none => none
  | some (v, rest) => some (mk v, rest)

/-- The operand record `op` selects (R70, R71). -/
def decodeOperands (o : Op) (b : List Byte) : Option (Instr × List Byte) :=
  match o with
  | .construct => readRecord .construct (readArch b)
  | .alloc => do
    let (size, b) ← readNat b
    let (alignment, b) ← readAlignment b
    some (.alloc size alignment, b)
  | .mwrite => do
    let (addr, b) ← readNat b
    let (bytes, b) ← readSeq b
    some (.mwrite addr bytes, b)
  | .mread => do
    let (addr, b) ← readNat b
    let (size, b) ← readNat b
    some (.mread addr size, b)
  | .rget => readRecord .rget (readField b)
  | .rset => do
    let (field, b) ← readField b
    let (value, b) ← readBits 64 b
    if value.toNat < 2 ^ field.width then some (.rset field value, b) else none
  | .raw => some (.raw, b)
  | .loadimg => do
    let (regs, b) ← takeBytes regFileSize b
    let (mem, b) ← readSeq b
    some (.loadimg (regs ++ mem), b)
  | .loadSeg => do
    let (sreg, b) ← readSreg b
    let (selector, b) ← readBits 16 b
    some (.loadSeg sreg selector, b)
  | .setupReal => some (.setupReal, b)
  | .setupGdt => some (.setupGdt, b)
  | .setupIdt => do
    let (n, b) ← readNat b
    let (ds, b) ← readDescriptors n b
    some (.setupIdt ds, b)
  | .setupPaging => some (.setupPaging, b)
  | .descAddr => readRecord .descAddr (readBits 16 b)
  | .walk32 => readRecord .walk32 (readBits 32 b)
  | .walk64 => readRecord .walk64 (readBits 64 b)
  | .encSeg => readRecord .encSeg (readSegFields 32 b)
  | .decSeg => readFixed 8 .decSeg b
  | .encSeg64 => readRecord .encSeg64 (readSegFields 64 b)
  | .decSeg64 => readFixed 16 .decSeg64 b
  | .encGate => readRecord .encGate (readGateFields 32 b)
  | .decGate => readFixed 8 .decGate b
  | .encGate64 => readRecord .encGate64 (readGateFields 64 b)
  | .decGate64 => readFixed 16 .decGate64 b
  | .encTaskGate => readRecord .encTaskGate (readTaskGateFields b)
  | .decTaskGate => readFixed 8 .decTaskGate b
  | .encTss32 => readRecord .encTss32 (readTss32Fields b)
  | .decTss32 => readFixed 104 .decTss32 b
  | .encTss64 => readRecord .encTss64 (readTss64Fields b)
  | .decTss64 => readFixed 104 .decTss64 b
  | .encPde32 => readRecord .encPde32 (readPde32Fields b)
  | .decPde32 => readFixed 4 .decPde32 b
  | .encPml4e => readRecord .encPml4e (readPml4eFields b)
  | .decPml4e => readFixed 8 .decPml4e b
  | .encPdpte => readRecord .encPdpte (readDirEntryFields b)
  | .decPdpte => readFixed 8 .decPdpte b
  | .encPde64 => readRecord .encPde64 (readDirEntryFields b)
  | .decPde64 => readFixed 8 .decPde64 b
  | .encPte64 => readRecord .encPte64 (readPte64Fields b)
  | .decPte64 => readFixed 8 .decPte64 b

/-- One command from the front of a byte sequence, and the bytes after it. -/
def decode : List Byte → Option (Instr × List Byte)
  | [] => none
  | b :: t =>
    match Op.ofCode b with
    | none => none
    | some o => decodeOperands o t

/-- The command one frame of the port carries: nothing may be left over (a decoder's operand of the wrong length is
illegal, R74 (b)). -/
def decodeFrame (frame : List Byte) : Option Instr :=
  match decode frame with
  | some (i, []) => some i
  | some (_, _ :: _) => none
  | none => none

/-! Encoding, from the same tables. -/

/-- A `uN` operand. -/
def putBits {w : Nat} (v : BitVec w) : List Byte := leBytes ((w + 7) / 8) v.toNat

/-- The 7-bit groups of a natural number; `fuel` bounds their count. -/
def putNatFuel : Nat → Nat → List Byte
  | 0, _ => []
  | fuel + 1, n => if n < 128 then [BitVec.ofNat 8 n] else BitVec.ofNat 8 (128 + n % 128) :: putNatFuel fuel (n / 128)

/-- A natural number operand. -/
def putNat (n : Nat) : List Byte := putNatFuel (n + 1) n

/-- A byte sequence operand. -/
def putSeq (b : List Byte) : List Byte := putNat b.length ++ b

/-- The operand `arch`. -/
def putArch : Arch → List Byte
  | .a32 => [0]
  | .a64 => [1]

/-- The operand `sreg` (R72). -/
def putSreg (r : Sreg) : List Byte := [BitVec.ofNat 8 (Sreg.all.idxOf r)]

/-- The operand `field`. -/
def putField (f : Field) : List Byte := [BitVec.ofNat 8 (Field.all.idxOf f)]

def putSegFields {w : Nat} (v : SegFields w) : List Byte :=
  putBits v.base ++ (putBits v.limit ++ (putBits v.type ++ (putBits v.s ++ (putBits v.dpl ++ (putBits v.p ++
    (putBits v.avl ++ (putBits v.l ++ (putBits v.db ++ putBits v.g))))))))

def putGateFields {w : Nat} (v : GateFields w) : List Byte :=
  putBits v.offset ++ (putBits v.selector ++ (putBits v.type ++ (putBits v.dpl ++ putBits v.p)))

def putTaskGateFields (v : TaskGateFields) : List Byte :=
  putBits v.selector ++ (putBits v.type ++ (putBits v.dpl ++ putBits v.p))

def putTss32Fields (v : Tss32Fields) : List Byte :=
  putBits v.link ++ (putBits v.esp0 ++ (putBits v.ss0 ++ (putBits v.esp1 ++ (putBits v.ss1 ++ (putBits v.esp2 ++
    (putBits v.ss2 ++ (putBits v.cr3 ++ (putBits v.eip ++ (putBits v.eflags ++ (putBits v.eax ++ (putBits v.ecx ++
    (putBits v.edx ++ (putBits v.ebx ++ (putBits v.esp ++ (putBits v.ebp ++ (putBits v.esi ++ (putBits v.edi ++
    (putBits v.es ++ (putBits v.cs ++ (putBits v.ss ++ (putBits v.ds ++ (putBits v.fs ++ (putBits v.gs ++
    (putBits v.ldt ++ (putBits v.t ++ putBits v.iomapBase)))))))))))))))))))))))))

def putTss64Fields (v : Tss64Fields) : List Byte :=
  putBits v.rsp0 ++ (putBits v.rsp1 ++ (putBits v.rsp2 ++ (putBits v.ist1 ++ (putBits v.ist2 ++ (putBits v.ist3 ++
    (putBits v.ist4 ++ (putBits v.ist5 ++ (putBits v.ist6 ++ (putBits v.ist7 ++ putBits v.iomapBase)))))))))

def putPde32Fields (v : Pde32Fields) : List Byte :=
  putBits v.p ++ (putBits v.rw ++ (putBits v.us ++ (putBits v.pwt ++ (putBits v.pcd ++ (putBits v.a ++ (putBits v.d ++
    (putBits v.ps ++ (putBits v.g ++ (putBits v.avl ++ putBits v.pfn)))))))))

def putPml4eFields (v : Pml4eFields) : List Byte :=
  putBits v.p ++ (putBits v.rw ++ (putBits v.us ++ (putBits v.pwt ++ (putBits v.pcd ++ (putBits v.a ++ (putBits v.d ++
    (putBits v.g ++ (putBits v.avl ++ (putBits v.pfn ++ (putBits v.avlHi ++ putBits v.nx))))))))))

def putDirEntryFields (v : DirEntryFields) : List Byte :=
  putBits v.p ++ (putBits v.rw ++ (putBits v.us ++ (putBits v.pwt ++ (putBits v.pcd ++ (putBits v.a ++ (putBits v.d ++
    (putBits v.ps ++ (putBits v.g ++ (putBits v.avl ++ (putBits v.pfn ++ (putBits v.avlHi ++ putBits v.nx)))))))))))

def putPte64Fields (v : Pte64Fields) : List Byte :=
  putBits v.p ++ (putBits v.rw ++ (putBits v.us ++ (putBits v.pwt ++ (putBits v.pcd ++ (putBits v.a ++ (putBits v.d ++
    (putBits v.pat ++ (putBits v.g ++ (putBits v.avl ++ (putBits v.pfn ++ (putBits v.avlHi ++ putBits v.nx)))))))))))

/-- The operand record of a command. -/
def encodeOperands : Instr → List Byte
  | .construct arch => putArch arch
  | .alloc size alignment => putNat size ++ (1 :: putNat alignment)
  | .mwrite addr bytes => putNat addr ++ putSeq bytes
  | .mread addr size => putNat addr ++ putNat size
  | .rget field => putField field
  | .rset field value => putField field ++ putBits value
  | .raw => []
  | .loadimg image => image.take regFileSize ++ putSeq (image.drop regFileSize)
  | .loadSeg sreg selector => putSreg sreg ++ putBits selector
  | .setupReal => []
  | .setupGdt => []
  | .setupIdt ds => putNat ds.length ++ ds.flatMap putSeq
  | .setupPaging => []
  | .descAddr selector => putBits selector
  | .walk32 va => putBits va
  | .walk64 va => putBits va
  | .encSeg v => putSegFields v
  | .decSeg b => b
  | .encSeg64 v => putSegFields v
  | .decSeg64 b => b
  | .encGate v => putGateFields v
  | .decGate b => b
  | .encGate64 v => putGateFields v
  | .decGate64 b => b
  | .encTaskGate v => putTaskGateFields v
  | .decTaskGate b => b
  | .encTss32 v => putTss32Fields v
  | .decTss32 b => b
  | .encTss64 v => putTss64Fields v
  | .decTss64 b => b
  | .encPde32 v => putPde32Fields v
  | .decPde32 b => b
  | .encPml4e v => putPml4eFields v
  | .decPml4e b => b
  | .encPdpte v => putDirEntryFields v
  | .decPdpte b => b
  | .encPde64 v => putDirEntryFields v
  | .decPde64 b => b
  | .encPte64 v => putPte64Fields v
  | .decPte64 b => b

/-- The frame that carries a well-formed command. -/
def encode (i : Instr) : List Byte := i.op.code :: encodeOperands i

/-! The numbering of spec/opcode_table.json, in which bit 0 is the least significant bit of the first byte. -/

/-- The bytes of a table word, and zero operand bytes after it (more than the longest command of zero operands takes). -/
def tableBytes (nbits w : Nat) : List Byte := leBytes (nbits / 8) w ++ zeroBytes 512

/-- The command the decoder reads from a table word whose operand bytes are zero. -/
def decodeTableWord (nbits w : Nat) : Option Instr :=
  match decode (tableBytes nbits w) with
  | some (i, _) => some i
  | none => none

/-- The frame of a table word: the bytes the decoder takes, or the table's own bytes where it takes none. -/
def tableFrame (nbits w : Nat) : List Byte :=
  match decode (tableBytes nbits w) with
  | some (_, r) => (tableBytes nbits w).take ((tableBytes nbits w).length - r.length)
  | none => leBytes (nbits / 8) w

end Sys2Proof
end

