-- ==== Sys2Proof/Config.lean ====
section
/-! DEFINITION. What an implementation fixes and what the spec leaves open. The two OPEN parameters of 00_scope.md R5 are
a record that State carries unchanged (notes/assumptions/8.md); the free values of 93_implementation_defined.md U1 are
constants with no body (notes/assumptions/7.md): nothing can evaluate them or prove a value of them. -/

namespace Sys2Proof

/-- The OPEN parameters of R5: `memMax` is MEM_MAX (`none`: unbounded), `realSetsSystemSegs` is REAL_SETS_SYSTEM_SEGS. -/
structure Config where
  memMax : Option Nat
  realSetsSystemSegs : Bool
deriving DecidableEq, Repr

/-- What the implementation fixed REAL_SETS_SYSTEM_SEGS to (93 U9, 92_eei_decisions.md D14): left open. -/
opaque Config.realSetsSystemSegsOpen : Bool

/-- The machine's parameters at reset: MEM_MAX at the default R5 states (unbounded), REAL_SETS_SYSTEM_SEGS open. -/
def Config.initial : Config :=
  { memMax := none, realSetsSystemSegs := Config.realSetsSystemSegsOpen }

/-- The six fields of a segment cache that LOAD_SEG of a call gate leaves unspecified (R200), drawn afresh at each such
load: applied to the number of values drawn before it. -/
opaque Config.freeBase : Nat → BitVec 64
opaque Config.freeLimit : Nat → BitVec 32
opaque Config.freeAvl : Nat → BitVec 1
opaque Config.freeL : Nat → BitVec 1
opaque Config.freeDb : Nat → BitVec 1
opaque Config.freeG : Nat → BitVec 1

/-- The allocation alignments of the setups (R5, 20_memory.md R55). -/
def Config.alignTss : Nat := 1
def Config.alignGdt : Nat := 1
def Config.alignIdt : Nat := 1
def Config.alignPt : Nat := 4096

end Sys2Proof
end

