-- ==== Sys2Proof/Machine/State.lean ====
section
/-! DEFINITION. The state of the block as plain data: the Register File, the Memory Arena and the fault latch (10_state.md
R20), the command port and its response (30_encoding.md R70), the open parameters and the count of free values drawn. -/

namespace Sys2Proof.Machine

/-- A segment cache record (R25), with the reserved bits `attr[11:8]` that LOADIMG and RAW carry verbatim (R34). -/
structure SegCache where
  base : BitVec 64
  limit : BitVec 32
  selector : BitVec 16
  type : BitVec 4
  s : BitVec 1
  dpl : BitVec 2
  p : BitVec 1
  rsvd : BitVec 4
  avl : BitVec 1
  l : BitVec 1
  db : BitVec 1
  g : BitVec 1
deriving DecidableEq, Repr

/-- A table pointer record (R27), with its reserved bytes 10 to 15 (R34). -/
structure TablePtr where
  base : BitVec 64
  limit : BitVec 16
  rsvd : BitVec 48
deriving DecidableEq, Repr

/-- The Register File: forty registers in wire order (R31). -/
structure Regs where
  rax : BitVec 64
  rcx : BitVec 64
  rdx : BitVec 64
  rbx : BitVec 64
  rsp : BitVec 64
  rbp : BitVec 64
  rsi : BitVec 64
  rdi : BitVec 64
  r8 : BitVec 64
  r9 : BitVec 64
  r10 : BitVec 64
  r11 : BitVec 64
  r12 : BitVec 64
  r13 : BitVec 64
  r14 : BitVec 64
  r15 : BitVec 64
  rip : BitVec 64
  rflags : BitVec 64
  es : SegCache
  cs : SegCache
  ss : SegCache
  ds : SegCache
  fs : SegCache
  gs : SegCache
  ldtr : SegCache
  tr : SegCache
  gdtr : TablePtr
  idtr : TablePtr
  cr0 : BitVec 64
  cr2 : BitVec 64
  cr3 : BitVec 64
  cr4 : BitVec 64
  cr8 : BitVec 64
  dr0 : BitVec 64
  dr1 : BitVec 64
  dr2 : BitVec 64
  dr3 : BitVec 64
  dr6 : BitVec 64
  dr7 : BitVec 64
  efer : BitVec 64
deriving DecidableEq, Repr

/-- The Memory Arena (R35): its length and its non-zero bytes, addresses strictly rising, each below the length. A byte
below the length that is not listed is zero, as `Alloc` leaves it (20_memory.md R51); an address at or above the length
does not exist. -/
structure Memory where
  len : Nat
  cells : List Host.Cell
deriving DecidableEq, Repr

/-- The three failure kinds (60_exceptions.md R241). -/
inductive FailKind
  | preconditionViolation | outOfBounds | unsupportedFeature
deriving DecidableEq, Repr

/-- The status a command returns (R241): completed, failed, or one of the two refusals that are not failures. -/
inductive Status
  | ok
  | failed (k : FailKind)
  | faulted
  | illegalCommand
deriving DecidableEq, Repr

/-- The page sizes of a walk result (43_pte_encoders_and_walk.md R180). -/
inductive PageSize
  | size4K | size2M | size4M | size1G
deriving DecidableEq, Repr

/-- The levels of a walk result (R180). -/
inductive WalkLevel
  | pd32 | pml4 | pdpt | pd | pt
deriving DecidableEq, Repr

/-- The result of a page walk (R180): a value, not a failure. -/
inductive WalkResult
  | mapped (pa : Nat) (size : PageSize)
  | notPresent (level : WalkLevel)
  | nonCanonical
  | unsupported (level : WalkLevel)
deriving DecidableEq, Repr

/-- The result record of a command (R70, R71). A field value is zero-extended to 64 bits. -/
inductive Result
  | nothing
  | addr (a : Nat)
  | bytes (b : List Byte)
  | value (v : BitVec 64)
  | walk (w : WalkResult)
  | seg (v : SegFields 32)
  | seg64 (v : SegFields 64)
  | gate (v : GateFields 32)
  | gate64 (v : GateFields 64)
  | taskGate (v : TaskGateFields)
  | tss32 (v : Tss32Fields)
  | tss64 (v : Tss64Fields)
  | pde32 (v : Pde32Fields)
  | pml4e (v : Pml4eFields)
  | dirEntry (v : DirEntryFields)
  | pte64 (v : Pte64Fields)
deriving DecidableEq, Repr

/-- What the block returns for a command (R10): a status and a result. -/
structure Response where
  status : Status
  result : Result
deriving DecidableEq, Repr

/-- The state. `regs`, `mem`, `fault` are the spec's (R20). `constructed` says whether a CONSTRUCT or LOADIMG has been
performed (70_reset_and_hazards.md R262). `port` holds the commands the host has issued and the block has not performed,
oldest first, one byte sequence each, and `response` what the last command performed returned (R70). `draws` counts the
free values drawn (93_implementation_defined.md U1), and `cfg` holds the open parameters (00_scope.md R5), which no command
changes. -/
structure State where
  cfg : Config
  regs : Regs
  mem : Memory
  fault : Option FailKind
  constructed : Bool
  port : List (List Byte)
  response : Option Response
  draws : Nat
deriving DecidableEq, Repr

/-- No command of the block stops the machine: a failure sets the fault latch and is answered with its kind, and the block
takes the next command (R243, R244). There is therefore no fault: nobody raises one. -/
inductive Fault
deriving DecidableEq, Repr

/-- Why a step has no meaning. -/
inductive Refusal
  /-- A command of the table that has no meaning in this model yet; raised by `exec`'s arm of that command alone. Safe: the
  machine stops where the hardware goes on. -/
  | notModelled (mnemonic : String)
deriving DecidableEq, Repr

/-- A segment cache record with every bit zero. -/
def SegCache.zero : SegCache :=
  { base := 0, limit := 0, selector := 0, type := 0, s := 0, dpl := 0, p := 0, rsvd := 0, avl := 0, l := 0, db := 0, g := 0 }

/-- A table pointer record with every bit zero. -/
def TablePtr.zero : TablePtr := { base := 0, limit := 0, rsvd := 0 }

/-- The Register File with all 3200 bits zero (R260). -/
def Regs.zero : Regs :=
  { rax := 0, rcx := 0, rdx := 0, rbx := 0, rsp := 0, rbp := 0, rsi := 0, rdi := 0
    r8 := 0, r9 := 0, r10 := 0, r11 := 0, r12 := 0, r13 := 0, r14 := 0, r15 := 0
    rip := 0, rflags := 0
    es := .zero, cs := .zero, ss := .zero, ds := .zero, fs := .zero, gs := .zero, ldtr := .zero, tr := .zero
    gdtr := .zero, idtr := .zero
    cr0 := 0, cr2 := 0, cr3 := 0, cr4 := 0, cr8 := 0
    dr0 := 0, dr1 := 0, dr2 := 0, dr3 := 0, dr6 := 0, dr7 := 0
    efer := 0 }

/-- The arena of no bytes. -/
def Memory.empty : Memory := { len := 0, cells := [] }

/-- The machine before its first command (R262): every register at the value R261 gives it after CONSTRUCT(32)
(notes/assumptions/6.md), the arena empty, no latch, nothing issued and nothing returned. -/
def State.reset : State :=
  { cfg := Config.initial
    regs := { Regs.zero with rflags := 0x2 }
    mem := .empty
    fault := none
    constructed := false
    port := []
    response := none
    draws := 0 }

end Sys2Proof.Machine
end

