-- ==== Sys2Proof/Machine/Operands.lean ====
section
/-! DEFINITION. The Register File by name: the plain scalars, the segment caches, the table pointers, and the addressable
fields of RGET and RSET (10_state.md R22 to R34, R46; 41_regfile_serializer_ops.md R123). Every read and write of a register
by a command goes through these. -/

namespace Sys2Proof.Machine

/-- A plain scalar (R46). -/
def Regs.getScalar (r : Regs) : Scalar → BitVec 64
  | .rax => r.rax
  | .rcx => r.rcx
  | .rdx => r.rdx
  | .rbx => r.rbx
  | .rsp => r.rsp
  | .rbp => r.rbp
  | .rsi => r.rsi
  | .rdi => r.rdi
  | .r8 => r.r8
  | .r9 => r.r9
  | .r10 => r.r10
  | .r11 => r.r11
  | .r12 => r.r12
  | .r13 => r.r13
  | .r14 => r.r14
  | .r15 => r.r15
  | .rip => r.rip
  | .cr2 => r.cr2
  | .cr3 => r.cr3
  | .cr8 => r.cr8
  | .dr0 => r.dr0
  | .dr1 => r.dr1
  | .dr2 => r.dr2
  | .dr3 => r.dr3
  | .dr6 => r.dr6
  | .dr7 => r.dr7

/-- A plain scalar replaced. -/
def Regs.setScalar (r : Regs) (n : Scalar) (v : BitVec 64) : Regs :=
  match n with
  | .rax => { r with rax := v }
  | .rcx => { r with rcx := v }
  | .rdx => { r with rdx := v }
  | .rbx => { r with rbx := v }
  | .rsp => { r with rsp := v }
  | .rbp => { r with rbp := v }
  | .rsi => { r with rsi := v }
  | .rdi => { r with rdi := v }
  | .r8 => { r with r8 := v }
  | .r9 => { r with r9 := v }
  | .r10 => { r with r10 := v }
  | .r11 => { r with r11 := v }
  | .r12 => { r with r12 := v }
  | .r13 => { r with r13 := v }
  | .r14 => { r with r14 := v }
  | .r15 => { r with r15 := v }
  | .rip => { r with rip := v }
  | .cr2 => { r with cr2 := v }
  | .cr3 => { r with cr3 := v }
  | .cr8 => { r with cr8 := v }
  | .dr0 => { r with dr0 := v }
  | .dr1 => { r with dr1 := v }
  | .dr2 => { r with dr2 := v }
  | .dr3 => { r with dr3 := v }
  | .dr6 => { r with dr6 := v }
  | .dr7 => { r with dr7 := v }

/-- A segment cache register (R26). -/
def Regs.getSeg (r : Regs) : Sreg → SegCache
  | .es => r.es
  | .cs => r.cs
  | .ss => r.ss
  | .ds => r.ds
  | .fs => r.fs
  | .gs => r.gs
  | .ldtr => r.ldtr
  | .tr => r.tr

/-- A segment cache register replaced, reserved bits included. -/
def Regs.setSeg (r : Regs) (n : Sreg) (c : SegCache) : Regs :=
  match n with
  | .es => { r with es := c }
  | .cs => { r with cs := c }
  | .ss => { r with ss := c }
  | .ds => { r with ds := c }
  | .fs => { r with fs := c }
  | .gs => { r with gs := c }
  | .ldtr => { r with ldtr := c }
  | .tr => { r with tr := c }

/-- A segment cache register written as a whole with the record `c` (R26): the reserved bits `attr[11:8]` of the record are 0
(R25; notes/assumptions/9.md). -/
def Regs.loadCache (r : Regs) (n : Sreg) (c : SegCache) : Regs :=
  r.setSeg n { c with rsvd := 0 }

/-- A table pointer register (R27). -/
def Regs.getTable (r : Regs) : TableReg → TablePtr
  | .gdtr => r.gdtr
  | .idtr => r.idtr

/-- A table pointer register replaced, reserved bytes included. -/
def Regs.setTable (r : Regs) (t : TableReg) (p : TablePtr) : Regs :=
  match t with
  | .gdtr => { r with gdtr := p }
  | .idtr => { r with idtr := p }

/-- A component of a segment cache record, zero-extended to 64 bits (R123). -/
def SegCache.get (c : SegCache) : SegComp → BitVec 64
  | .base => c.base
  | .limit => c.limit.setWidth 64
  | .selector => c.selector.setWidth 64
  | .type => c.type.setWidth 64
  | .s => c.s.setWidth 64
  | .dpl => c.dpl.setWidth 64
  | .p => c.p.setWidth 64
  | .avl => c.avl.setWidth 64
  | .l => c.l.setWidth 64
  | .db => c.db.setWidth 64
  | .g => c.g.setWidth 64

/-- A component of a segment cache record replaced (R123). -/
def SegCache.set (c : SegCache) (k : SegComp) (v : BitVec 64) : SegCache :=
  match k with
  | .base => { c with base := v }
  | .limit => { c with limit := v.setWidth 32 }
  | .selector => { c with selector := v.setWidth 16 }
  | .type => { c with type := v.setWidth 4 }
  | .s => { c with s := v.setWidth 1 }
  | .dpl => { c with dpl := v.setWidth 2 }
  | .p => { c with p := v.setWidth 1 }
  | .avl => { c with avl := v.setWidth 1 }
  | .l => { c with l := v.setWidth 1 }
  | .db => { c with db := v.setWidth 1 }
  | .g => { c with g := v.setWidth 1 }

/-- `FieldGet` (R123). -/
def Regs.fieldGet (r : Regs) : Field → BitVec 64
  | .scalar n => r.getScalar n
  | .rflags f => getBitsAt r.rflags f.lo f.width
  | .cr0 f => getBitsAt r.cr0 f.lo 1
  | .cr4 f => getBitsAt r.cr4 f.lo 1
  | .efer f => getBitsAt r.efer f.lo 1
  | .seg n c => (r.getSeg n).get c
  | .tableBase t => (r.getTable t).base
  | .tableLimit t => (r.getTable t).limit.setWidth 64

/-- `FieldSet` (R123): exactly the bits of the named field. -/
def Regs.fieldSet (r : Regs) (f : Field) (v : BitVec 64) : Regs :=
  match f with
  | .scalar n => r.setScalar n v
  | .rflags f => { r with rflags := setBitsAt r.rflags f.lo f.width v }
  | .cr0 f => { r with cr0 := setBitsAt r.cr0 f.lo 1 v }
  | .cr4 f => { r with cr4 := setBitsAt r.cr4 f.lo 1 v }
  | .efer f => { r with efer := setBitsAt r.efer f.lo 1 v }
  | .seg n c => r.setSeg n ((r.getSeg n).set c v)
  | .tableBase t => r.setTable t { r.getTable t with base := v }
  | .tableLimit t => r.setTable t { r.getTable t with limit := v.setWidth 16 }

/-- `LongMode` (R44). -/
def Regs.longMode (r : Regs) : Bool := r.fieldGet (.efer .lma) == 1

/-- `ArchWidth` (R44). -/
def Regs.archWidth (r : Regs) : Nat := if r.longMode then 64 else 32

/-- `PagingEnabled` (R45). -/
def Regs.pagingEnabled (r : Regs) : Bool := r.fieldGet (.cr0 .pg) == 1

/-- `ProtectedMode` (R45). -/
def Regs.protectedMode (r : Regs) : Bool := r.fieldGet (.cr0 .pe) == 1

/-- `GdtInstalled` (R45): the `(0, 0)` sentinel of 70_reset_and_hazards.md R269. -/
def Regs.gdtInstalled (r : Regs) : Bool := !(r.gdtr.base == 0 && r.gdtr.limit == 0)

end Sys2Proof.Machine
end

