-- ==== Sys2Proof/Machine/Ops.lean ====
section
/-! DEFINITION. The named operations over the arena, the latch and the command port: every command's meaning is written
with these. -/

namespace Sys2Proof.Machine

/-! The arena (20_memory.md). -/

/-- What an address below the length reads as when it is not listed: the zero `Alloc` leaves there (R51). -/
def Memory.unlisted : Byte := 0

/-- The byte a list of cells holds at an address. -/
def lookupCell : List Host.Cell → Nat → Byte
  | [], _ => Memory.unlisted
  | (k, b) :: t, a => if k = a then b else lookupCell t a

/-- The byte at arena offset `a`; meaningful below the length. -/
def Memory.byte (m : Memory) (a : Nat) : Byte := lookupCell m.cells a

/-- Reading one byte: an address at or above the length does not exist (R50). -/
def Memory.readByte (m : Memory) (a : Nat) : Option Byte := if a < m.len then some (m.byte a) else none

/-- Cells in canonical form: addresses strictly rising from `lo`, each below `hi`, none holding the unlisted byte. -/
def cellsOk : Nat → Nat → List Host.Cell → Bool
  | _, _, [] => true
  | lo, hi, (k, b) :: t => decide (lo ≤ k) && decide (k < hi) && b != Memory.unlisted && cellsOk (k + 1) hi t

/-- The canonical form of the arena. -/
def Memory.wf (m : Memory) : Bool := cellsOk 0 m.len m.cells

/-- The cells of a byte sequence placed at `a`; a byte equal to the unlisted one has none. -/
def cellsOf : Nat → List Byte → List Host.Cell
  | _, [] => []
  | a, b :: t => if b = Memory.unlisted then cellsOf (a + 1) t else (a, b) :: cellsOf (a + 1) t

/-- The `n` bytes from `a` on, of cells that are all at `a` or above. -/
def bytesFrom : List Host.Cell → Nat → Nat → List Byte
  | _, _, 0 => []
  | [], a, n + 1 => Memory.unlisted :: bytesFrom [] (a + 1) n
  | (k, b) :: t, a, n + 1 =>
    if k = a then b :: bytesFrom t (a + 1) n else Memory.unlisted :: bytesFrom ((k, b) :: t) (a + 1) n

/-- `s.mem[a .. a+n)`. -/
def Memory.read (m : Memory) (a n : Nat) : List Byte := bytesFrom (m.cells.dropWhile fun c => decide (c.1 < a)) a n

/-- `s.mem[a .. a+len(v)) <- v` (R53): no other byte changes and the length stays. -/
def Memory.write (m : Memory) (a : Nat) (v : List Byte) : Memory :=
  { m with
    cells := m.cells.takeWhile (fun c => decide (c.1 < a)) ++ cellsOf a v ++
      m.cells.dropWhile (fun c => decide (c.1 < a + v.length)) }

/-- The arena extended with zero bytes to length `n` (R51). -/
def Memory.grow (m : Memory) (n : Nat) : Memory := { m with len := n }

/-- The arena whose bytes are `b` (41_regfile_serializer_ops.md R125). -/
def Memory.ofBytes (b : List Byte) : Memory := { len := b.length, cells := cellsOf 0 b }

/-- All of the arena's bytes (R124). -/
def Memory.toBytes (m : Memory) : List Byte := m.read 0 m.len

/-! The updates of the state. -/

def State.setRegs (s : State) (r : Regs) : State := { s with regs := r }
def State.setMem (s : State) (m : Memory) : State := { s with mem := m }
def State.setFault (s : State) (f : Option FailKind) : State := { s with fault := f }
def State.setConstructed (s : State) : State := { s with constructed := true }
def State.setPort (s : State) (p : List (List Byte)) : State := { s with port := p }
def State.setResponse (s : State) (r : Response) : State := { s with response := some r }

/-- One free value more has been drawn. -/
def State.countDraw (s : State) : State := { s with draws := s.draws + 1 }

/-- The command's answer on the port (00_scope.md R10). -/
def State.respond (s : State) (st : Status) (r : Result) : State := s.setResponse { status := st, result := r }

/-! Commands that may fail part-way (00_scope.md R9, 60_exceptions.md R243). -/

/-- A command, or a part of one, either completes with a value or stops at a failing check; the state is the one reached,
so writes made before the check stay made. -/
inductive Attempt (α : Type)
  | done (a : α) (s : State)
  | failed (k : FailKind) (s : State)
deriving DecidableEq, Repr

/-- Go on with `k` if the part completed. -/
def Attempt.andThen {α β : Type} (x : Attempt α) (k : α → State → Attempt β) : Attempt β :=
  match x with
  | .done a s => k a s
  | .failed f s => .failed f s

/-- `assert c else kind` (00_scope.md R9). -/
def assertThat (c : Bool) (kind : FailKind) (s : State) : Attempt Unit := if c then .done () s else .failed kind s

/-- The status code (60_exceptions.md R241). -/
def Status.code : Status → Byte
  | .ok => 0
  | .failed .preconditionViolation => 1
  | .failed .outOfBounds => 2
  | .failed .unsupportedFeature => 3
  | .faulted => 0xFE
  | .illegalCommand => 0xFF

/-- FAILURE ENTRY (R243): the latch takes the kind if it was none, and the status is `err(kind)`; no handler, no vector, no
mode change. -/
def State.takeFailure (s : State) (k : FailKind) : State :=
  (s.setFault (s.fault.or (some k))).respond (.failed k) .nothing

/-- RECOVERY (R244, R245): the only return from a failure is to start over. CONSTRUCT and LOADIMG replace the Register File
and the arena and clear the latch. -/
def State.startOver (s : State) (r : Regs) (m : Memory) : State :=
  (((s.setRegs r).setMem m).setFault none).setConstructed

/-- The command completed with a result, or failed. -/
def finish (x : Attempt Result) : Host.Outcome State Fault Refusal :=
  match x with
  | .done r s => .next (s.respond .ok r)
  | .failed k s => .next (s.takeFailure k)

/-- The command completes with a result and changes nothing but the answer. -/
def complete (r : Result) (s : State) : Host.Outcome State Fault Refusal := .next (s.respond .ok r)

/-- The command is refused with IllegalCommand: no state changes and the latch is not set (30_encoding.md R74). -/
def illegal (s : State) : Host.Outcome State Fault Refusal := .next (s.respond .illegalCommand .nothing)

/-- State commands are accepted once the block has been constructed (R262) and while the latch is not set (R244). -/
def State.accepting (s : State) : Bool := s.constructed && s.fault.isNone

/-- A state command: refused with Faulted, changing nothing, unless the block accepts it (R244, R262). -/
def stateCommand (s : State) (body : State → Attempt Result) : Host.Outcome State Fault Refusal :=
  if s.accepting then finish (body s) else .next (s.respond .faulted .nothing)

/-- A command whose operands are of the wrong type is refused before anything else (30_encoding.md R74 (b), R248). -/
def typed (ok : Bool) (s : State) (k : Host.Outcome State Fault Refusal) : Host.Outcome State Fault Refusal :=
  if ok then k else illegal s

/-! The primitives of 20_memory.md. -/

/-- The smallest multiple of `alignment` not below `len` (R51). -/
def alignUp (len alignment : Nat) : Nat := (len + alignment - 1) / alignment * alignment

/-- MEM_MAX admits an arena of `n` bytes (R65). -/
def memAdmits (c : Config) (n : Nat) : Bool :=
  match c.memMax with
  | none => true
  | some m => decide (n ≤ m)

/-- `Alloc(s, size, alignment)` (R51). -/
def alloc (size alignment : Nat) (s : State) : Attempt Nat :=
  let addr := alignUp s.mem.len alignment
  if memAdmits s.cfg (addr + size) then .done addr (s.setMem (s.mem.grow (addr + size))) else .failed .outOfBounds s

/-- `MemRead(addr, n)` (R52). -/
def memRead (addr n : Nat) (s : State) : Attempt (List Byte) :=
  if addr + n ≤ s.mem.len then .done (s.mem.read addr n) s else .failed .outOfBounds s

/-- `MemWrite(addr, n, v)` with `n = len(v)` (R53). -/
def memWrite (addr : Nat) (v : List Byte) (s : State) : Attempt Unit :=
  if addr + v.length ≤ s.mem.len then .done () (s.setMem (s.mem.write addr v)) else .failed .outOfBounds s

/-! The command port (30_encoding.md R70, 10_state.md R21). -/

/-- The oldest command issued, and the state without it. -/
def State.takeFrame (s : State) : Option (List Byte × State) :=
  match s.port with
  | [] => none
  | f :: rest => some (f, s.setPort rest)

/-- With nothing issued the block waits for the next command (70_reset_and_hazards.md R260, notes/assumptions/5.md). -/
def idle (s : State) : Host.Outcome State Fault Refusal := .next s

end Sys2Proof.Machine
end

