-- ==== Sys2Proof/Machine/Arena.lean ====
section
/-! DEFINITION. The arena commands ALLOC, MWRITE, MREAD (40_arena_ops.md R110 to R112). -/

namespace Sys2Proof.Machine

/-- ALLOC (R110). An `alignment` of 0 is not an operand (30_encoding.md R74 (b)). -/
def execAlloc (size alignment : Nat) (s : State) : Host.Outcome State Fault Refusal :=
  typed (decide (1 ≤ alignment)) s <|
    stateCommand s fun s => (alloc size alignment s).andThen fun addr s => .done (.addr addr) s

/-- MWRITE (R111). -/
def execMwrite (addr : Nat) (bytes : List Byte) (s : State) : Host.Outcome State Fault Refusal :=
  stateCommand s fun s => (memWrite addr bytes s).andThen fun _ s => .done .nothing s

/-- MREAD (R112). -/
def execMread (addr size : Nat) (s : State) : Host.Outcome State Fault Refusal :=
  stateCommand s fun s => (memRead addr size s).andThen fun b s => .done (.bytes b) s

end Sys2Proof.Machine
end

