-- ==== Sys2Proof/Machine/RegisterFile.lean ====
section
/-! DEFINITION. CONSTRUCT (70_reset_and_hazards.md R260), RGET, RSET, and the serializer: the wire image of the Register File
(10_state.md R25, R27, R31), RAW and LOADIMG (41_regfile_serializer_ops.md R121 to R126). -/

namespace Sys2Proof.Machine

/-- The attribute word of a segment cache record (R25). -/
def SegCache.attr (c : SegCache) : BitVec 16 :=
  c.g ++ c.db ++ c.l ++ c.avl ++ c.rsvd ++ c.p ++ c.dpl ++ c.s ++ c.type

/-- The 16-byte wire image of a segment cache record (R25). -/
def SegCache.image (c : SegCache) : List Byte :=
  leBits 8 c.base ++ leBits 4 c.limit ++ leBits 2 c.selector ++ leBits 2 c.attr

/-- The segment cache record whose wire image starts at index `i`. -/
def SegCache.parse (b : List Byte) (i : Nat) : SegCache :=
  let attr : BitVec 16 := leAt 16 b (i + 14) 2
  { base := leAt 64 b i 8
    limit := leAt 32 b (i + 8) 4
    selector := leAt 16 b (i + 12) 2
    type := attr.extractLsb 3 0
    s := attr.extractLsb 4 4
    dpl := attr.extractLsb 6 5
    p := attr.extractLsb 7 7
    rsvd := attr.extractLsb 11 8
    avl := attr.extractLsb 12 12
    l := attr.extractLsb 13 13
    db := attr.extractLsb 14 14
    g := attr.extractLsb 15 15 }

/-- The 16-byte wire image of a table pointer record (R27). -/
def TablePtr.image (t : TablePtr) : List Byte := leBits 8 t.base ++ leBits 2 t.limit ++ leBits 6 t.rsvd

/-- The table pointer record whose wire image starts at index `i`. -/
def TablePtr.parse (b : List Byte) (i : Nat) : TablePtr :=
  { base := leAt 64 b i 8, limit := leAt 16 b (i + 8) 2, rsvd := leAt 48 b (i + 10) 6 }

/-- `RegImage` (R31): 400 bytes, the registers in wire order. -/
def Regs.image (r : Regs) : List Byte :=
  leBits 8 r.rax ++ leBits 8 r.rcx ++ leBits 8 r.rdx ++ leBits 8 r.rbx ++ leBits 8 r.rsp ++ leBits 8 r.rbp ++
    leBits 8 r.rsi ++ leBits 8 r.rdi ++ leBits 8 r.r8 ++ leBits 8 r.r9 ++ leBits 8 r.r10 ++ leBits 8 r.r11 ++
    leBits 8 r.r12 ++ leBits 8 r.r13 ++ leBits 8 r.r14 ++ leBits 8 r.r15 ++ leBits 8 r.rip ++ leBits 8 r.rflags ++
    r.es.image ++ r.cs.image ++ r.ss.image ++ r.ds.image ++ r.fs.image ++ r.gs.image ++ r.ldtr.image ++ r.tr.image ++
    r.gdtr.image ++ r.idtr.image ++ leBits 8 r.cr0 ++ leBits 8 r.cr2 ++ leBits 8 r.cr3 ++ leBits 8 r.cr4 ++
    leBits 8 r.cr8 ++ leBits 8 r.dr0 ++ leBits 8 r.dr1 ++ leBits 8 r.dr2 ++ leBits 8 r.dr3 ++ leBits 8 r.dr6 ++
    leBits 8 r.dr7 ++ leBits 8 r.efer

/-- `RegParse` (R31): every bit of the 400 bytes is kept, named or fixed (R34). -/
def Regs.parse (b : List Byte) : Regs :=
  { rax := leAt 64 b 0x000 8
    rcx := leAt 64 b 0x008 8
    rdx := leAt 64 b 0x010 8
    rbx := leAt 64 b 0x018 8
    rsp := leAt 64 b 0x020 8
    rbp := leAt 64 b 0x028 8
    rsi := leAt 64 b 0x030 8
    rdi := leAt 64 b 0x038 8
    r8 := leAt 64 b 0x040 8
    r9 := leAt 64 b 0x048 8
    r10 := leAt 64 b 0x050 8
    r11 := leAt 64 b 0x058 8
    r12 := leAt 64 b 0x060 8
    r13 := leAt 64 b 0x068 8
    r14 := leAt 64 b 0x070 8
    r15 := leAt 64 b 0x078 8
    rip := leAt 64 b 0x080 8
    rflags := leAt 64 b 0x088 8
    es := .parse b 0x090
    cs := .parse b 0x0A0
    ss := .parse b 0x0B0
    ds := .parse b 0x0C0
    fs := .parse b 0x0D0
    gs := .parse b 0x0E0
    ldtr := .parse b 0x0F0
    tr := .parse b 0x100
    gdtr := .parse b 0x110
    idtr := .parse b 0x120
    cr0 := leAt 64 b 0x130 8
    cr2 := leAt 64 b 0x138 8
    cr3 := leAt 64 b 0x140 8
    cr4 := leAt 64 b 0x148 8
    cr8 := leAt 64 b 0x150 8
    dr0 := leAt 64 b 0x158 8
    dr1 := leAt 64 b 0x160 8
    dr2 := leAt 64 b 0x168 8
    dr3 := leAt 64 b 0x170 8
    dr6 := leAt 64 b 0x178 8
    dr7 := leAt 64 b 0x180 8
    efer := leAt 64 b 0x188 8 }

/-- The whole image (R124): the Register File, then the arena, no header and no length. -/
def State.image (s : State) : List Byte := s.regs.image ++ s.mem.toBytes

/-- The Register File CONSTRUCT leaves (R260): zero but for `rflags` bit 1, and `efer.lme` and `efer.lma` for 64. -/
def constructRegs : Arch → Regs
  | .a32 => { Regs.zero with rflags := 0x2 }
  | .a64 => ({ Regs.zero with rflags := 0x2 }.fieldSet (.efer .lme) 1).fieldSet (.efer .lma) 1

/-- CONSTRUCT (R260): accepted in every state; the previous state is discarded. -/
def execConstruct (arch : Arch) (s : State) : Host.Outcome State Fault Refusal :=
  complete .nothing (s.startOver (constructRegs arch) Memory.empty)

/-- RGET (R121). -/
def execRget (field : Field) (s : State) : Host.Outcome State Fault Refusal :=
  stateCommand s fun s => .done (.value (s.regs.fieldGet field)) s

/-- RSET (R122). A value wider than the field is not an operand (00_scope.md R10, notes/assumptions/13.md). -/
def execRset (field : Field) (value : BitVec 64) (s : State) : Host.Outcome State Fault Refusal :=
  typed (decide (value.toNat < 2 ^ field.width)) s <|
    stateCommand s fun s => .done .nothing (s.setRegs (s.regs.fieldSet field value))

/-- RAW (R124). -/
def execRaw (s : State) : Host.Outcome State Fault Refusal := stateCommand s fun s => .done (.bytes s.image) s

/-- LOADIMG (R125): accepted whatever the latch holds, and clears it. -/
def execLoadimg (image : List Byte) (s : State) : Host.Outcome State Fault Refusal :=
  typed (decide (regFileSize ≤ image.length)) s <|
    complete .nothing
      (s.startOver (Regs.parse (slice image 0 regFileSize)) (Memory.ofBytes (image.drop regFileSize)))

end Sys2Proof.Machine
end

