-- ==== Sys2Proof/Machine/Descriptors.lean ====
section
/-! DEFINITION. Segment, gate, task gate and task-state segment formats (30_encoding.md R75 to R82) and their fourteen
commands (42_descriptor_encoders.md R130 to R148). Encoders and decoders are pure: they read and write no state, never fail
on a well-typed operand, and are accepted even while the latch is set (R130, 60_exceptions.md R244). -/

namespace Sys2Proof.Machine

/-- The 64-bit number of the first eight bytes. -/
def word64 (b : List Byte) : BitVec 64 := leAt 64 b 0 8

/-- The extension word of a 16-byte form: bytes 8 to 11 (R77, R79). -/
def extWord (b : List Byte) : BitVec 32 := leAt 32 b 8 4

/-! Segment descriptors. -/

/-- `SegLimit` (R133): the raw limit. -/
def segLimit (d : BitVec 64) : BitVec 20 := d.extractLsb 51 48 ++ d.extractLsb 15 0

/-- `SegBase32` (R133). -/
def segBase32 (d : BitVec 64) : BitVec 32 := d.extractLsb 63 56 ++ d.extractLsb 39 32 ++ d.extractLsb 31 16

/-- `SegBase64` (R133). -/
def segBase64 (d : BitVec 64) (x : BitVec 32) : BitVec 64 := x ++ segBase32 d

/-- The descriptor's `s` bit, bit 44: 1 for code and data (R75, R76). -/
def descS (d : BitVec 64) : BitVec 1 := d.extractLsb 44 44

/-- The descriptor's type nibble (R75). -/
def descType (d : BitVec 64) : BitVec 4 := d.extractLsb 43 40

/-- The descriptor's privilege level (R75). -/
def descDpl (d : BitVec 64) : BitVec 2 := d.extractLsb 46 45

/-- The descriptor's present bit (R75). -/
def descP (d : BitVec 64) : BitVec 1 := d.extractLsb 47 47

/-- The 64-bit number ENC_SEG builds (R131). -/
def segWord (v : SegFields 32) : BitVec 64 :=
  v.base.extractLsb 31 24 ++ v.g ++ v.db ++ v.l ++ v.avl ++ v.limit.extractLsb 19 16 ++ v.p ++ v.dpl ++ v.s ++ v.type ++
    v.base.extractLsb 23 16 ++ v.base.extractLsb 15 0 ++ v.limit.extractLsb 15 0

/-- ENC_SEG's eight bytes (R131). -/
def encodeSeg (v : SegFields 32) : List Byte := leBits 8 (segWord v)

/-- The fields DEC_SEG reads from the 64-bit number (R132). -/
def segOfWord (d : BitVec 64) : SegFields 32 :=
  { base := segBase32 d
    limit := segLimit d
    type := descType d
    s := descS d
    dpl := descDpl d
    p := descP d
    avl := d.extractLsb 52 52
    l := d.extractLsb 53 53
    db := d.extractLsb 54 54
    g := d.extractLsb 55 55 }

/-- DEC_SEG's fields (R132). -/
def decodeSeg (b : List Byte) : SegFields 32 := segOfWord (word64 b)

/-- The same fields with another base. -/
def segWithBase {w w' : Nat} (v : SegFields w) (base : BitVec w') : SegFields w' :=
  { base := base, limit := v.limit, type := v.type, s := v.s, dpl := v.dpl, p := v.p
    avl := v.avl, l := v.l, db := v.db, g := v.g }

/-- ENC_SEG64's sixteen bytes: the 8-byte form of the low base, the extension word and the reserved word (R134, R148). -/
def encodeSeg64 (v : SegFields 64) : List Byte :=
  encodeSeg (segWithBase v (v.base.extractLsb 31 0 : BitVec 32)) ++ leBits 4 (v.base.extractLsb 63 32) ++ zeroBytes 4

/-- DEC_SEG64's fields (R135); the reserved word is ignored. -/
def decodeSeg64 (b : List Byte) : SegFields 64 := segWithBase (decodeSeg b) (segBase64 (word64 b) (extWord b))

/-! Gates. -/

/-- `GateOffset32` (R138). -/
def gateOffset32 (d : BitVec 64) : BitVec 32 := d.extractLsb 63 48 ++ d.extractLsb 15 0

/-- `GateOffset64` (R138). -/
def gateOffset64 (d : BitVec 64) (x : BitVec 32) : BitVec 64 := x ++ gateOffset32 d

/-- The 64-bit number ENC_GATE builds: bits 39:32 and 44 are 0 (R136). -/
def gateWord (v : GateFields 32) : BitVec 64 :=
  v.offset.extractLsb 31 16 ++ v.p ++ v.dpl ++ 0#1 ++ v.type ++ 0#8 ++ v.selector ++ v.offset.extractLsb 15 0

/-- ENC_GATE's eight bytes (R136). -/
def encodeGate (v : GateFields 32) : List Byte := leBits 8 (gateWord v)

/-- The fields DEC_GATE reads (R137); bits 39:32 and 44 are ignored. -/
def gateOfWord (d : BitVec 64) : GateFields 32 :=
  { offset := gateOffset32 d, selector := d.extractLsb 31 16, type := descType d, dpl := descDpl d, p := descP d }

/-- DEC_GATE's fields (R137). -/
def decodeGate (b : List Byte) : GateFields 32 := gateOfWord (word64 b)

/-- The same fields with another offset. -/
def gateWithOffset {w w' : Nat} (v : GateFields w) (offset : BitVec w') : GateFields w' :=
  { offset := offset, selector := v.selector, type := v.type, dpl := v.dpl, p := v.p }

/-- ENC_GATE64's sixteen bytes (R139, R148). -/
def encodeGate64 (v : GateFields 64) : List Byte :=
  encodeGate (gateWithOffset v (v.offset.extractLsb 31 0 : BitVec 32)) ++ leBits 4 (v.offset.extractLsb 63 32) ++
    zeroBytes 4

/-- DEC_GATE64's fields (R140); the reserved word is ignored. -/
def decodeGate64 (b : List Byte) : GateFields 64 :=
  gateWithOffset (decodeGate b) (gateOffset64 (word64 b) (extWord b))

/-- The 64-bit number ENC_TASKGATE builds (R80, R141). -/
def taskGateWord (v : TaskGateFields) : BitVec 64 := 0#16 ++ v.p ++ v.dpl ++ 0#1 ++ v.type ++ 0#8 ++ v.selector ++ 0#16

/-- ENC_TASKGATE's eight bytes (R141). -/
def encodeTaskGate (v : TaskGateFields) : List Byte := leBits 8 (taskGateWord v)

/-- DEC_TASKGATE's fields (R142); every other bit is ignored. -/
def decodeTaskGate (b : List Byte) : TaskGateFields :=
  let d := word64 b
  { selector := d.extractLsb 31 16, type := descType d, dpl := descDpl d, p := descP d }

/-! Task-state segments. -/

/-- ENC_TSS32's 104 bytes: every field at its offset of R81, every reserved range 0 (R143). -/
def encodeTss32 (v : Tss32Fields) : List Byte :=
  leBits 2 v.link ++ zeroBytes 2 ++ leBits 4 v.esp0 ++ leBits 2 v.ss0 ++ zeroBytes 2 ++ leBits 4 v.esp1 ++
    leBits 2 v.ss1 ++ zeroBytes 2 ++ leBits 4 v.esp2 ++ leBits 2 v.ss2 ++ zeroBytes 2 ++ leBits 4 v.cr3 ++
    leBits 4 v.eip ++ leBits 4 v.eflags ++ leBits 4 v.eax ++ leBits 4 v.ecx ++ leBits 4 v.edx ++ leBits 4 v.ebx ++
    leBits 4 v.esp ++ leBits 4 v.ebp ++ leBits 4 v.esi ++ leBits 4 v.edi ++ leBits 2 v.es ++ zeroBytes 2 ++
    leBits 2 v.cs ++ zeroBytes 2 ++ leBits 2 v.ss ++ zeroBytes 2 ++ leBits 2 v.ds ++ zeroBytes 2 ++
    leBits 2 v.fs ++ zeroBytes 2 ++ leBits 2 v.gs ++ zeroBytes 2 ++ leBits 2 v.ldt ++ zeroBytes 2 ++
    leBits 2 (v.t.setWidth 16) ++ leBits 2 v.iomapBase

/-- DEC_TSS32's fields: each from its offset of R81, `t` from bit 0 of byte 100; reserved ranges ignored (R144). -/
def decodeTss32 (b : List Byte) : Tss32Fields :=
  { link := leAt 16 b 0 2
    esp0 := leAt 32 b 4 4
    ss0 := leAt 16 b 8 2
    esp1 := leAt 32 b 12 4
    ss1 := leAt 16 b 16 2
    esp2 := leAt 32 b 20 4
    ss2 := leAt 16 b 24 2
    cr3 := leAt 32 b 28 4
    eip := leAt 32 b 32 4
    eflags := leAt 32 b 36 4
    eax := leAt 32 b 40 4
    ecx := leAt 32 b 44 4
    edx := leAt 32 b 48 4
    ebx := leAt 32 b 52 4
    esp := leAt 32 b 56 4
    ebp := leAt 32 b 60 4
    esi := leAt 32 b 64 4
    edi := leAt 32 b 68 4
    es := leAt 16 b 72 2
    cs := leAt 16 b 76 2
    ss := leAt 16 b 80 2
    ds := leAt 16 b 84 2
    fs := leAt 16 b 88 2
    gs := leAt 16 b 92 2
    ldt := leAt 16 b 96 2
    t := leAt 1 b 100 1
    iomapBase := leAt 16 b 102 2 }

/-- ENC_TSS64's 104 bytes: every field at its offset of R82, every reserved range 0 (R145). -/
def encodeTss64 (v : Tss64Fields) : List Byte :=
  zeroBytes 4 ++ leBits 8 v.rsp0 ++ leBits 8 v.rsp1 ++ leBits 8 v.rsp2 ++ zeroBytes 8 ++ leBits 8 v.ist1 ++
    leBits 8 v.ist2 ++ leBits 8 v.ist3 ++ leBits 8 v.ist4 ++ leBits 8 v.ist5 ++ leBits 8 v.ist6 ++ leBits 8 v.ist7 ++
    zeroBytes 8 ++ zeroBytes 2 ++ leBits 2 v.iomapBase

/-- DEC_TSS64's fields: each from its offset of R82; reserved ranges ignored (R146). -/
def decodeTss64 (b : List Byte) : Tss64Fields :=
  { rsp0 := leAt 64 b 4 8
    rsp1 := leAt 64 b 12 8
    rsp2 := leAt 64 b 20 8
    ist1 := leAt 64 b 36 8
    ist2 := leAt 64 b 44 8
    ist3 := leAt 64 b 52 8
    ist4 := leAt 64 b 60 8
    ist5 := leAt 64 b 68 8
    ist6 := leAt 64 b 76 8
    ist7 := leAt 64 b 84 8
    iomapBase := leAt 16 b 102 2 }

/-! The commands. -/

/-- ENC_SEG (R131). -/
def execEncSeg (v : SegFields 32) (s : State) : Host.Outcome State Fault Refusal := complete (.bytes (encodeSeg v)) s

/-- DEC_SEG (R132). -/
def execDecSeg (b : List Byte) (s : State) : Host.Outcome State Fault Refusal :=
  typed (b.length == 8) s (complete (.seg (decodeSeg b)) s)

/-- ENC_SEG64 (R134). -/
def execEncSeg64 (v : SegFields 64) (s : State) : Host.Outcome State Fault Refusal := complete (.bytes (encodeSeg64 v)) s

/-- DEC_SEG64 (R135). -/
def execDecSeg64 (b : List Byte) (s : State) : Host.Outcome State Fault Refusal :=
  typed (b.length == 16) s (complete (.seg64 (decodeSeg64 b)) s)

/-- ENC_GATE (R136). -/
def execEncGate (v : GateFields 32) (s : State) : Host.Outcome State Fault Refusal := complete (.bytes (encodeGate v)) s

/-- DEC_GATE (R137). -/
def execDecGate (b : List Byte) (s : State) : Host.Outcome State Fault Refusal :=
  typed (b.length == 8) s (complete (.gate (decodeGate b)) s)

/-- ENC_GATE64 (R139). -/
def execEncGate64 (v : GateFields 64) (s : State) : Host.Outcome State Fault Refusal :=
  complete (.bytes (encodeGate64 v)) s

/-- DEC_GATE64 (R140). -/
def execDecGate64 (b : List Byte) (s : State) : Host.Outcome State Fault Refusal :=
  typed (b.length == 16) s (complete (.gate64 (decodeGate64 b)) s)

/-- ENC_TASKGATE (R141). -/
def execEncTaskGate (v : TaskGateFields) (s : State) : Host.Outcome State Fault Refusal :=
  complete (.bytes (encodeTaskGate v)) s

/-- DEC_TASKGATE (R142). -/
def execDecTaskGate (b : List Byte) (s : State) : Host.Outcome State Fault Refusal :=
  typed (b.length == 8) s (complete (.taskGate (decodeTaskGate b)) s)

/-- ENC_TSS32 (R143). -/
def execEncTss32 (v : Tss32Fields) (s : State) : Host.Outcome State Fault Refusal := complete (.bytes (encodeTss32 v)) s

/-- DEC_TSS32 (R144). -/
def execDecTss32 (b : List Byte) (s : State) : Host.Outcome State Fault Refusal :=
  typed (b.length == 104) s (complete (.tss32 (decodeTss32 b)) s)

/-- ENC_TSS64 (R145). -/
def execEncTss64 (v : Tss64Fields) (s : State) : Host.Outcome State Fault Refusal := complete (.bytes (encodeTss64 v)) s

/-- DEC_TSS64 (R146). -/
def execDecTss64 (b : List Byte) (s : State) : Host.Outcome State Fault Refusal :=
  typed (b.length == 104) s (complete (.tss64 (decodeTss64 b)) s)

end Sys2Proof.Machine
end

