-- ==== Sys2Proof/Machine/PageTables.lean ====
section
/-! DEFINITION. Page-table entry formats (30_encoding.md R85 to R89), their ten commands (43_pte_encoders_and_walk.md R161 to
R171), table-address computation (R175, R176) and the page walks (R180 to R184). -/

namespace Sys2Proof.Machine

/-! Entry formats. -/

/-- The 32-bit number ENC_PDE32 builds (R161). -/
def pde32Word (v : Pde32Fields) : BitVec 32 :=
  v.pfn ++ v.avl ++ v.g ++ v.ps ++ v.d ++ v.a ++ v.pcd ++ v.pwt ++ v.us ++ v.rw ++ v.p

/-- ENC_PDE32's four bytes (R161). -/
def encodePde32 (v : Pde32Fields) : List Byte := leBits 4 (pde32Word v)

/-- The fields DEC_PDE32 reads (R162). -/
def pde32OfWord (e : BitVec 32) : Pde32Fields :=
  { p := e.extractLsb 0 0
    rw := e.extractLsb 1 1
    us := e.extractLsb 2 2
    pwt := e.extractLsb 3 3
    pcd := e.extractLsb 4 4
    a := e.extractLsb 5 5
    d := e.extractLsb 6 6
    ps := e.extractLsb 7 7
    g := e.extractLsb 8 8
    avl := e.extractLsb 11 9
    pfn := e.extractLsb 31 12 }

/-- DEC_PDE32's fields (R162). -/
def decodePde32 (b : List Byte) : Pde32Fields := pde32OfWord (leAt 32 b 0 4)

/-- The number `Entry64` builds (R163): the layout the four 8-byte entries share (R86), `b7` being bit 7. -/
def entry64Word (p rw us pwt pcd a d b7 g : BitVec 1) (avl : BitVec 3) (pfn : BitVec 40) (avlHi : BitVec 11)
    (nx : BitVec 1) : BitVec 64 :=
  nx ++ avlHi ++ pfn ++ avl ++ g ++ b7 ++ d ++ a ++ pcd ++ pwt ++ us ++ rw ++ p

/-- The 64-bit number of an entry's eight bytes. -/
def entryWord (b : List Byte) : BitVec 64 := leAt 64 b 0 8

/-- ENC_PML4E's eight bytes: bit 7 is reserved and written 0 (R163, R87). -/
def encodePml4e (v : Pml4eFields) : List Byte :=
  leBits 8 (entry64Word v.p v.rw v.us v.pwt v.pcd v.a v.d 0#1 v.g v.avl v.pfn v.avlHi v.nx)

/-- DEC_PML4E's fields; bit 7 is ignored (R164). -/
def decodePml4e (b : List Byte) : Pml4eFields :=
  let e := entryWord b
  { p := e.extractLsb 0 0
    rw := e.extractLsb 1 1
    us := e.extractLsb 2 2
    pwt := e.extractLsb 3 3
    pcd := e.extractLsb 4 4
    a := e.extractLsb 5 5
    d := e.extractLsb 6 6
    g := e.extractLsb 8 8
    avl := e.extractLsb 11 9
    pfn := e.extractLsb 51 12
    avlHi := e.extractLsb 62 52
    nx := e.extractLsb 63 63 }

/-- The eight bytes of a second- or third-level entry, `b7 = ps` (R165, R167). -/
def encodeDirEntry (v : DirEntryFields) : List Byte :=
  leBits 8 (entry64Word v.p v.rw v.us v.pwt v.pcd v.a v.d v.ps v.g v.avl v.pfn v.avlHi v.nx)

/-- The fields of a second- or third-level entry, `ps = e[7]` (R166, R168). -/
def decodeDirEntry (b : List Byte) : DirEntryFields :=
  let e := entryWord b
  { p := e.extractLsb 0 0
    rw := e.extractLsb 1 1
    us := e.extractLsb 2 2
    pwt := e.extractLsb 3 3
    pcd := e.extractLsb 4 4
    a := e.extractLsb 5 5
    d := e.extractLsb 6 6
    ps := e.extractLsb 7 7
    g := e.extractLsb 8 8
    avl := e.extractLsb 11 9
    pfn := e.extractLsb 51 12
    avlHi := e.extractLsb 62 52
    nx := e.extractLsb 63 63 }

/-- ENC_PDPTE's eight bytes (R165). -/
def encodePdpte (v : DirEntryFields) : List Byte := encodeDirEntry v

/-- DEC_PDPTE's fields (R166). -/
def decodePdpte (b : List Byte) : DirEntryFields := decodeDirEntry b

/-- ENC_PDE64's eight bytes (R167). -/
def encodePde64 (v : DirEntryFields) : List Byte := encodeDirEntry v

/-- DEC_PDE64's fields (R168). -/
def decodePde64 (b : List Byte) : DirEntryFields := decodeDirEntry b

/-- ENC_PTE64's eight bytes, `b7 = pat` (R169). -/
def encodePte64 (v : Pte64Fields) : List Byte :=
  leBits 8 (entry64Word v.p v.rw v.us v.pwt v.pcd v.a v.d v.pat v.g v.avl v.pfn v.avlHi v.nx)

/-- DEC_PTE64's fields, `pat = e[7]` (R170). -/
def decodePte64 (b : List Byte) : Pte64Fields :=
  let e := entryWord b
  { p := e.extractLsb 0 0
    rw := e.extractLsb 1 1
    us := e.extractLsb 2 2
    pwt := e.extractLsb 3 3
    pcd := e.extractLsb 4 4
    a := e.extractLsb 5 5
    d := e.extractLsb 6 6
    pat := e.extractLsb 7 7
    g := e.extractLsb 8 8
    avl := e.extractLsb 11 9
    pfn := e.extractLsb 51 12
    avlHi := e.extractLsb 62 52
    nx := e.extractLsb 63 63 }

/-! Address functions (R175), on natural numbers. -/

/-- `DescAddr(table_base, selector)` (R175 (a)). -/
def descAddr (tableBase : Nat) (selector : BitVec 16) : Nat := tableBase + (selector &&& 0xFFF8#16).toNat

/-- `TableAddr(pfn)` (R175 (b)). -/
def tableAddr {w : Nat} (pfn : BitVec w) : Nat := pfn.toNat * 4096

/-- `Pfn(addr)` (R175 (b)). -/
def pfnOf (addr : Nat) : Nat := addr / 4096

/-- `Root32(cr3)`: `cr3[31:12] << 12` (R175 (d)). -/
def root32 (cr3 : BitVec 64) : Nat := tableAddr (cr3.extractLsb 31 12)

/-- `Root64(cr3)`: `cr3[51:12] << 12` (R175 (d), R183). DESIGN CHOICE, unsafe: 10_state.md R29 says `cr3[63:12]`; the model
follows R183, the rule R29 itself names for the walk (notes/assumptions/16.md). -/
def root64 (cr3 : BitVec 64) : Nat := tableAddr (cr3.extractLsb 51 12)

/-- The address of a legacy directory entry (R175 (d)). -/
def pde32Addr (cr3 : BitVec 64) (va : BitVec 32) : Nat := root32 cr3 + 4 * (va.extractLsb 31 22).toNat

/-- The address of a long-mode top-level entry (R175 (d)). -/
def pml4eAddr (cr3 va : BitVec 64) : Nat := root64 cr3 + 8 * (va.extractLsb 47 39).toNat

/-- The address of a second-level entry (R175 (d)). -/
def pdpteAddr (pfn : BitVec 40) (va : BitVec 64) : Nat := tableAddr pfn + 8 * (va.extractLsb 38 30).toNat

/-- The address of a third-level entry (R175 (d)). -/
def pde64Addr (pfn : BitVec 40) (va : BitVec 64) : Nat := tableAddr pfn + 8 * (va.extractLsb 29 21).toNat

/-- The address of a fourth-level entry (R175 (d)). -/
def pte64Addr (pfn : BitVec 40) (va : BitVec 64) : Nat := tableAddr pfn + 8 * (va.extractLsb 20 12).toNat

/-! Walks: presence only, no permission check, no page fault; `OutOfBounds` from an entry read is the only failure (R180). -/

/-- What WALK32 answers for the directory entry it read (R181). DESIGN CHOICE, unsafe: 30_encoding.md R85 says that the walk
requires nothing of the low ten bits of a large page's frame number; the model follows R181 and R180, by which `unsupported`
is answered where one of them is set (notes/assumptions/17.md). -/
def walk32Entry (pse : Bool) (va : BitVec 32) (e : Pde32Fields) : WalkResult :=
  if e.p = 0 then .notPresent .pd32
  else if e.ps = 0 then .unsupported .pd32
  else if pse = false then .unsupported .pd32
  else if e.pfn.extractLsb 9 0 ≠ 0 then .unsupported .pd32
  else .mapped (e.pfn.extractLsb 19 10 ++ va.extractLsb 21 0).toNat .size4M

/-- WALK32's body (R181). -/
def walk32 (va : BitVec 32) (s : State) : Attempt WalkResult :=
  (memRead (pde32Addr s.regs.cr3 va) 4 s).andThen fun b s =>
    .done (walk32Entry (s.regs.fieldGet (.cr4 .pse) == 1) va (decodePde32 b)) s

/-- A linear address is canonical when bits 63 to 47 are all equal: `va[63:48] = sext_16(va[47])` (R182). -/
def canonical (va : BitVec 64) : Bool := va.extractLsb 63 48 == (va.extractLsb 47 47).signExtend 16

/-- The fourth level of WALK64 (R183). -/
def walkPt (va : BitVec 64) (pfn : BitVec 40) (s : State) : Attempt WalkResult :=
  (memRead (pte64Addr pfn va) 8 s).andThen fun b s =>
    let e := decodePte64 b
    if e.p = 0 then .done (.notPresent .pt) s
    else .done (.mapped (e.pfn ++ va.extractLsb 11 0).toNat .size4K) s

/-- The third level of WALK64 (R183). -/
def walkPd (va : BitVec 64) (pfn : BitVec 40) (s : State) : Attempt WalkResult :=
  (memRead (pde64Addr pfn va) 8 s).andThen fun b s =>
    let e := decodePde64 b
    if e.p = 0 then .done (.notPresent .pd) s
    else if e.ps = 1 then
      if e.pfn.extractLsb 8 0 ≠ 0 then .done (.unsupported .pd) s
      else .done (.mapped (e.pfn.extractLsb 39 9 ++ va.extractLsb 20 0).toNat .size2M) s
    else walkPt va e.pfn s

/-- The second level of WALK64 (R183). -/
def walkPdpt (va : BitVec 64) (pfn : BitVec 40) (s : State) : Attempt WalkResult :=
  (memRead (pdpteAddr pfn va) 8 s).andThen fun b s =>
    let e := decodePdpte b
    if e.p = 0 then .done (.notPresent .pdpt) s
    else if e.ps = 1 then
      if e.pfn.extractLsb 17 0 ≠ 0 then .done (.unsupported .pdpt) s
      else .done (.mapped (e.pfn.extractLsb 39 18 ++ va.extractLsb 29 0).toNat .size1G) s
    else walkPd va e.pfn s

/-- WALK64's body (R183). -/
def walk64 (va : BitVec 64) (s : State) : Attempt WalkResult :=
  if canonical va = false then .done .nonCanonical s
  else
    (memRead (pml4eAddr s.regs.cr3 va) 8 s).andThen fun b s =>
      let e := decodePml4e b
      if e.p = 0 then .done (.notPresent .pml4) s
      else if (entryWord b).extractLsb 7 7 = 1 then .done (.unsupported .pml4) s
      else walkPdpt va e.pfn s

/-! The commands. -/

/-- ENC_PDE32 (R161). -/
def execEncPde32 (v : Pde32Fields) (s : State) : Host.Outcome State Fault Refusal := complete (.bytes (encodePde32 v)) s

/-- DEC_PDE32 (R162). -/
def execDecPde32 (b : List Byte) (s : State) : Host.Outcome State Fault Refusal :=
  typed (b.length == 4) s (complete (.pde32 (decodePde32 b)) s)

/-- ENC_PML4E (R163). -/
def execEncPml4e (v : Pml4eFields) (s : State) : Host.Outcome State Fault Refusal := complete (.bytes (encodePml4e v)) s

/-- DEC_PML4E (R164). -/
def execDecPml4e (b : List Byte) (s : State) : Host.Outcome State Fault Refusal :=
  typed (b.length == 8) s (complete (.pml4e (decodePml4e b)) s)

/-- ENC_PDPTE (R165). -/
def execEncPdpte (v : DirEntryFields) (s : State) : Host.Outcome State Fault Refusal :=
  complete (.bytes (encodePdpte v)) s

/-- DEC_PDPTE (R166). -/
def execDecPdpte (b : List Byte) (s : State) : Host.Outcome State Fault Refusal :=
  typed (b.length == 8) s (complete (.dirEntry (decodePdpte b)) s)

/-- ENC_PDE64 (R167). -/
def execEncPde64 (v : DirEntryFields) (s : State) : Host.Outcome State Fault Refusal :=
  complete (.bytes (encodePde64 v)) s

/-- DEC_PDE64 (R168). -/
def execDecPde64 (b : List Byte) (s : State) : Host.Outcome State Fault Refusal :=
  typed (b.length == 8) s (complete (.dirEntry (decodePde64 b)) s)

/-- ENC_PTE64 (R169). -/
def execEncPte64 (v : Pte64Fields) (s : State) : Host.Outcome State Fault Refusal := complete (.bytes (encodePte64 v)) s

/-- DEC_PTE64 (R170). -/
def execDecPte64 (b : List Byte) (s : State) : Host.Outcome State Fault Refusal :=
  typed (b.length == 8) s (complete (.pte64 (decodePte64 b)) s)

/-- DESC_ADDR (R176): no check at all. -/
def execDescAddr (selector : BitVec 16) (s : State) : Host.Outcome State Fault Refusal :=
  stateCommand s fun s => .done (.addr (descAddr (s.regs.getTable .gdtr).base.toNat selector)) s

/-- WALK32 (R181). -/
def execWalk32 (va : BitVec 32) (s : State) : Host.Outcome State Fault Refusal :=
  stateCommand s fun s => (walk32 va s).andThen fun w s => .done (.walk w) s

/-- WALK64 (R183). -/
def execWalk64 (va : BitVec 64) (s : State) : Host.Outcome State Fault Refusal :=
  stateCommand s fun s => (walk64 va s).andThen fun w s => .done (.walk w) s

end Sys2Proof.Machine
end

