-- ==== Sys2Proof/Machine/Loader.lean ====
section
/-! DEFINITION. The segment loader LOAD_SEG (44_segment_loader.md R190 to R202). -/

namespace Sys2Proof.Machine

/-- The type nibble of a call gate (R195). -/
def callGateType : BitVec 4 := 0b1100

/-- The system types the loader accepts: call gate, busy and available task-state segment (R195). -/
def systemTypeAccepted (t : BitVec 4) : Bool := t == callGateType || t == 0b1011 || t == 0b1001

/-- The cached limit: scaled by 4096 plus 4095 when the granularity bit is set, else raw (R197). -/
def cacheLimit (g : BitVec 1) (raw : BitVec 20) : BitVec 32 :=
  if g = 1 then BitVec.ofNat 32 (raw.toNat * 4096 + 4095) else raw.setWidth 32

/-- The cache a descriptor's fields populate (R198), its reserved bits 0 (10_state.md R25). -/
def descriptorCache (selector : BitVec 16) (f : SegFields 64) : SegCache :=
  { base := f.base, limit := cacheLimit f.g f.limit, selector := selector, type := f.type, s := f.s, dpl := f.dpl, p := f.p
    rsvd := 0, avl := f.avl, l := f.l, db := f.db, g := f.g }

/-- `CallGateCache` (R200): the six fields a gate does not have are free values, drawn afresh. -/
def callGateCache (selector : BitVec 16) (d : BitVec 64) (draw : Nat) : SegCache :=
  { base := Config.freeBase draw, limit := Config.freeLimit draw, selector := selector, type := callGateType, s := 0
    dpl := descDpl d, p := descP d, rsvd := 0
    avl := Config.freeAvl draw, l := Config.freeL draw, db := Config.freeDb draw, g := Config.freeG draw }

/-- A segment cache register loaded from a descriptor's fields (R198). -/
def loadDescriptor (sreg : Sreg) (selector : BitVec 16) (f : SegFields 64) (s : State) : Attempt Unit :=
  .done () (s.setRegs (s.regs.loadCache sreg (descriptorCache selector f)))

/-- A segment cache register loaded from a call gate (R200). -/
def loadCallGate (sreg : Sreg) (selector : BitVec 16) (d : BitVec 64) (s : State) : Attempt Unit :=
  .done () ((s.setRegs (s.regs.loadCache sreg (callGateCache selector d s.draws))).countDraw)

/-- An 8-byte descriptor's fields with the base zero-extended to the cache's 64 bits (R190). -/
def widenBase (f : SegFields 32) : SegFields 64 := segWithBase f (f.base.setWidth 64)

/-- The system path of step 4: in long mode the descriptor is re-read as 16 bytes at the same address (R196). -/
def loadSystem (sreg : Sreg) (selector : BitVec 16) (a : Nat) (b : List Byte) (s : State) : Attempt Unit :=
  let width : Attempt (SegFields 64) :=
    if s.regs.longMode then (memRead a 16 s).andThen fun b16 s => .done (decodeSeg64 b16) s
    else .done (widenBase (decodeSeg b)) s
  width.andThen fun f s =>
    if descType (word64 b) = callGateType then loadCallGate sreg selector (word64 b) s
    else loadDescriptor sreg selector f s

/-- LOAD_SEG's body (R190); the checks in the order of R193. -/
def loadSeg (sreg : Sreg) (selector : BitVec 16) (s : State) : Attempt Unit :=
  (assertThat (selector.extractLsb 2 2 == 0) .unsupportedFeature s).andThen fun _ s =>
  (assertThat (!decide (selector.toNat + 7 > (s.regs.getTable .gdtr).limit.toNat)) .outOfBounds s).andThen fun _ s =>
  let a := descAddr (s.regs.getTable .gdtr).base.toNat selector
  (memRead a 8 s).andThen fun b s =>
  if descS (word64 b) = 1 then loadDescriptor sreg selector (widenBase (decodeSeg b)) s
  else
    (assertThat (systemTypeAccepted (descType (word64 b))) .unsupportedFeature s).andThen fun _ s =>
    loadSystem sreg selector a b s

/-- LOAD_SEG (R190). -/
def execLoadSeg (sreg : Sreg) (selector : BitVec 16) (s : State) : Host.Outcome State Fault Refusal :=
  stateCommand s fun s => (loadSeg sreg selector s).andThen fun _ s => .done .nothing s

end Sys2Proof.Machine
end

