-- ==== Sys2Proof/Machine/Setup.lean ====
section
/-! DEFINITION. The four mode setups (45_mode_setup.md R210 to R230). -/

namespace Sys2Proof.Machine

/-! SETUP_REAL. -/

/-- `FLAT16` (R211). -/
def flat16 : SegCache :=
  { base := 0, limit := 0xFFFF, selector := 0, type := 0x3, s := 1, dpl := 0, p := 1, rsvd := 0, avl := 0, l := 0, db := 0
    g := 0 }

/-- A segment cache register as SETUP_REAL leaves it: FLAT16 if it is written, attribute word `0x0093` (R211), else unchanged. -/
def Regs.realSeg (written : Bool) (r : Regs) (n : Sreg) : Regs := if written then r.loadCache n flat16 else r

/-- The segment caches of SETUP_REAL: the six, and `ldtr` and `tr` if REAL_SETS_SYSTEM_SEGS (R210). -/
def Regs.realSegs (system : Bool) (r : Regs) : Regs :=
  [Sreg.ldtr, .tr].foldl (Regs.realSeg system) ([Sreg.es, .cs, .ss, .ds, .fs, .gs].foldl (Regs.realSeg true) r)

/-- SETUP_REAL's body (R210). -/
def setupReal (s : State) : Attempt Unit :=
  (assertThat (!s.regs.longMode) .preconditionViolation s).andThen fun _ s =>
  .done () (s.setRegs ((s.regs.realSegs s.cfg.realSetsSystemSegs).fieldSet (.cr0 .pe) 0))

/-- SETUP_REAL (R210). -/
def execSetupReal (s : State) : Host.Outcome State Fault Refusal :=
  stateCommand s fun s => (setupReal s).andThen fun _ s => .done .nothing s

/-! SETUP_GDT. -/

/-- A flat code or data segment of the canonical table (R215). -/
def flatSegment (type : BitVec 4) (dpl : BitVec 2) (l db : BitVec 1) : SegFields 32 :=
  { base := 0, limit := 0xFFFFF, type := type, s := 1, dpl := dpl, p := 1, avl := 0, l := l, db := db, g := 1 }

/-- The task-state-segment descriptor of the canonical table (R215): base `tss`, raw limit 103, busy. -/
def tssDescriptor {w : Nat} (tss : BitVec w) : SegFields w :=
  { base := tss, limit := 103, type := 0xB, s := 0, dpl := 0, p := 1, avl := 0, l := 0, db := 0, g := 0 }

/-- `GdtImage(long, tss)` (R215): the six entries, 48 bytes, or 56 in long mode. -/
def gdtImage (long : Bool) (tss : Nat) : List Byte :=
  let l : BitVec 1 := if long then 1 else 0
  let db : BitVec 1 := if long then 0 else 1
  zeroBytes 8 ++ encodeSeg (flatSegment 0xB 0 l db) ++ encodeSeg (flatSegment 0xB 3 l db) ++
    encodeSeg (flatSegment 0x3 0 0 1) ++ encodeSeg (flatSegment 0x3 3 0 1) ++
    (if long then encodeSeg64 (tssDescriptor (BitVec.ofNat 64 tss)) else encodeSeg (tssDescriptor (BitVec.ofNat 32 tss)))

/-- A table pointer register installed over a table of `n` bytes at `base`: the limit is the offset of the last byte (R27). -/
def State.installTable (s : State) (t : TableReg) (base n : Nat) : State :=
  s.setRegs ((s.regs.fieldSet (.tableBase t) (BitVec.ofNat 64 base)).fieldSet (.tableLimit t) (BitVec.ofNat 64 (n - 1)))

/-- The segment loads of SETUP_GDT, in order (R216). -/
def gdtLoads : List (Sreg × BitVec 16) :=
  [(.cs, 0x0008), (.ss, 0x0018), (.ds, 0x0018), (.es, 0x0018), (.fs, 0x0018), (.gs, 0x0018), (.tr, 0x0028)]

/-- Several loads, one after the other. -/
def loadSegs : List (Sreg × BitVec 16) → State → Attempt Unit
  | [], s => .done () s
  | (n, sel) :: t, s => (loadSeg n sel s).andThen fun _ s => loadSegs t s

/-- SETUP_GDT's body (R214). The offsets must fit the fields that hold them (R214, 60_exceptions.md R241,
notes/assumptions/10.md). -/
def setupGdt (s : State) : Attempt Unit :=
  (assertThat (!s.regs.gdtInstalled) .preconditionViolation s).andThen fun _ s =>
  let long := s.regs.longMode
  (alloc 104 Config.alignTss s).andThen fun tss s =>
  (assertThat (decide (tss < if long then 2 ^ 64 else 2 ^ 32)) .outOfBounds s).andThen fun _ s =>
  let table := gdtImage long tss
  (alloc table.length Config.alignGdt s).andThen fun gdt s =>
  (assertThat (decide (gdt < 2 ^ 64)) .outOfBounds s).andThen fun _ s =>
  (memWrite gdt table s).andThen fun _ s =>
  let s := s.installTable .gdtr gdt table.length
  loadSegs gdtLoads (s.setRegs (s.regs.fieldSet (.cr0 .pe) 1))

/-- SETUP_GDT (R214). -/
def execSetupGdt (s : State) : Host.Outcome State Fault Refusal :=
  stateCommand s fun s => (setupGdt s).andThen fun _ s => .done .nothing s

/-! SETUP_IDT. -/

/-- SETUP_IDT's body (R222): every check precedes every write (60_exceptions.md R243, notes/assumptions/10.md). -/
def setupIdt (descriptors : List (List Byte)) (s : State) : Attempt Unit :=
  let blob := descriptors.flatten
  let n := blob.length
  (assertThat (decide (1 ≤ n) && decide (n ≤ 65536)) .preconditionViolation s).andThen fun _ s =>
  (assertThat (decide (alignUp s.mem.len Config.alignIdt < 2 ^ 64)) .outOfBounds s).andThen fun _ s =>
  (alloc n Config.alignIdt s).andThen fun idt s =>
  (memWrite idt blob s).andThen fun _ s =>
  .done () (s.installTable .idtr idt n)

/-- SETUP_IDT (R222). An element that is not 8 or 16 bytes long is not an operand (30_encoding.md R74 (b)). -/
def execSetupIdt (descriptors : List (List Byte)) (s : State) : Host.Outcome State Fault Refusal :=
  typed (descriptors.all descriptorLengthOk) s <|
    stateCommand s fun s => (setupIdt descriptors s).andThen fun _ s => .done .nothing s

/-! SETUP_PAGING. -/

/-- Entry `i` of the legacy directory (R227). -/
def legacyEntry (i : Nat) : Pde32Fields :=
  { p := 1, rw := 1, us := 1, pwt := 0, pcd := 0, a := 0, d := 0, ps := 1, g := 0, avl := 0, pfn := BitVec.ofNat 20 (i * 1024) }

/-- The legacy directory: 1024 entries of 4 bytes. The 1024 writes of R227 cover it, in order, and are made as one
(notes/assumptions/12.md). -/
def legacyDirectory : List Byte := (List.range 1024).flatMap fun i => encodePde32 (legacyEntry i)

/-- `BuildLegacy()` (R227); a legacy table must lie below `2^32` (20_memory.md R58 (e)). -/
def buildLegacy (s : State) : Attempt Nat :=
  (alloc 4096 Config.alignPt s).andThen fun pd s =>
  (assertThat (decide (pd < 2 ^ 32)) .outOfBounds s).andThen fun _ s =>
  (memWrite pd legacyDirectory s).andThen fun _ s =>
  .done pd s

/-- The one entry of the top-level table (R228). -/
def topEntry (pdpt : Nat) : Pml4eFields :=
  { p := 1, rw := 1, us := 1, pwt := 0, pcd := 0, a := 0, d := 0, g := 0, avl := 0, pfn := BitVec.ofNat 40 (pfnOf pdpt)
    avlHi := 0, nx := 0 }

/-- Entry `i` of the second-level table (R228). -/
def longEntry (i : Nat) : DirEntryFields :=
  { p := 1, rw := 1, us := 1, pwt := 0, pcd := 0, a := 0, d := 0, ps := 1, g := 0, avl := 0
    pfn := BitVec.ofNat 40 (i * 262144), avlHi := 0, nx := 0 }

/-- The second-level table: 512 entries of 8 bytes, made as one write (notes/assumptions/12.md). -/
def longDirectory : List Byte := (List.range 512).flatMap fun i => encodePdpte (longEntry i)

/-- `BuildLong()` (R228); a long-mode table must lie below `2^52` (20_memory.md R58 (e), notes/assumptions/11.md). -/
def buildLong (s : State) : Attempt Nat :=
  (alloc 4096 Config.alignPt s).andThen fun pml4 s =>
  (alloc 4096 Config.alignPt s).andThen fun pdpt s =>
  (assertThat (decide (pml4 < 2 ^ 52) && decide (pdpt < 2 ^ 52)) .outOfBounds s).andThen fun _ s =>
  (memWrite pml4 (encodePml4e (topEntry pdpt)) s).andThen fun _ s =>
  (memWrite pdpt longDirectory s).andThen fun _ s =>
  .done pml4 s

/-- The tables of SETUP_PAGING, by mode, with `cr4.pae` in long mode (R226). -/
def buildTables (s : State) : Attempt Nat :=
  if s.regs.longMode then
    (buildLong s).andThen fun root s => .done root (s.setRegs (s.regs.fieldSet (.cr4 .pae) 1))
  else buildLegacy s

/-- SETUP_PAGING's body (R226). -/
def setupPaging (s : State) : Attempt Unit :=
  (assertThat (!s.regs.pagingEnabled) .preconditionViolation s).andThen fun _ s =>
  (buildTables s).andThen fun root s =>
  .done () (s.setRegs (((s.regs.fieldSet (.scalar .cr3) (BitVec.ofNat 64 root)).fieldSet (.cr4 .pse) 1).fieldSet (.cr0 .pg) 1))

/-- SETUP_PAGING (R226). -/
def execSetupPaging (s : State) : Host.Outcome State Fault Refusal :=
  stateCommand s fun s => (setupPaging s).andThen fun _ s => .done .nothing s

end Sys2Proof.Machine
end

