-- ==== Sys2Proof/Machine/Dispatch.lean ====
section
/-! DEFINITION. One arm per command: the meaning of each. -/

namespace Sys2Proof.Machine

def exec (i : Instr) (s : State) : Host.Outcome State Fault Refusal :=
  match i with
  | .construct arch => Sys2Proof.Machine.execConstruct arch s
  | .alloc size alignment => Sys2Proof.Machine.execAlloc size alignment s
  | .mwrite addr bytes => Sys2Proof.Machine.execMwrite addr bytes s
  | .mread addr size => Sys2Proof.Machine.execMread addr size s
  | .rget field => Sys2Proof.Machine.execRget field s
  | .rset field value => Sys2Proof.Machine.execRset field value s
  | .raw => Sys2Proof.Machine.execRaw s
  | .loadimg image => Sys2Proof.Machine.execLoadimg image s
  | .loadSeg sreg selector => Sys2Proof.Machine.execLoadSeg sreg selector s
  | .setupReal => Sys2Proof.Machine.execSetupReal s
  | .setupGdt => Sys2Proof.Machine.execSetupGdt s
  | .setupIdt descriptors => Sys2Proof.Machine.execSetupIdt descriptors s
  | .setupPaging => Sys2Proof.Machine.execSetupPaging s
  | .descAddr selector => Sys2Proof.Machine.execDescAddr selector s
  | .walk32 va => Sys2Proof.Machine.execWalk32 va s
  | .walk64 va => Sys2Proof.Machine.execWalk64 va s
  | .encSeg v => Sys2Proof.Machine.execEncSeg v s
  | .decSeg bytes => Sys2Proof.Machine.execDecSeg bytes s
  | .encSeg64 v => Sys2Proof.Machine.execEncSeg64 v s
  | .decSeg64 bytes => Sys2Proof.Machine.execDecSeg64 bytes s
  | .encGate v => Sys2Proof.Machine.execEncGate v s
  | .decGate bytes => Sys2Proof.Machine.execDecGate bytes s
  | .encGate64 v => Sys2Proof.Machine.execEncGate64 v s
  | .decGate64 bytes => Sys2Proof.Machine.execDecGate64 bytes s
  | .encTaskGate v => Sys2Proof.Machine.execEncTaskGate v s
  | .decTaskGate bytes => Sys2Proof.Machine.execDecTaskGate bytes s
  | .encTss32 v => Sys2Proof.Machine.execEncTss32 v s
  | .decTss32 bytes => Sys2Proof.Machine.execDecTss32 bytes s
  | .encTss64 v => Sys2Proof.Machine.execEncTss64 v s
  | .decTss64 bytes => Sys2Proof.Machine.execDecTss64 bytes s
  | .encPde32 v => Sys2Proof.Machine.execEncPde32 v s
  | .decPde32 bytes => Sys2Proof.Machine.execDecPde32 bytes s
  | .encPml4e v => Sys2Proof.Machine.execEncPml4e v s
  | .decPml4e bytes => Sys2Proof.Machine.execDecPml4e bytes s
  | .encPdpte v => Sys2Proof.Machine.execEncPdpte v s
  | .decPdpte bytes => Sys2Proof.Machine.execDecPdpte bytes s
  | .encPde64 v => Sys2Proof.Machine.execEncPde64 v s
  | .decPde64 bytes => Sys2Proof.Machine.execDecPde64 bytes s
  | .encPte64 v => Sys2Proof.Machine.execEncPte64 v s
  | .decPte64 bytes => Sys2Proof.Machine.execDecPte64 bytes s

end Sys2Proof.Machine
end

