-- ==== Sys2Proof/Machine/Step.lean ====
section
/-! DEFINITION. One step: the block takes the oldest command issued on its port, decodes it and performs it (10_state.md R21,
30_encoding.md R70). What is not a command is answered IllegalCommand, before the latch is looked at (R74, 60_exceptions.md
R248). With nothing issued the block waits. -/

namespace Sys2Proof.Machine

def step (s : State) : Host.Outcome State Fault Refusal :=
  match s.takeFrame with
  | none => idle s
  | some (frame, s') =>
    match decodeFrame frame with
    | none => illegal s'
    | some i => exec i s'

/-- The command of a table word issued as the next one the block performs (notes/assumptions/6.md). -/
def State.withFetchWord (s : State) (nbits w : Nat) : State := s.setPort (tableFrame nbits w :: s.port)

end Sys2Proof.Machine
end

