-- ==== Sys2Proof/Safety.lean ====
section
/-! DEFINITION. What counts as a safe run (70_reset_and_hazards.md R272), the invariants of R264 and 10_state.md R34, and the
named modes of the constructed state (60_exceptions.md R251), in the terms the statements use. -/

namespace Sys2Proof

/-! The classes of commands of 60_exceptions.md R244. -/

/-- The state commands: the fourteen that are refused while the latch is set (R244). -/
def Op.isState : Op → Bool
  | .alloc | .mwrite | .mread | .rget | .rset | .raw | .loadSeg | .setupReal | .setupGdt | .setupIdt | .setupPaging
  | .descAddr | .walk32 | .walk64 => true
  | .construct | .loadimg | .encSeg | .decSeg | .encSeg64 | .decSeg64 | .encGate | .decGate | .encGate64 | .decGate64
  | .encTaskGate | .decTaskGate | .encTss32 | .decTss32 | .encTss64 | .decTss64 | .encPde32 | .decPde32 | .encPml4e
  | .decPml4e | .encPdpte | .decPdpte | .encPde64 | .decPde64 | .encPte64 | .decPte64 => false

/-- The two commands that replace the whole state (R244). -/
def Op.startsOver : Op → Bool
  | .construct | .loadimg => true
  | .alloc | .mwrite | .mread | .rget | .rset | .raw | .loadSeg | .setupReal | .setupGdt | .setupIdt | .setupPaging
  | .descAddr | .walk32 | .walk64 | .encSeg | .decSeg | .encSeg64 | .decSeg64 | .encGate | .decGate | .encGate64
  | .decGate64 | .encTaskGate | .decTaskGate | .encTss32 | .decTss32 | .encTss64 | .decTss64 | .encPde32 | .decPde32
  | .encPml4e | .decPml4e | .encPdpte | .decPdpte | .encPde64 | .decPde64 | .encPte64 | .decPte64 => false

/-- The pure commands: every ENC and DEC command (R244). -/
def Op.isPure (o : Op) : Bool := !o.isState && !o.startsOver

end Sys2Proof

namespace Sys2Proof.Machine

/-- The last command was not answered with a failure, Faulted or IllegalCommand: a run is good when every state of it is
(R272). -/
def State.good (s : State) : Bool :=
  match s.response with
  | none => true
  | some r => r.status == .ok

/-- The bits of a register its named fields cover. -/
def namedMask {α : Type} (fields : List α) (lo width : α → Nat) : BitVec 64 :=
  fields.foldl (fun m f => m ||| bitMask (lo f) (width f)) 0

/-- The bits of `rflags` with no name (R24). -/
def rflagsFixed : BitVec 64 := ~~~ namedMask RflagsField.all RflagsField.lo RflagsField.width

/-- The bits of `cr0` with no name (R28). -/
def cr0Fixed : BitVec 64 := ~~~ namedMask Cr0Field.all Cr0Field.lo fun _ => 1

/-- The bits of `cr4` with no name (R30). -/
def cr4Fixed : BitVec 64 := ~~~ namedMask Cr4Field.all Cr4Field.lo fun _ => 1

/-- The bits of `efer` with no name (R33). -/
def eferFixed : BitVec 64 := ~~~ namedMask EferField.all EferField.lo fun _ => 1

/-- The fixed and reserved bits of the Register File (R34). -/
structure FixedBits where
  rflags : BitVec 64
  cr0 : BitVec 64
  cr4 : BitVec 64
  efer : BitVec 64
  es : BitVec 4
  cs : BitVec 4
  ss : BitVec 4
  ds : BitVec 4
  fs : BitVec 4
  gs : BitVec 4
  ldtr : BitVec 4
  tr : BitVec 4
  gdtr : BitVec 48
  idtr : BitVec 48
deriving DecidableEq, Repr

/-- What the fixed and reserved bits of a Register File hold. -/
def Regs.fixedBits (r : Regs) : FixedBits :=
  { rflags := r.rflags &&& rflagsFixed
    cr0 := r.cr0 &&& cr0Fixed
    cr4 := r.cr4 &&& cr4Fixed
    efer := r.efer &&& eferFixed
    es := r.es.rsvd
    cs := r.cs.rsvd
    ss := r.ss.rsvd
    ds := r.ds.rsvd
    fs := r.fs.rsvd
    gs := r.gs.rsvd
    ldtr := r.ldtr.rsvd
    tr := r.tr.rsvd
    gdtr := r.gdtr.rsvd
    idtr := r.idtr.rsvd }

/-- The fixed and reserved bits outside the segment caches. -/
def FixedBits.outsideCaches (f : FixedBits) : FixedBits :=
  { f with es := 0, cs := 0, ss := 0, ds := 0, fs := 0, gs := 0, ldtr := 0, tr := 0 }

/-- What R24, R28, R30, R33, R25 and R27 fix them to: `rflags` bit 1 is 1, every other one is 0. -/
def FixedBits.spec : FixedBits :=
  { rflags := 2, cr0 := 0, cr4 := 0, efer := 0, es := 0, cs := 0, ss := 0, ds := 0, fs := 0, gs := 0, ldtr := 0, tr := 0
    gdtr := 0, idtr := 0 }

/-- The fixed and reserved bits are as the spec fixes them (R34, the invariant of R264). -/
def Regs.fixedOk (r : Regs) : Bool := r.fixedBits == FixedBits.spec

/-- The table a table pointer register names lies inside the arena (R264). -/
def State.tableInside (s : State) (t : TableReg) : Bool :=
  decide ((s.regs.getTable t).base.toNat + (s.regs.getTable t).limit.toNat < s.mem.len)

/-- The global table ends the arena, so the next allocation of alignment 1 extends it (70_reset_and_hazards.md R265). -/
def State.gdtIsLast (s : State) : Bool :=
  decide (s.regs.gdtr.base.toNat + s.regs.gdtr.limit.toNat + 1 = s.mem.len)

/-- The six segment caches SETUP_REAL always writes are FLAT16 (R251). DESIGN CHOICE, unsafe: R251 does not say which caches it
means, nor whether the reserved bits `attr[11:8]` count; `ldtr` and `tr` are not looked at, and the whole record is compared,
whose attribute word is 0x0093 (45_mode_setup.md R211), so a cache in which a LOADIMG set a reserved bit is not FLAT16; no
command reads this (notes/assumptions/18.md). -/
def Regs.flatCaches (r : Regs) : Bool :=
  [Sreg.es, .cs, .ss, .ds, .fs, .gs].all fun n => r.getSeg n == flat16

/-- The mode names of R251, read off the state; `other` is a state outside HFS's diagram, which nothing prevents
(45_mode_setup.md R230). -/
inductive ModeName
  | fresh | realMode | protectedFlat | pagingLegacy | pagingLong | other
deriving DecidableEq, Repr

/-- The state CONSTRUCT leaves, read off the Register File and the arena. DESIGN CHOICE, unsafe: R251 says both that `fresh` is
the state CONSTRUCT leaves and that modes are read off the Register File; the arena must be empty as well, so that the name is
lost at the first ALLOC of a byte, and the latch and `constructed` are not looked at, so that a latched block, or one before
its first CONSTRUCT, keeps it; no command reads it (notes/assumptions/18.md). -/
def State.isFresh (s : State) : Bool :=
  (s.regs == constructRegs .a32 || s.regs == constructRegs .a64) && s.mem == Memory.empty

/-- The mode of the constructed state (R251): `fresh` as CONSTRUCT leaves it, the paging-enabled modes by `cr0.pg` and
LongMode, `protected-flat` by `cr0.pe` and an installed table, `real-mode` by FLAT16 caches and a clear `cr0.pe`. DESIGN
CHOICE, unsafe: R251 gives the names no precedence, and where several hold the first in this order is answered, so a state
with `cr0.pg` set, `cr0.pe` clear and FLAT16 caches is paging-enabled and not real-mode; no command reads the name
(notes/assumptions/18.md). -/
def State.modeName (s : State) : ModeName :=
  if s.isFresh then .fresh
  else if s.regs.pagingEnabled then (if s.regs.longMode then .pagingLong else .pagingLegacy)
  else if s.regs.protectedMode then (if s.regs.gdtInstalled then .protectedFlat else .other)
  else if s.regs.flatCaches then .realMode else .other

/-! The places of the fields, written out from the tables of 10_state.md. -/

/-- Where a field lies in the wire image: the bits `lo + width - 1` to `lo` of the little-endian number of the `bytes` bytes
at `offset`. -/
structure FieldPlace where
  offset : Nat
  bytes : Nat
  lo : Nat
  width : Nat
deriving DecidableEq, Repr

/-- The image offset of a plain scalar (R31). -/
def scalarOffset : Scalar → Nat
  | .rax => 0x000
  | .rcx => 0x008
  | .rdx => 0x010
  | .rbx => 0x018
  | .rsp => 0x020
  | .rbp => 0x028
  | .rsi => 0x030
  | .rdi => 0x038
  | .r8 => 0x040
  | .r9 => 0x048
  | .r10 => 0x050
  | .r11 => 0x058
  | .r12 => 0x060
  | .r13 => 0x068
  | .r14 => 0x070
  | .r15 => 0x078
  | .rip => 0x080
  | .cr2 => 0x138
  | .cr3 => 0x140
  | .cr8 => 0x150
  | .dr0 => 0x158
  | .dr1 => 0x160
  | .dr2 => 0x168
  | .dr3 => 0x170
  | .dr6 => 0x178
  | .dr7 => 0x180

/-- The image offset of a segment cache register (R31). -/
def sregOffset : Sreg → Nat
  | .es => 0x090
  | .cs => 0x0A0
  | .ss => 0x0B0
  | .ds => 0x0C0
  | .fs => 0x0D0
  | .gs => 0x0E0
  | .ldtr => 0x0F0
  | .tr => 0x100

/-- The image offset of a table pointer register (R31). -/
def tableOffset : TableReg → Nat
  | .gdtr => 0x110
  | .idtr => 0x120

/-- The bit of a field of `rflags` and its width (R24). -/
def rflagsPlace : RflagsField → Nat × Nat
  | .cf => (0, 1)
  | .pf => (2, 1)
  | .af => (4, 1)
  | .zf => (6, 1)
  | .sf => (7, 1)
  | .tf => (8, 1)
  | .if_ => (9, 1)
  | .df => (10, 1)
  | .of_ => (11, 1)
  | .iopl => (12, 2)
  | .nt => (14, 1)
  | .rf => (16, 1)
  | .vm => (17, 1)
  | .ac => (18, 1)
  | .vif => (19, 1)
  | .vip => (20, 1)
  | .id => (21, 1)

/-- The bit of a field of `cr0` (R28). -/
def cr0Place : Cr0Field → Nat
  | .pe => 0
  | .mp => 1
  | .em => 2
  | .ts => 3
  | .et => 4
  | .ne => 5
  | .wp => 16
  | .am => 18
  | .nw => 29
  | .cd => 30
  | .pg => 31

/-- The bit of a field of `cr4` (R30). -/
def cr4Place : Cr4Field → Nat
  | .vme => 0
  | .pvi => 1
  | .tsd => 2
  | .de => 3
  | .pse => 4
  | .pae => 5
  | .mce => 6
  | .pge => 7
  | .pce => 8
  | .osfxsr => 9
  | .osxmmexcpt => 10
  | .umip => 11
  | .la57 => 12
  | .vmxe => 13
  | .smxe => 14
  | .fsgsbase => 16
  | .pcide => 17
  | .osxsave => 18
  | .smep => 20
  | .smap => 21
  | .pke => 22

/-- The bit of a field of `efer` (R33). -/
def eferPlace : EferField → Nat
  | .sce => 0
  | .lme => 8
  | .lma => 10
  | .nxe => 11

/-- The place of a component in a segment cache record at `o` (R25). -/
def compPlace (o : Nat) : SegComp → FieldPlace
  | .base => ⟨o, 8, 0, 64⟩
  | .limit => ⟨o + 8, 4, 0, 32⟩
  | .selector => ⟨o + 12, 2, 0, 16⟩
  | .type => ⟨o + 14, 2, 0, 4⟩
  | .s => ⟨o + 14, 2, 4, 1⟩
  | .dpl => ⟨o + 14, 2, 5, 2⟩
  | .p => ⟨o + 14, 2, 7, 1⟩
  | .avl => ⟨o + 14, 2, 12, 1⟩
  | .l => ⟨o + 14, 2, 13, 1⟩
  | .db => ⟨o + 14, 2, 14, 1⟩
  | .g => ⟨o + 14, 2, 15, 1⟩

/-- The place of an addressable field in the wire image (R31, R24, R25, R27, R28, R30, R33). -/
def fieldPlace : Field → FieldPlace
  | .scalar n => ⟨scalarOffset n, 8, 0, 64⟩
  | .rflags f => ⟨0x088, 8, (rflagsPlace f).1, (rflagsPlace f).2⟩
  | .cr0 f => ⟨0x130, 8, cr0Place f, 1⟩
  | .cr4 f => ⟨0x148, 8, cr4Place f, 1⟩
  | .efer f => ⟨0x188, 8, eferPlace f, 1⟩
  | .seg n c => compPlace (sregOffset n) c
  | .tableBase t => ⟨tableOffset t, 8, 0, 64⟩
  | .tableLimit t => ⟨tableOffset t + 8, 2, 0, 16⟩

/-- The state in which a failure of kind `k` leaves a block whose latch was not set and that has written nothing (R243). -/
def State.failedWith (s : State) (k : FailKind) : State :=
  { s with fault := some k, response := some { status := .failed k, result := .nothing } }

end Sys2Proof.Machine
end

