-- ==== Sys2Proof/Certificates/Slice0/Obligations.lean ====
section
/-! DEFINITION. The statements for the provers, each from the rules of spec/ its docstring names. Bits of a number are written
in arithmetic on natural numbers: bits `hi:lo` of `d` are `d / 2^lo % 2^(hi - lo + 1)`. -/

open Sys2Proof Sys2Proof.Machine

/-! The command port (30_encoding.md R70 to R74, 10_state.md R21). -/

/-- Decoding the encoding of a well-formed command gives it back with every operand, as a whole frame and from the front of
a longer sequence. The byte form of the operands is the model's own (notes/assumptions/1.md to 3.md). -/
def Obligations.DecodeOfEncodeIsTheCommand : Prop :=
  ∀ i : Instr, i.wellFormed = true →
    decodeFrame (encode i) = some i ∧ ∀ rest : List Byte, decode (encode i ++ rest) = some (i, rest)

/-- Whatever bytes the decoder accepts, what it reads has operands R72 and R74 (b) allow, and the first byte is the operation
code R71 gives the command. -/
def Obligations.DecodedCommandIsWellTyped : Prop :=
  ∀ (b r : List Byte) (i : Instr), decode b = some (i, r) → i.wellFormed = true ∧ b.head? = some i.op.code

/-- A command has one frame: what the decoder accepts is the encoding of what it reads. ALLOC of alignment 1 alone has a second
frame, the one that omits its alignment (30_encoding.md R91; notes/assumptions/1.md, 3.md: the byte form is the model's own). -/
def Obligations.DecodedBytesAreTheEncoding : Prop :=
  ∀ (b r : List Byte) (i : Instr), decode b = some (i, r) →
    b = encode i ++ r ∨ ∃ size, i = .alloc size 1 ∧ b = Op.alloc.code :: (putNat size ++ 0 :: r)

/-- The operation code map of R71: forty codes, no two alike, and every other byte selects no command (R74 (a)). -/
def Obligations.OperationCodesAreTheTable : Prop :=
  (Op.all.map fun o => o.code.toNat) =
      [0x00, 0x01, 0x02, 0x03, 0x04, 0x05, 0x06, 0x07, 0x10, 0x11, 0x12, 0x13, 0x14, 0x18, 0x19, 0x1A] ++
      [0x20, 0x21, 0x22, 0x23, 0x24, 0x25, 0x26, 0x27, 0x28, 0x29, 0x2A, 0x2B, 0x2C, 0x2D] ++
      [0x30, 0x31, 0x32, 0x33, 0x34, 0x35, 0x36, 0x37, 0x38, 0x39] ∧
  (∀ o o' : Op, o.code = o'.code → o = o') ∧
  ∀ b : Byte, (∀ o : Op, o.code ≠ b) → Op.ofCode b = none

/-- Five frames written out byte by byte: CONSTRUCT(64), LOAD_SEG(tr, 0x0028), RSET(rflags.if_, 1), ENC_TASKGATE(0x28, 5, 0,
1) and DEC_PDE32 of the bytes of 43_pte_encoders_and_walk.md R161's example. -/
def Obligations.SampleFramesDecode : Prop :=
  decodeFrame [0x00, 1] = some (.construct .a64) ∧
  decodeFrame [0x10, 7, 0x28, 0x00] = some (.loadSeg .tr 0x0028) ∧
  decodeFrame [0x05, 32, 1, 0, 0, 0, 0, 0, 0, 0] = some (.rset (.rflags .if_) 1) ∧
  decodeFrame [0x28, 0x28, 0x00, 5, 0, 1] = some (.encTaskGate ⟨0x28, 5, 0, 1⟩) ∧
  decodeFrame [0x31, 0x87, 0x00, 0x40, 0x00] = some (.decPde32 [0x87, 0x00, 0x40, 0x00])

/-- A frame whose operation code is not in R71 is answered IllegalCommand in every state, latched or not, and nothing else
changes (R74 (a), 60_exceptions.md R248). -/
def Obligations.UnassignedOperationIsIllegal : Prop :=
  ∀ (s : State) (b : Byte) (operands : List Byte) (rest : List (List Byte)),
    (∀ o : Op, o.code ≠ b) → s.port = (b :: operands) :: rest →
    step s = .next { s with port := rest, response := some ⟨.illegalCommand, .nothing⟩ }

/-- A command with an operand R74 (b) does not allow is answered IllegalCommand in every state, latched or not, and changes
nothing else. That a value wider than RSET's field is such an operand is the model's reading (notes/assumptions/13.md). -/
def Obligations.IllTypedOperandsAreIllegal : Prop :=
  ∀ (i : Instr) (s : State), i.wellFormed = false →
    exec i s = .next { s with response := some ⟨.illegalCommand, .nothing⟩ }

/-- A step takes the oldest frame off the port and runs the command it decodes to; with nothing issued the block waits (the
wait, the port and its frames are the model's own: notes/assumptions/4.md, 5.md). -/
def Obligations.StepRunsTheDecodedCommand : Prop :=
  (∀ (s : State) (frame : List Byte) (rest : List (List Byte)) (i : Instr),
    s.port = frame :: rest → decodeFrame frame = some i → step s = exec i { s with port := rest }) ∧
  (∀ (s : State) (i : Instr) (rest : List (List Byte)),
    i.wellFormed = true → s.port = encode i :: rest → step s = exec i { s with port := rest }) ∧
  ∀ s : State, s.port = [] → step s = .next s

/-- Every command completes or fails with a status (60_exceptions.md R240): a step never stops the machine, takes exactly one
frame, answers it, and leaves the parameters as they are. -/
def Obligations.EveryStepAnswersOneFrame : Prop :=
  ∀ (s : State) (frame : List Byte) (rest : List (List Byte)), s.port = frame :: rest →
    ∃ t : State, step s = .next t ∧ t.port = rest ∧ t.response.isSome = true ∧ t.cfg = s.cfg

/-! Descriptor encoders and decoders (42_descriptor_encoders.md). -/

/-- ENC_SEG (R131): the number built from the ten operands, in every state, which it leaves alone. -/
def Obligations.EncSegBuildsTheDescriptor : Prop :=
  ∀ (v : SegFields 32) (s : State),
    Op.encSeg.code = 0x20 ∧
    exec (.encSeg v) s = .next (s.respond .ok (.bytes (leBytes 8
      (v.limit.toNat % 2 ^ 16 + v.base.toNat % 2 ^ 16 * 2 ^ 16 + v.base.toNat / 2 ^ 16 % 2 ^ 8 * 2 ^ 32 +
        v.type.toNat * 2 ^ 40 + v.s.toNat * 2 ^ 44 + v.dpl.toNat * 2 ^ 45 + v.p.toNat * 2 ^ 47 +
        v.limit.toNat / 2 ^ 16 * 2 ^ 48 + v.avl.toNat * 2 ^ 52 + v.l.toNat * 2 ^ 53 + v.db.toNat * 2 ^ 54 +
        v.g.toNat * 2 ^ 55 + v.base.toNat / 2 ^ 24 * 2 ^ 56))))

/-- DEC_SEG (R132): each field from its bits of the number, in every state, which it leaves alone; ENC_SEG gives the bytes
back. -/
def Obligations.DecSegReadsTheFields : Prop :=
  ∀ (b : List Byte) (s : State), b.length = 8 →
    ∃ f : SegFields 32,
      Op.decSeg.code = 0x21 ∧
      exec (.decSeg b) s = .next (s.respond .ok (.seg f)) ∧
      f.base.toNat = fromLE b / 2 ^ 16 % 2 ^ 24 + fromLE b / 2 ^ 56 * 2 ^ 24 ∧
      f.limit.toNat = fromLE b % 2 ^ 16 + fromLE b / 2 ^ 48 % 2 ^ 4 * 2 ^ 16 ∧
      f.type.toNat = fromLE b / 2 ^ 40 % 2 ^ 4 ∧ f.s.toNat = fromLE b / 2 ^ 44 % 2 ∧
      f.dpl.toNat = fromLE b / 2 ^ 45 % 2 ^ 2 ∧ f.p.toNat = fromLE b / 2 ^ 47 % 2 ∧
      f.avl.toNat = fromLE b / 2 ^ 52 % 2 ∧ f.l.toNat = fromLE b / 2 ^ 53 % 2 ∧
      f.db.toNat = fromLE b / 2 ^ 54 % 2 ∧ f.g.toNat = fromLE b / 2 ^ 55 % 2 ∧
      exec (.encSeg f) s = .next (s.respond .ok (.bytes b))

/-- The 16-byte segment form is the 8-byte form of the low half of the base, the extension word and the reserved word, both
ways (R134, R135). -/
def Obligations.WideSegmentFormExtendsTheNarrow : Prop :=
  (∀ (v : SegFields 64) (s : State),
    ∃ lo : List Byte,
      Op.encSeg64.code = 0x22 ∧
      exec (.encSeg ⟨BitVec.ofNat 32 v.base.toNat, v.limit, v.type, v.s, v.dpl, v.p, v.avl, v.l, v.db, v.g⟩) s =
        .next (s.respond .ok (.bytes lo)) ∧
      lo.length = 8 ∧
      exec (.encSeg64 v) s =
        .next (s.respond .ok (.bytes (lo ++ leBytes 4 (v.base.toNat / 2 ^ 32) ++ [0, 0, 0, 0])))) ∧
  ∀ (b : List Byte) (s : State), b.length = 16 →
    ∃ f : SegFields 32,
      Op.decSeg64.code = 0x23 ∧
      exec (.decSeg (b.take 8)) s = .next (s.respond .ok (.seg f)) ∧
      exec (.decSeg64 b) s = .next (s.respond .ok (.seg64
        ⟨BitVec.ofNat 64 (f.base.toNat + 2 ^ 32 * fromLE (slice b 8 4)), f.limit, f.type, f.s, f.dpl, f.p, f.avl, f.l, f.db,
          f.g⟩))

/-- ENC_GATE (R136): the number built from the five operands; bits 39:32 and 44 are 0. -/
def Obligations.EncGateBuildsTheGate : Prop :=
  ∀ (v : GateFields 32) (s : State),
    Op.encGate.code = 0x24 ∧
    exec (.encGate v) s = .next (s.respond .ok (.bytes (leBytes 8
      (v.offset.toNat % 2 ^ 16 + v.selector.toNat * 2 ^ 16 + v.type.toNat * 2 ^ 40 + v.dpl.toNat * 2 ^ 45 +
        v.p.toNat * 2 ^ 47 + v.offset.toNat / 2 ^ 16 * 2 ^ 48))))

/-- DEC_GATE (R137): each field from its bits; bits 39:32 and 44 are ignored. -/
def Obligations.DecGateReadsTheFields : Prop :=
  ∀ (b : List Byte) (s : State), b.length = 8 →
    ∃ f : GateFields 32,
      Op.decGate.code = 0x25 ∧
      exec (.decGate b) s = .next (s.respond .ok (.gate f)) ∧
      f.offset.toNat = fromLE b % 2 ^ 16 + fromLE b / 2 ^ 48 * 2 ^ 16 ∧
      f.selector.toNat = fromLE b / 2 ^ 16 % 2 ^ 16 ∧ f.type.toNat = fromLE b / 2 ^ 40 % 2 ^ 4 ∧
      f.dpl.toNat = fromLE b / 2 ^ 45 % 2 ^ 2 ∧ f.p.toNat = fromLE b / 2 ^ 47 % 2

/-- The 16-byte gate form is the 8-byte form of the low half of the offset, the extension word and the reserved word, both
ways (R139, R140). -/
def Obligations.WideGateFormExtendsTheNarrow : Prop :=
  (∀ (v : GateFields 64) (s : State),
    ∃ lo : List Byte,
      Op.encGate64.code = 0x26 ∧
      exec (.encGate ⟨BitVec.ofNat 32 v.offset.toNat, v.selector, v.type, v.dpl, v.p⟩) s =
        .next (s.respond .ok (.bytes lo)) ∧
      lo.length = 8 ∧
      exec (.encGate64 v) s =
        .next (s.respond .ok (.bytes (lo ++ leBytes 4 (v.offset.toNat / 2 ^ 32) ++ [0, 0, 0, 0])))) ∧
  ∀ (b : List Byte) (s : State), b.length = 16 →
    ∃ f : GateFields 32,
      Op.decGate64.code = 0x27 ∧
      exec (.decGate (b.take 8)) s = .next (s.respond .ok (.gate f)) ∧
      exec (.decGate64 b) s = .next (s.respond .ok (.gate64
        ⟨BitVec.ofNat 64 (f.offset.toNat + 2 ^ 32 * fromLE (slice b 8 4)), f.selector, f.type, f.dpl, f.p⟩))

/-- ENC_TASKGATE and DEC_TASKGATE (R141, R142); the encoder is ENC_GATE with a zero offset. -/
def Obligations.TaskGateEncodesAndDecodes : Prop :=
  (∀ (v : TaskGateFields) (s : State),
    Op.encTaskGate.code = 0x28 ∧
    exec (.encTaskGate v) s = .next (s.respond .ok (.bytes (leBytes 8
      (v.selector.toNat * 2 ^ 16 + v.type.toNat * 2 ^ 40 + v.dpl.toNat * 2 ^ 45 + v.p.toNat * 2 ^ 47)))) ∧
    exec (.encTaskGate v) s = exec (.encGate ⟨0, v.selector, v.type, v.dpl, v.p⟩) s) ∧
  ∀ (b : List Byte) (s : State), b.length = 8 →
    ∃ f : TaskGateFields,
      Op.decTaskGate.code = 0x29 ∧
      exec (.decTaskGate b) s = .next (s.respond .ok (.taskGate f)) ∧
      f.selector.toNat = fromLE b / 2 ^ 16 % 2 ^ 16 ∧ f.type.toNat = fromLE b / 2 ^ 40 % 2 ^ 4 ∧
      f.dpl.toNat = fromLE b / 2 ^ 45 % 2 ^ 2 ∧ f.p.toNat = fromLE b / 2 ^ 47 % 2

/-- ENC_TSS32 (R143): every field little-endian at its offset of 30_encoding.md R81, `t` in bit 0 of bytes 100 and 101, every
reserved range 0. -/
def Obligations.EncTss32PlacesEveryField : Prop :=
  ∀ (v : Tss32Fields) (s : State),
    ∃ b : List Byte,
      Op.encTss32.code = 0x2A ∧
      exec (.encTss32 v) s = .next (s.respond .ok (.bytes b)) ∧ b.length = 104 ∧
      slice b 0 2 = leBytes 2 v.link.toNat ∧ slice b 4 4 = leBytes 4 v.esp0.toNat ∧
      slice b 8 2 = leBytes 2 v.ss0.toNat ∧ slice b 12 4 = leBytes 4 v.esp1.toNat ∧
      slice b 16 2 = leBytes 2 v.ss1.toNat ∧ slice b 20 4 = leBytes 4 v.esp2.toNat ∧
      slice b 24 2 = leBytes 2 v.ss2.toNat ∧ slice b 28 4 = leBytes 4 v.cr3.toNat ∧
      slice b 32 4 = leBytes 4 v.eip.toNat ∧ slice b 36 4 = leBytes 4 v.eflags.toNat ∧
      slice b 40 4 = leBytes 4 v.eax.toNat ∧ slice b 44 4 = leBytes 4 v.ecx.toNat ∧
      slice b 48 4 = leBytes 4 v.edx.toNat ∧ slice b 52 4 = leBytes 4 v.ebx.toNat ∧
      slice b 56 4 = leBytes 4 v.esp.toNat ∧ slice b 60 4 = leBytes 4 v.ebp.toNat ∧
      slice b 64 4 = leBytes 4 v.esi.toNat ∧ slice b 68 4 = leBytes 4 v.edi.toNat ∧
      slice b 72 2 = leBytes 2 v.es.toNat ∧ slice b 76 2 = leBytes 2 v.cs.toNat ∧
      slice b 80 2 = leBytes 2 v.ss.toNat ∧ slice b 84 2 = leBytes 2 v.ds.toNat ∧
      slice b 88 2 = leBytes 2 v.fs.toNat ∧ slice b 92 2 = leBytes 2 v.gs.toNat ∧
      slice b 96 2 = leBytes 2 v.ldt.toNat ∧ slice b 100 2 = leBytes 2 v.t.toNat ∧
      slice b 102 2 = leBytes 2 v.iomapBase.toNat ∧
      ∀ o ∈ [2, 10, 18, 26, 74, 78, 82, 86, 90, 94, 98], slice b o 2 = [0, 0]

/-- DEC_TSS32 (R144): every field from the bytes at its offset, `t` from bit 0 of the byte at 100. -/
def Obligations.DecTss32ReadsEveryField : Prop :=
  ∀ (b : List Byte) (s : State), b.length = 104 →
    ∃ f : Tss32Fields,
      Op.decTss32.code = 0x2B ∧
      exec (.decTss32 b) s = .next (s.respond .ok (.tss32 f)) ∧
      f.link.toNat = fromLE (slice b 0 2) ∧ f.esp0.toNat = fromLE (slice b 4 4) ∧
      f.ss0.toNat = fromLE (slice b 8 2) ∧ f.esp1.toNat = fromLE (slice b 12 4) ∧
      f.ss1.toNat = fromLE (slice b 16 2) ∧ f.esp2.toNat = fromLE (slice b 20 4) ∧
      f.ss2.toNat = fromLE (slice b 24 2) ∧ f.cr3.toNat = fromLE (slice b 28 4) ∧
      f.eip.toNat = fromLE (slice b 32 4) ∧ f.eflags.toNat = fromLE (slice b 36 4) ∧
      f.eax.toNat = fromLE (slice b 40 4) ∧ f.ecx.toNat = fromLE (slice b 44 4) ∧
      f.edx.toNat = fromLE (slice b 48 4) ∧ f.ebx.toNat = fromLE (slice b 52 4) ∧
      f.esp.toNat = fromLE (slice b 56 4) ∧ f.ebp.toNat = fromLE (slice b 60 4) ∧
      f.esi.toNat = fromLE (slice b 64 4) ∧ f.edi.toNat = fromLE (slice b 68 4) ∧
      f.es.toNat = fromLE (slice b 72 2) ∧ f.cs.toNat = fromLE (slice b 76 2) ∧
      f.ss.toNat = fromLE (slice b 80 2) ∧ f.ds.toNat = fromLE (slice b 84 2) ∧
      f.fs.toNat = fromLE (slice b 88 2) ∧ f.gs.toNat = fromLE (slice b 92 2) ∧
      f.ldt.toNat = fromLE (slice b 96 2) ∧ f.t.toNat = fromLE (slice b 100 1) % 2 ∧
      f.iomapBase.toNat = fromLE (slice b 102 2)

/-- ENC_TSS64 and DEC_TSS64 (R145, R146): every field little-endian at its offset of 30_encoding.md R82; reserved ranges are
written 0 and ignored. -/
def Obligations.Tss64EncodesAndDecodes : Prop :=
  (∀ (v : Tss64Fields) (s : State),
    ∃ b : List Byte,
      Op.encTss64.code = 0x2C ∧
      exec (.encTss64 v) s = .next (s.respond .ok (.bytes b)) ∧ b.length = 104 ∧
      slice b 4 8 = leBytes 8 v.rsp0.toNat ∧ slice b 12 8 = leBytes 8 v.rsp1.toNat ∧
      slice b 20 8 = leBytes 8 v.rsp2.toNat ∧ slice b 36 8 = leBytes 8 v.ist1.toNat ∧
      slice b 44 8 = leBytes 8 v.ist2.toNat ∧ slice b 52 8 = leBytes 8 v.ist3.toNat ∧
      slice b 60 8 = leBytes 8 v.ist4.toNat ∧ slice b 68 8 = leBytes 8 v.ist5.toNat ∧
      slice b 76 8 = leBytes 8 v.ist6.toNat ∧ slice b 84 8 = leBytes 8 v.ist7.toNat ∧
      slice b 102 2 = leBytes 2 v.iomapBase.toNat ∧
      slice b 0 4 = List.replicate 4 0 ∧ slice b 28 8 = List.replicate 8 0 ∧ slice b 92 10 = List.replicate 10 0) ∧
  ∀ (b : List Byte) (s : State), b.length = 104 →
    ∃ f : Tss64Fields,
      Op.decTss64.code = 0x2D ∧
      exec (.decTss64 b) s = .next (s.respond .ok (.tss64 f)) ∧
      f.rsp0.toNat = fromLE (slice b 4 8) ∧ f.rsp1.toNat = fromLE (slice b 12 8) ∧
      f.rsp2.toNat = fromLE (slice b 20 8) ∧ f.ist1.toNat = fromLE (slice b 36 8) ∧
      f.ist2.toNat = fromLE (slice b 44 8) ∧ f.ist3.toNat = fromLE (slice b 52 8) ∧
      f.ist4.toNat = fromLE (slice b 60 8) ∧ f.ist5.toNat = fromLE (slice b 68 8) ∧
      f.ist6.toNat = fromLE (slice b 76 8) ∧ f.ist7.toNat = fromLE (slice b 84 8) ∧
      f.iomapBase.toNat = fromLE (slice b 102 2)

/-- The inverse law of R147 for the descriptor and task-state types: decoding what was encoded gives the operands back, and
encoding what was decoded gives the bytes back exactly when every reserved bit of them is 0. -/
def Obligations.DescriptorFormsAreInverse : Prop :=
  (∀ (v : SegFields 32) (s : State), ∃ b, exec (.encSeg v) s = .next (s.respond .ok (.bytes b)) ∧
    exec (.decSeg b) s = .next (s.respond .ok (.seg v))) ∧
  (∀ (v : SegFields 64) (s : State), ∃ b, exec (.encSeg64 v) s = .next (s.respond .ok (.bytes b)) ∧
    exec (.decSeg64 b) s = .next (s.respond .ok (.seg64 v))) ∧
  (∀ (v : GateFields 32) (s : State), ∃ b, exec (.encGate v) s = .next (s.respond .ok (.bytes b)) ∧
    exec (.decGate b) s = .next (s.respond .ok (.gate v))) ∧
  (∀ (v : GateFields 64) (s : State), ∃ b, exec (.encGate64 v) s = .next (s.respond .ok (.bytes b)) ∧
    exec (.decGate64 b) s = .next (s.respond .ok (.gate64 v))) ∧
  (∀ (v : TaskGateFields) (s : State), ∃ b, exec (.encTaskGate v) s = .next (s.respond .ok (.bytes b)) ∧
    exec (.decTaskGate b) s = .next (s.respond .ok (.taskGate v))) ∧
  (∀ (v : Tss32Fields) (s : State), ∃ b, exec (.encTss32 v) s = .next (s.respond .ok (.bytes b)) ∧
    exec (.decTss32 b) s = .next (s.respond .ok (.tss32 v))) ∧
  (∀ (v : Tss64Fields) (s : State), ∃ b, exec (.encTss64 v) s = .next (s.respond .ok (.bytes b)) ∧
    exec (.decTss64 b) s = .next (s.respond .ok (.tss64 v))) ∧
  (∀ (b : List Byte) (s : State), b.length = 8 → ∃ v, exec (.decSeg b) s = .next (s.respond .ok (.seg v)) ∧
    exec (.encSeg v) s = .next (s.respond .ok (.bytes b))) ∧
  (∀ (b : List Byte) (s : State), b.length = 16 → ∃ v, exec (.decSeg64 b) s = .next (s.respond .ok (.seg64 v)) ∧
    (exec (.encSeg64 v) s = .next (s.respond .ok (.bytes b)) ↔ fromLE (slice b 12 4) = 0)) ∧
  (∀ (b : List Byte) (s : State), b.length = 8 → ∃ v, exec (.decGate b) s = .next (s.respond .ok (.gate v)) ∧
    (exec (.encGate v) s = .next (s.respond .ok (.bytes b)) ↔
      fromLE (slice b 4 1) = 0 ∧ fromLE b / 2 ^ 44 % 2 = 0)) ∧
  (∀ (b : List Byte) (s : State), b.length = 16 → ∃ v, exec (.decGate64 b) s = .next (s.respond .ok (.gate64 v)) ∧
    (exec (.encGate64 v) s = .next (s.respond .ok (.bytes b)) ↔
      fromLE (slice b 4 1) = 0 ∧ fromLE (slice b 5 1) / 2 ^ 4 % 2 = 0 ∧ fromLE (slice b 12 4) = 0)) ∧
  (∀ (b : List Byte) (s : State), b.length = 8 → ∃ v, exec (.decTaskGate b) s = .next (s.respond .ok (.taskGate v)) ∧
    (exec (.encTaskGate v) s = .next (s.respond .ok (.bytes b)) ↔
      fromLE (slice b 0 2) = 0 ∧ fromLE (slice b 4 1) = 0 ∧ fromLE b / 2 ^ 44 % 2 = 0 ∧ fromLE (slice b 6 2) = 0)) ∧
  (∀ (b : List Byte) (s : State), b.length = 104 → ∃ v, exec (.decTss32 b) s = .next (s.respond .ok (.tss32 v)) ∧
    (exec (.encTss32 v) s = .next (s.respond .ok (.bytes b)) ↔
      (∀ o ∈ [2, 10, 18, 26, 74, 78, 82, 86, 90, 94, 98], fromLE (slice b o 2) = 0) ∧ fromLE (slice b 100 2) < 2)) ∧
  ∀ (b : List Byte) (s : State), b.length = 104 → ∃ v, exec (.decTss64 b) s = .next (s.respond .ok (.tss64 v)) ∧
    (exec (.encTss64 v) s = .next (s.respond .ok (.bytes b)) ↔
      fromLE (slice b 0 4) = 0 ∧ fromLE (slice b 28 8) = 0 ∧ fromLE (slice b 92 10) = 0)

/-! Page-table entry formats (43_pte_encoders_and_walk.md). -/

/-- ENC_PDE32 and DEC_PDE32 (R161, R162). -/
def Obligations.Pde32EncodesAndDecodes : Prop :=
  (∀ (v : Pde32Fields) (s : State),
    Op.encPde32.code = 0x30 ∧
    exec (.encPde32 v) s = .next (s.respond .ok (.bytes (leBytes 4
      (v.p.toNat + v.rw.toNat * 2 + v.us.toNat * 2 ^ 2 + v.pwt.toNat * 2 ^ 3 + v.pcd.toNat * 2 ^ 4 + v.a.toNat * 2 ^ 5 +
        v.d.toNat * 2 ^ 6 + v.ps.toNat * 2 ^ 7 + v.g.toNat * 2 ^ 8 + v.avl.toNat * 2 ^ 9 + v.pfn.toNat * 2 ^ 12))))) ∧
  ∀ (b : List Byte) (s : State), b.length = 4 →
    ∃ f : Pde32Fields,
      Op.decPde32.code = 0x31 ∧
      exec (.decPde32 b) s = .next (s.respond .ok (.pde32 f)) ∧
      f.p.toNat = fromLE b % 2 ∧ f.rw.toNat = fromLE b / 2 % 2 ∧ f.us.toNat = fromLE b / 2 ^ 2 % 2 ∧
      f.pwt.toNat = fromLE b / 2 ^ 3 % 2 ∧ f.pcd.toNat = fromLE b / 2 ^ 4 % 2 ∧ f.a.toNat = fromLE b / 2 ^ 5 % 2 ∧
      f.d.toNat = fromLE b / 2 ^ 6 % 2 ∧ f.ps.toNat = fromLE b / 2 ^ 7 % 2 ∧ f.g.toNat = fromLE b / 2 ^ 8 % 2 ∧
      f.avl.toNat = fromLE b / 2 ^ 9 % 2 ^ 3 ∧ f.pfn.toNat = fromLE b / 2 ^ 12 ∧
      exec (.encPde32 f) s = .next (s.respond .ok (.bytes b))

/-- ENC_PML4E, ENC_PDPTE, ENC_PDE64 and ENC_PTE64 (R163, R165, R167, R169): one layout, bit 7 being 0, `ps`, `ps` and `pat`. -/
def Obligations.WideEntryEncodersBuildTheEntry : Prop :=
  (∀ (v : Pml4eFields) (s : State),
    Op.encPml4e.code = 0x32 ∧
    exec (.encPml4e v) s = .next (s.respond .ok (.bytes (leBytes 8
      (v.p.toNat + v.rw.toNat * 2 + v.us.toNat * 2 ^ 2 + v.pwt.toNat * 2 ^ 3 + v.pcd.toNat * 2 ^ 4 + v.a.toNat * 2 ^ 5 +
        v.d.toNat * 2 ^ 6 + v.g.toNat * 2 ^ 8 + v.avl.toNat * 2 ^ 9 + v.pfn.toNat * 2 ^ 12 + v.avlHi.toNat * 2 ^ 52 +
        v.nx.toNat * 2 ^ 63))))) ∧
  (∀ (v : DirEntryFields) (s : State),
    Op.encPdpte.code = 0x34 ∧ Op.encPde64.code = 0x36 ∧
    exec (.encPdpte v) s = .next (s.respond .ok (.bytes (leBytes 8
      (v.p.toNat + v.rw.toNat * 2 + v.us.toNat * 2 ^ 2 + v.pwt.toNat * 2 ^ 3 + v.pcd.toNat * 2 ^ 4 + v.a.toNat * 2 ^ 5 +
        v.d.toNat * 2 ^ 6 + v.ps.toNat * 2 ^ 7 + v.g.toNat * 2 ^ 8 + v.avl.toNat * 2 ^ 9 + v.pfn.toNat * 2 ^ 12 +
        v.avlHi.toNat * 2 ^ 52 + v.nx.toNat * 2 ^ 63)))) ∧
    exec (.encPde64 v) s = exec (.encPdpte v) s) ∧
  ∀ (v : Pte64Fields) (s : State),
    Op.encPte64.code = 0x38 ∧
    exec (.encPte64 v) s = .next (s.respond .ok (.bytes (leBytes 8
      (v.p.toNat + v.rw.toNat * 2 + v.us.toNat * 2 ^ 2 + v.pwt.toNat * 2 ^ 3 + v.pcd.toNat * 2 ^ 4 + v.a.toNat * 2 ^ 5 +
        v.d.toNat * 2 ^ 6 + v.pat.toNat * 2 ^ 7 + v.g.toNat * 2 ^ 8 + v.avl.toNat * 2 ^ 9 + v.pfn.toNat * 2 ^ 12 +
        v.avlHi.toNat * 2 ^ 52 + v.nx.toNat * 2 ^ 63))))

/-- DEC_PML4E, DEC_PDPTE, DEC_PDE64 and DEC_PTE64 (R164, R166, R168, R170): each field from its bits of 30_encoding.md R86;
the top-level entry's bit 7 is ignored, and ENC_PDPTE gives the bytes of a second-level entry back. -/
def Obligations.WideEntryDecodersReadTheFields : Prop :=
  ∀ (b : List Byte) (s : State), b.length = 8 →
    Op.decPml4e.code = 0x33 ∧ Op.decPdpte.code = 0x35 ∧ Op.decPde64.code = 0x37 ∧ Op.decPte64.code = 0x39 ∧
    (∃ f : Pml4eFields, exec (.decPml4e b) s = .next (s.respond .ok (.pml4e f)) ∧
      f.p.toNat = fromLE b % 2 ∧ f.rw.toNat = fromLE b / 2 % 2 ∧ f.us.toNat = fromLE b / 2 ^ 2 % 2 ∧
      f.pwt.toNat = fromLE b / 2 ^ 3 % 2 ∧ f.pcd.toNat = fromLE b / 2 ^ 4 % 2 ∧ f.a.toNat = fromLE b / 2 ^ 5 % 2 ∧
      f.d.toNat = fromLE b / 2 ^ 6 % 2 ∧ f.g.toNat = fromLE b / 2 ^ 8 % 2 ∧ f.avl.toNat = fromLE b / 2 ^ 9 % 2 ^ 3 ∧
      f.pfn.toNat = fromLE b / 2 ^ 12 % 2 ^ 40 ∧ f.avlHi.toNat = fromLE b / 2 ^ 52 % 2 ^ 11 ∧
      f.nx.toNat = fromLE b / 2 ^ 63) ∧
    (∃ f : DirEntryFields, exec (.decPdpte b) s = .next (s.respond .ok (.dirEntry f)) ∧
      exec (.decPde64 b) s = .next (s.respond .ok (.dirEntry f)) ∧
      exec (.encPdpte f) s = .next (s.respond .ok (.bytes b)) ∧
      f.p.toNat = fromLE b % 2 ∧ f.rw.toNat = fromLE b / 2 % 2 ∧ f.us.toNat = fromLE b / 2 ^ 2 % 2 ∧
      f.pwt.toNat = fromLE b / 2 ^ 3 % 2 ∧ f.pcd.toNat = fromLE b / 2 ^ 4 % 2 ∧ f.a.toNat = fromLE b / 2 ^ 5 % 2 ∧
      f.d.toNat = fromLE b / 2 ^ 6 % 2 ∧ f.ps.toNat = fromLE b / 2 ^ 7 % 2 ∧ f.g.toNat = fromLE b / 2 ^ 8 % 2 ∧
      f.avl.toNat = fromLE b / 2 ^ 9 % 2 ^ 3 ∧ f.pfn.toNat = fromLE b / 2 ^ 12 % 2 ^ 40 ∧
      f.avlHi.toNat = fromLE b / 2 ^ 52 % 2 ^ 11 ∧ f.nx.toNat = fromLE b / 2 ^ 63) ∧
    ∃ f : Pte64Fields, exec (.decPte64 b) s = .next (s.respond .ok (.pte64 f)) ∧
      f.p.toNat = fromLE b % 2 ∧ f.rw.toNat = fromLE b / 2 % 2 ∧ f.us.toNat = fromLE b / 2 ^ 2 % 2 ∧
      f.pwt.toNat = fromLE b / 2 ^ 3 % 2 ∧ f.pcd.toNat = fromLE b / 2 ^ 4 % 2 ∧ f.a.toNat = fromLE b / 2 ^ 5 % 2 ∧
      f.d.toNat = fromLE b / 2 ^ 6 % 2 ∧ f.pat.toNat = fromLE b / 2 ^ 7 % 2 ∧ f.g.toNat = fromLE b / 2 ^ 8 % 2 ∧
      f.avl.toNat = fromLE b / 2 ^ 9 % 2 ^ 3 ∧ f.pfn.toNat = fromLE b / 2 ^ 12 % 2 ^ 40 ∧
      f.avlHi.toNat = fromLE b / 2 ^ 52 % 2 ^ 11 ∧ f.nx.toNat = fromLE b / 2 ^ 63

/-- The inverse law for the five entry types (R171): always one way, and the other way for every byte sequence but a
top-level entry with its reserved bit 7 set. -/
def Obligations.EntryFormsAreInverse : Prop :=
  (∀ (v : Pde32Fields) (s : State), ∃ b, exec (.encPde32 v) s = .next (s.respond .ok (.bytes b)) ∧
    exec (.decPde32 b) s = .next (s.respond .ok (.pde32 v))) ∧
  (∀ (v : Pml4eFields) (s : State), ∃ b, exec (.encPml4e v) s = .next (s.respond .ok (.bytes b)) ∧
    exec (.decPml4e b) s = .next (s.respond .ok (.pml4e v))) ∧
  (∀ (v : DirEntryFields) (s : State), ∃ b, exec (.encPdpte v) s = .next (s.respond .ok (.bytes b)) ∧
    exec (.decPdpte b) s = .next (s.respond .ok (.dirEntry v))) ∧
  (∀ (v : DirEntryFields) (s : State), ∃ b, exec (.encPde64 v) s = .next (s.respond .ok (.bytes b)) ∧
    exec (.decPde64 b) s = .next (s.respond .ok (.dirEntry v))) ∧
  (∀ (v : Pte64Fields) (s : State), ∃ b, exec (.encPte64 v) s = .next (s.respond .ok (.bytes b)) ∧
    exec (.decPte64 b) s = .next (s.respond .ok (.pte64 v))) ∧
  (∀ (b : List Byte) (s : State), b.length = 4 → ∃ v, exec (.decPde32 b) s = .next (s.respond .ok (.pde32 v)) ∧
    exec (.encPde32 v) s = .next (s.respond .ok (.bytes b))) ∧
  (∀ (b : List Byte) (s : State), b.length = 8 → ∃ v, exec (.decPml4e b) s = .next (s.respond .ok (.pml4e v)) ∧
    (exec (.encPml4e v) s = .next (s.respond .ok (.bytes b)) ↔ fromLE b / 2 ^ 7 % 2 = 0)) ∧
  (∀ (b : List Byte) (s : State), b.length = 8 → ∃ v, exec (.decPdpte b) s = .next (s.respond .ok (.dirEntry v)) ∧
    exec (.encPdpte v) s = .next (s.respond .ok (.bytes b))) ∧
  (∀ (b : List Byte) (s : State), b.length = 8 → ∃ v, exec (.decPde64 b) s = .next (s.respond .ok (.dirEntry v)) ∧
    exec (.encPde64 v) s = .next (s.respond .ok (.bytes b))) ∧
  ∀ (b : List Byte) (s : State), b.length = 8 → ∃ v, exec (.decPte64 b) s = .next (s.respond .ok (.pte64 v)) ∧
    exec (.encPte64 v) s = .next (s.respond .ok (.bytes b))

/-! The arena (20_memory.md, 40_arena_ops.md). -/

/-- ALLOC (20_memory.md R51, 40_arena_ops.md R110): the answer is the smallest multiple of the alignment not below the length,
the arena then ends exactly where the allocated range ends, every earlier byte is unchanged and every new one is 0; nothing
else changes. Beyond a bounded MEM_MAX it fails with OutOfBounds and allocates nothing; an alignment of 0 is refused. -/
def Obligations.AllocExtendsTheArenaWithZeros : Prop :=
  Op.alloc.code = 0x01 ∧
  (∀ (s : State) (size alignment addr : Nat),
    s.accepting = true → s.mem.wf = true → 1 ≤ alignment →
    addr % alignment = 0 → s.mem.len ≤ addr → addr < s.mem.len + alignment →
    (∀ m, s.cfg.memMax = some m → addr + size ≤ m) →
    ∃ mem : Memory,
      exec (.alloc size alignment) s = .next { s with mem := mem, response := some ⟨.ok, .addr addr⟩ } ∧
      mem.len = addr + size ∧
      (∀ x, x < s.mem.len → mem.readByte x = s.mem.readByte x) ∧
      ∀ x, s.mem.len ≤ x → x < addr + size → mem.readByte x = some 0) ∧
  (∀ (s : State) (size alignment addr m : Nat),
    s.accepting = true → 1 ≤ alignment →
    addr % alignment = 0 → s.mem.len ≤ addr → addr < s.mem.len + alignment →
    s.cfg.memMax = some m → m < addr + size →
    exec (.alloc size alignment) s = .next (s.failedWith .outOfBounds)) ∧
  ∀ (s : State) (size : Nat),
    exec (.alloc size 0) s = .next { s with response := some ⟨.illegalCommand, .nothing⟩ }

/-- MWRITE (20_memory.md R53, 40_arena_ops.md R111): inside the arena it stores exactly its bytes at `addr` and changes no
other byte and not the length; past the length it fails with OutOfBounds and stores nothing. -/
def Obligations.MwriteStoresExactlyItsBytes : Prop :=
  Op.mwrite.code = 0x02 ∧
  ∀ (s : State) (addr : Nat) (bytes : List Byte), s.accepting = true → s.mem.wf = true →
    (addr + bytes.length ≤ s.mem.len →
      ∃ mem : Memory,
        exec (.mwrite addr bytes) s = .next { s with mem := mem, response := some ⟨.ok, .nothing⟩ } ∧
        mem.len = s.mem.len ∧
        (∀ i, i < bytes.length → mem.readByte (addr + i) = bytes[i]?) ∧
        ∀ x, x < addr ∨ addr + bytes.length ≤ x → mem.readByte x = s.mem.readByte x) ∧
    (s.mem.len < addr + bytes.length → exec (.mwrite addr bytes) s = .next (s.failedWith .outOfBounds))

/-- MREAD (20_memory.md R52, 40_arena_ops.md R112): inside the arena it answers the bytes of the range, byte by byte, and
changes nothing; past the length it fails with OutOfBounds. -/
def Obligations.MreadAnswersTheBytes : Prop :=
  Op.mread.code = 0x03 ∧
  ∀ (s : State) (addr size : Nat), s.accepting = true → s.mem.wf = true →
    (addr + size ≤ s.mem.len →
      exec (.mread addr size) s =
        .next (s.respond .ok (.bytes ((List.range size).map fun i => s.mem.byte (addr + i))))) ∧
    (s.mem.len < addr + size → exec (.mread addr size) s = .next (s.failedWith .outOfBounds))

/-- After a completed MWRITE a read of its range answers its bytes, and a read of a range it does not touch answers what it
answered before (20_memory.md R60). -/
def Obligations.ReadAfterWriteAnswersTheLatestBytes : Prop :=
  ∀ (s : State) (addr : Nat) (bytes : List Byte), s.accepting = true → s.mem.wf = true →
    addr + bytes.length ≤ s.mem.len →
    ∃ t : State, exec (.mwrite addr bytes) s = .next t ∧
      exec (.mread addr bytes.length) t = .next (t.respond .ok (.bytes bytes)) ∧
      ∀ x n, x + n ≤ s.mem.len → x + n ≤ addr ∨ addr + bytes.length ≤ x →
        ∃ b, exec (.mread x n) s = .next (s.respond .ok (.bytes b)) ∧
          exec (.mread x n) t = .next (t.respond .ok (.bytes b))

/-! The Register File and the serializer (10_state.md, 41_regfile_serializer_ops.md). -/

/-- RGET (R121) answers the bits of the named field that RAW's image holds at the place 10_state.md gives it (R31, and R24,
R25, R27, R28, R30, R33 for the bits inside a register), and changes nothing. -/
def Obligations.RgetAnswersTheFieldOfTheImage : Prop :=
  Op.rget.code = 0x04 ∧
  ∀ (s : State) (f : Field), s.accepting = true →
    ∃ (img : List Byte) (v : BitVec 64),
      exec .raw s = .next (s.respond .ok (.bytes img)) ∧
      exec (.rget f) s = .next (s.respond .ok (.value v)) ∧
      v.toNat =
        fromLE (slice img (fieldPlace f).offset (fieldPlace f).bytes) / 2 ^ (fieldPlace f).lo % 2 ^ (fieldPlace f).width

/-- RSET (R122): the named field takes the value, every other field and every fixed or reserved bit keeps its value, and
nothing but the Register File changes. -/
def Obligations.RsetWritesExactlyOneField : Prop :=
  Op.rset.code = 0x05 ∧
  ∀ (s : State) (f : Field) (v : BitVec 64), s.accepting = true → v.toNat < 2 ^ (fieldPlace f).width →
    ∃ regs : Regs,
      exec (.rset f v) s = .next { s with regs := regs, response := some ⟨.ok, .nothing⟩ } ∧
      regs.fieldGet f = v ∧
      (∀ g : Field, g ≠ f → regs.fieldGet g = s.regs.fieldGet g) ∧
      regs.fixedBits = s.regs.fixedBits

/-- RAW (R124): 400 bytes of registers in the order and layout of 10_state.md R31, R25 and R27, then every byte of the arena;
nothing changes. -/
def Obligations.RawImageHasTheWireLayout : Prop :=
  Op.raw.code = 0x06 ∧
  ∀ s : State, s.accepting = true → s.mem.wf = true →
    ∃ img : List Byte,
      exec .raw s = .next (s.respond .ok (.bytes img)) ∧
      img.length = 400 + s.mem.len ∧
      (∀ x, x < s.mem.len → img[400 + x]? = s.mem.readByte x) ∧
      (∀ n : Scalar, slice img (scalarOffset n) 8 = leBytes 8 (s.regs.getScalar n).toNat) ∧
      slice img 0x088 8 = leBytes 8 s.regs.rflags.toNat ∧
      slice img 0x130 8 = leBytes 8 s.regs.cr0.toNat ∧
      slice img 0x148 8 = leBytes 8 s.regs.cr4.toNat ∧
      slice img 0x188 8 = leBytes 8 s.regs.efer.toNat ∧
      (∀ n : Sreg, slice img (sregOffset n) 16 =
        leBytes 8 (s.regs.getSeg n).base.toNat ++ leBytes 4 (s.regs.getSeg n).limit.toNat ++
          leBytes 2 (s.regs.getSeg n).selector.toNat ++
          leBytes 2 ((s.regs.getSeg n).type.toNat + (s.regs.getSeg n).s.toNat * 2 ^ 4 +
            (s.regs.getSeg n).dpl.toNat * 2 ^ 5 + (s.regs.getSeg n).p.toNat * 2 ^ 7 +
            (s.regs.getSeg n).rsvd.toNat * 2 ^ 8 + (s.regs.getSeg n).avl.toNat * 2 ^ 12 +
            (s.regs.getSeg n).l.toNat * 2 ^ 13 + (s.regs.getSeg n).db.toNat * 2 ^ 14 +
            (s.regs.getSeg n).g.toNat * 2 ^ 15)) ∧
      ∀ t : TableReg, slice img (tableOffset t) 16 =
        leBytes 8 (s.regs.getTable t).base.toNat ++ leBytes 2 (s.regs.getTable t).limit.toNat ++
          leBytes 6 (s.regs.getTable t).rsvd.toNat

/-- LOADIMG (R125): accepted whatever the latch holds; the Register File is the one whose image the first 400 bytes are, the
arena is the rest, and the latch is cleared. A shorter image is refused. -/
def Obligations.LoadimgReplacesTheState : Prop :=
  Op.loadimg.code = 0x07 ∧
  ∀ (s : State) (image : List Byte),
    (400 ≤ image.length →
      ∃ (regs : Regs) (mem : Memory),
        exec (.loadimg image) s =
          .next { s with regs := regs, mem := mem, fault := none, constructed := true, response := some ⟨.ok, .nothing⟩ } ∧
        regs.image = image.take 400 ∧ mem.len = image.length - 400 ∧ mem.wf = true ∧
        ∀ x, x < mem.len → mem.readByte x = image[400 + x]?) ∧
    (image.length < 400 →
      exec (.loadimg image) s = .next { s with response := some ⟨.illegalCommand, .nothing⟩ })

/-- The round trip (R126), both ways: loading the image RAW answers leaves every register and the arena as they are, and RAW
after loading an image answers that image. -/
def Obligations.ImageRoundTripIsLossless : Prop :=
  (∀ s : State, s.accepting = true → s.mem.wf = true →
    ∃ img : List Byte,
      exec .raw s = .next (s.respond .ok (.bytes img)) ∧
      exec (.loadimg img) s = .next (s.respond .ok .nothing)) ∧
  ∀ (s : State) (b : List Byte), 400 ≤ b.length →
    ∃ t : State, exec (.loadimg b) s = .next t ∧ exec .raw t = .next (t.respond .ok (.bytes b))

/-- CONSTRUCT (70_reset_and_hazards.md R260, R261): accepted in every state; every register is 0 but `rflags`, and `efer` for
64; the arena is empty, the latch is clear, and the image is 400 bytes, all 0 but the two the rule names. -/
def Obligations.ConstructLeavesTheFreshState : Prop :=
  Op.construct.code = 0x00 ∧
  ∀ (s : State) (arch : Arch),
    ∃ t : State,
      exec (.construct arch) s = .next t ∧
      t = { s with
        regs := { Regs.zero with rflags := 0x2, efer := if arch = .a64 then 0x500 else 0 }
        mem := { len := 0, cells := [] }, fault := none, constructed := true, response := some ⟨.ok, .nothing⟩ } ∧
      exec .raw t = .next (t.respond .ok (.bytes
        (List.replicate 0x88 0 ++ [0x02] ++ List.replicate 0x100 0 ++ [if arch = .a64 then 0x05 else 0x00] ++
          List.replicate 6 0)))

/-! The segment loader (44_segment_loader.md). -/

/-- LOAD_SEG of a code or data descriptor, or of a task-state-segment descriptor, with every check passed: the cache takes
base, limit, selector and flags from the descriptor's bits (R196 to R199), the base 64 bits wide from the 16-byte form in
long mode for a system descriptor; nothing else changes but the cache's reserved bits, of which this says nothing. -/
def Obligations.LoadSegFillsTheCacheFromTheDescriptor : Prop :=
  Op.loadSeg.code = 0x10 ∧
  ∀ (s : State) (sreg : Sreg) (selector : BitVec 16) (a d raw : Nat),
    s.accepting = true → s.mem.wf = true →
    selector.toNat / 2 ^ 2 % 2 = 0 → selector.toNat + 7 ≤ s.regs.gdtr.limit.toNat →
    a = s.regs.gdtr.base.toNat + selector.toNat / 8 * 8 → a + 8 ≤ s.mem.len →
    d = fromLE (s.mem.read a 8) → raw = d % 2 ^ 16 + d / 2 ^ 48 % 2 ^ 4 * 2 ^ 16 →
    (d / 2 ^ 44 % 2 = 1 ∨ d / 2 ^ 40 % 2 ^ 4 = 0b1011 ∨ d / 2 ^ 40 % 2 ^ 4 = 0b1001) →
    (d / 2 ^ 44 % 2 = 0 → s.regs.efer.toNat / 2 ^ 10 % 2 = 1 → a + 16 ≤ s.mem.len) →
    ∃ c : SegCache,
      exec (.loadSeg sreg selector) s =
        .next { s with regs := s.regs.setSeg sreg c, response := some ⟨.ok, .nothing⟩ } ∧
      c.base.toNat = d / 2 ^ 16 % 2 ^ 24 + d / 2 ^ 56 * 2 ^ 24 +
        (if d / 2 ^ 44 % 2 = 0 ∧ s.regs.efer.toNat / 2 ^ 10 % 2 = 1 then fromLE (s.mem.read (a + 8) 4) * 2 ^ 32 else 0) ∧
      c.limit.toNat = (if d / 2 ^ 55 % 2 = 1 then raw * 4096 + 4095 else raw) ∧
      c.selector = selector ∧ c.type.toNat = d / 2 ^ 40 % 2 ^ 4 ∧ c.s.toNat = d / 2 ^ 44 % 2 ∧
      c.dpl.toNat = d / 2 ^ 45 % 2 ^ 2 ∧ c.p.toNat = d / 2 ^ 47 % 2 ∧ c.avl.toNat = d / 2 ^ 52 % 2 ∧
      c.l.toNat = d / 2 ^ 53 % 2 ∧ c.db.toNat = d / 2 ^ 54 % 2 ∧ c.g.toNat = d / 2 ^ 55 % 2

/-- LOAD_SEG of a call gate (R200): the cache takes selector, type, `s`, present bit and privilege level; the other six fields
are values of nothing but the count of values drawn before, whatever the gate, the register or the rest of the state (no
value of them is stated: notes/assumptions/7.md), and the count goes up by one. That the reserved bits are 0 is the
model's reading (notes/assumptions/9.md). -/
def Obligations.LoadSegOfACallGateDrawsTheOpenFields : Prop :=
  ∃ (base : Nat → BitVec 64) (limit : Nat → BitVec 32) (avl l db g : Nat → BitVec 1),
    ∀ (s : State) (sreg : Sreg) (selector : BitVec 16) (a d : Nat),
      s.accepting = true → s.mem.wf = true →
      selector.toNat / 2 ^ 2 % 2 = 0 → selector.toNat + 7 ≤ s.regs.gdtr.limit.toNat →
      a = s.regs.gdtr.base.toNat + selector.toNat / 8 * 8 → a + 8 ≤ s.mem.len →
      d = fromLE (s.mem.read a 8) → d / 2 ^ 44 % 2 = 0 → d / 2 ^ 40 % 2 ^ 4 = 0b1100 →
      (s.regs.efer.toNat / 2 ^ 10 % 2 = 1 → a + 16 ≤ s.mem.len) →
      exec (.loadSeg sreg selector) s = .next { s with
        regs := s.regs.setSeg sreg
          { base := base s.draws, limit := limit s.draws, selector := selector, type := 0b1100, s := 0
            dpl := BitVec.ofNat 2 (d / 2 ^ 45), p := BitVec.ofNat 1 (d / 2 ^ 47), rsvd := 0
            avl := avl s.draws, l := l s.draws, db := db s.draws, g := g s.draws }
        draws := s.draws + 1, response := some ⟨.ok, .nothing⟩ }

/-- The failures of LOAD_SEG and their order (R191, R192, R193, R201 (e)): the first check that fails gives the kind, and the
command writes no register and no memory. -/
def Obligations.LoadSegReportsTheFirstFailingCheck : Prop :=
  ∀ (s : State) (sreg : Sreg) (selector : BitVec 16) (a d : Nat),
    s.accepting = true → a = s.regs.gdtr.base.toNat + selector.toNat / 8 * 8 → d = fromLE (s.mem.read a 8) →
    (selector.toNat / 2 ^ 2 % 2 = 1 →
      exec (.loadSeg sreg selector) s = .next (s.failedWith .unsupportedFeature)) ∧
    (selector.toNat / 2 ^ 2 % 2 = 0 → s.regs.gdtr.limit.toNat < selector.toNat + 7 →
      exec (.loadSeg sreg selector) s = .next (s.failedWith .outOfBounds)) ∧
    (selector.toNat / 2 ^ 2 % 2 = 0 → selector.toNat + 7 ≤ s.regs.gdtr.limit.toNat → s.mem.len < a + 8 →
      exec (.loadSeg sreg selector) s = .next (s.failedWith .outOfBounds)) ∧
    (selector.toNat / 2 ^ 2 % 2 = 0 → selector.toNat + 7 ≤ s.regs.gdtr.limit.toNat → a + 8 ≤ s.mem.len →
      d / 2 ^ 44 % 2 = 0 → d / 2 ^ 40 % 2 ^ 4 ∉ [0b1100, 0b1011, 0b1001] →
      exec (.loadSeg sreg selector) s = .next (s.failedWith .unsupportedFeature)) ∧
    (selector.toNat / 2 ^ 2 % 2 = 0 → selector.toNat + 7 ≤ s.regs.gdtr.limit.toNat → a + 8 ≤ s.mem.len →
      d / 2 ^ 44 % 2 = 0 → d / 2 ^ 40 % 2 ^ 4 ∈ [0b1100, 0b1011, 0b1001] →
      s.regs.efer.toNat / 2 ^ 10 % 2 = 1 → s.mem.len < a + 16 →
      exec (.loadSeg sreg selector) s = .next (s.failedWith .outOfBounds))

/-! Mode setup (45_mode_setup.md). -/

/-- SETUP_REAL (R210, R211): out of long mode the six segment caches, and `ldtr` and `tr` if REAL_SETS_SYSTEM_SEGS, take the
record FLAT16, whose attribute word is 0x0093, `cr0.pe` is cleared, and nothing else changes; in long mode it fails with
PreconditionViolation and writes nothing. -/
def Obligations.SetupRealFlattensTheCaches : Prop :=
  Op.setupReal.code = 0x11 ∧
  ∀ s : State, s.accepting = true →
    (s.regs.efer.toNat / 2 ^ 10 % 2 = 0 →
      ∃ regs : Regs,
        exec .setupReal s = .next { s with regs := regs, response := some ⟨.ok, .nothing⟩ } ∧
        (∀ n : Sreg, n ∉ [Sreg.ldtr, .tr] ∨ s.cfg.realSetsSystemSegs = true → regs.getSeg n =
          { base := 0, limit := 0xFFFF, selector := 0, type := 0x3, s := 1, dpl := 0, p := 1, rsvd := 0, avl := 0, l := 0
            db := 0, g := 0 }) ∧
        (∀ n : Sreg, n ∈ [Sreg.ldtr, .tr] → s.cfg.realSetsSystemSegs = false → regs.getSeg n = s.regs.getSeg n) ∧
        (∀ n : Scalar, regs.getScalar n = s.regs.getScalar n) ∧
        (∀ t : TableReg, regs.getTable t = s.regs.getTable t) ∧
        regs.rflags = s.regs.rflags ∧ regs.cr4 = s.regs.cr4 ∧ regs.efer = s.regs.efer ∧
        regs.cr0 = s.regs.cr0 &&& ~~~ (1 : BitVec 64)) ∧
    (s.regs.efer.toNat / 2 ^ 10 % 2 = 1 → exec .setupReal s = .next (s.failedWith .preconditionViolation))

/-- SETUP_GDT with its precondition and offsets that fit (R214 to R216, 70_reset_and_hazards.md R265): the arena grows by 104
zero bytes and the six-entry table, whose bytes are written out; `gdtr` describes the table, `cr0.pe` is set, `cs`, the five
data registers and `tr` hold what R217 and R218 print, `tr` based at the task-state segment, the reserved bits 0
(notes/assumptions/9.md); nothing else changes, and the table ends the arena. That the offsets must fit their fields is
notes/assumptions/10.md. -/
def Obligations.SetupGdtBuildsTheCanonicalTable : Prop :=
  Op.setupGdt.code = 0x12 ∧
  ∀ (s : State) (long : Bool) (n : Nat),
    s.accepting = true → s.mem.wf = true → s.regs.gdtr.base = 0 → s.regs.gdtr.limit = 0 →
    (long = true ↔ s.regs.efer.toNat / 2 ^ 10 % 2 = 1) → n = (if long then 56 else 48) →
    s.mem.len + 104 < 2 ^ 64 → (long = false → s.mem.len < 2 ^ 32) →
    (∀ m, s.cfg.memMax = some m → s.mem.len + 104 + n ≤ m) →
    ∃ (regs : Regs) (mem : Memory),
      exec .setupGdt s = .next { s with regs := regs, mem := mem, response := some ⟨.ok, .nothing⟩ } ∧
      mem.len = s.mem.len + 104 + n ∧ mem.wf = true ∧
      (∀ x, x < s.mem.len → mem.readByte x = s.mem.readByte x) ∧
      mem.read s.mem.len 104 = List.replicate 104 0 ∧
      mem.read (s.mem.len + 104) n =
        [0x00, 0x00, 0x00, 0x00, 0x00, 0x00, 0x00, 0x00] ++
        [0xFF, 0xFF, 0x00, 0x00, 0x00, 0x9B, if long then 0xAF else 0xCF, 0x00] ++
        [0xFF, 0xFF, 0x00, 0x00, 0x00, 0xFB, if long then 0xAF else 0xCF, 0x00] ++
        [0xFF, 0xFF, 0x00, 0x00, 0x00, 0x93, 0xCF, 0x00] ++ [0xFF, 0xFF, 0x00, 0x00, 0x00, 0xF3, 0xCF, 0x00] ++
        [0x67, 0x00] ++ leBytes 3 s.mem.len ++ [0x8B, 0x00] ++ leBytes 1 (s.mem.len / 2 ^ 24) ++
        (if long then leBytes 4 (s.mem.len / 2 ^ 32) ++ [0x00, 0x00, 0x00, 0x00] else []) ∧
      regs.gdtr.base.toNat = s.mem.len + 104 ∧ regs.gdtr.limit.toNat = n - 1 ∧
      regs.gdtr.base.toNat + regs.gdtr.limit.toNat + 1 = mem.len ∧
      regs.cs = { base := 0, limit := 0xFFFFFFFF, selector := 0x0008, type := 0xB, s := 1, dpl := 0, p := 1
                  rsvd := 0, avl := 0, l := if long then 1 else 0, db := if long then 0 else 1, g := 1 } ∧
      (∀ r ∈ [Sreg.ss, .ds, .es, .fs, .gs], regs.getSeg r =
        { base := 0, limit := 0xFFFFFFFF, selector := 0x0018, type := 0x3, s := 1, dpl := 0, p := 1
          rsvd := 0, avl := 0, l := 0, db := 1, g := 1 }) ∧
      regs.tr = { base := BitVec.ofNat 64 s.mem.len, limit := 0x67, selector := 0x0028, type := 0xB, s := 0, dpl := 0, p := 1
                  rsvd := 0, avl := 0, l := 0, db := 0, g := 0 } ∧
      regs.cr0 = s.regs.cr0 ||| 1 ∧
      regs.ldtr = s.regs.ldtr ∧ regs.idtr = s.regs.idtr ∧ regs.gdtr.rsvd = s.regs.gdtr.rsvd ∧
      regs.rflags = s.regs.rflags ∧ regs.cr4 = s.regs.cr4 ∧ regs.efer = s.regs.efer ∧
      ∀ r : Scalar, regs.getScalar r = s.regs.getScalar r

/-- SETUP_GDT right after CONSTRUCT (R217, R218): the whole state, byte for byte. -/
def Obligations.SetupGdtOnFreshStates : Prop :=
  ∀ (s : State) (arch : Arch), (∀ m, s.cfg.memMax = some m → (if arch = .a64 then 160 else 152) ≤ m) →
    ∃ (fresh t : State) (regs : Regs),
      exec (.construct arch) s = .next fresh ∧ exec .setupGdt fresh = .next t ∧
      t = { fresh with regs := regs, mem := t.mem, response := some ⟨.ok, .nothing⟩ } ∧
      t.mem.toBytes = List.replicate 112 0 ++
        [0xFF, 0xFF, 0x00, 0x00, 0x00, 0x9B, if arch = .a64 then 0xAF else 0xCF, 0x00] ++
        [0xFF, 0xFF, 0x00, 0x00, 0x00, 0xFB, if arch = .a64 then 0xAF else 0xCF, 0x00] ++
        [0xFF, 0xFF, 0x00, 0x00, 0x00, 0x93, 0xCF, 0x00] ++ [0xFF, 0xFF, 0x00, 0x00, 0x00, 0xF3, 0xCF, 0x00] ++
        [0x67, 0x00, 0x00, 0x00, 0x00, 0x8B, 0x00, 0x00] ++ (if arch = .a64 then List.replicate 8 0 else []) ∧
      regs = { fresh.regs with
        gdtr := { base := 104, limit := if arch = .a64 then 55 else 47, rsvd := 0 }
        cr0 := 0x1
        cs := { base := 0, limit := 0xFFFFFFFF, selector := 0x0008, type := 0xB, s := 1, dpl := 0, p := 1, rsvd := 0
                avl := 0, l := if arch = .a64 then 1 else 0, db := if arch = .a64 then 0 else 1, g := 1 }
        ss := { base := 0, limit := 0xFFFFFFFF, selector := 0x0018, type := 0x3, s := 1, dpl := 0, p := 1, rsvd := 0
                avl := 0, l := 0, db := 1, g := 1 }
        ds := regs.ss, es := regs.ss, fs := regs.ss, gs := regs.ss
        tr := { base := 0, limit := 0x67, selector := 0x0028, type := 0xB, s := 0, dpl := 0, p := 1, rsvd := 0
                avl := 0, l := 0, db := 0, g := 0 } }

/-- SETUP_IDT (R222): the descriptors' bytes are allocated and written contiguously at the end of the arena, `idtr` describes
them, and nothing else changes; the empty list and more than 65536 bytes fail with PreconditionViolation, and a table
beyond a bounded MEM_MAX (20_memory.md R51) or at an offset the base field cannot hold with OutOfBounds; a failure writes
nothing. That the offset must fit the base field is the model's reading (notes/assumptions/10.md). -/
def Obligations.SetupIdtInstallsTheTable : Prop :=
  Op.setupIdt.code = 0x13 ∧
  ∀ (s : State) (ds : List (List Byte)) (n : Nat),
    s.accepting = true → s.mem.wf = true → (∀ d ∈ ds, d.length = 8 ∨ d.length = 16) → n = ds.flatten.length →
    (1 ≤ n → n ≤ 65536 → s.mem.len < 2 ^ 64 → (∀ m, s.cfg.memMax = some m → s.mem.len + n ≤ m) →
      ∃ mem : Memory,
        exec (.setupIdt ds) s = .next { s with
          regs := { s.regs with idtr :=
            { base := BitVec.ofNat 64 s.mem.len, limit := BitVec.ofNat 16 (n - 1), rsvd := s.regs.idtr.rsvd } }
          mem := mem, response := some ⟨.ok, .nothing⟩ } ∧
        mem.len = s.mem.len + n ∧ mem.read s.mem.len n = ds.flatten ∧
        ∀ x, x < s.mem.len → mem.readByte x = s.mem.readByte x) ∧
    (1 ≤ n → n ≤ 65536 → (2 ^ 64 ≤ s.mem.len ∨ ∃ m, s.cfg.memMax = some m ∧ m < s.mem.len + n) →
      exec (.setupIdt ds) s = .next (s.failedWith .outOfBounds)) ∧
    (n = 0 ∨ 65536 < n → exec (.setupIdt ds) s = .next (s.failedWith .preconditionViolation))

/-- SETUP_PAGING out of long mode (R226, R227): a directory of 1024 entries at the next multiple of 4096, entry `i` the number
`(i << 22) | 0x87`; `cr3` takes its address, `cr4.pse` and `cr0.pg` are set, nothing else changes. -/
def Obligations.SetupPagingBuildsTheLegacyDirectory : Prop :=
  Op.setupPaging.code = 0x14 ∧
  ∀ (s : State) (pd : Nat),
    s.accepting = true → s.mem.wf = true → s.regs.cr0.toNat / 2 ^ 31 % 2 = 0 → s.regs.efer.toNat / 2 ^ 10 % 2 = 0 →
    pd % 4096 = 0 → s.mem.len ≤ pd → pd < s.mem.len + 4096 → pd < 2 ^ 32 →
    (∀ m, s.cfg.memMax = some m → pd + 4096 ≤ m) →
    ∃ mem : Memory,
      exec .setupPaging s = .next { s with
        regs := { s.regs with
          cr3 := BitVec.ofNat 64 pd, cr4 := s.regs.cr4 ||| 0x10, cr0 := s.regs.cr0 ||| 0x80000000 }
        mem := mem, response := some ⟨.ok, .nothing⟩ } ∧
      mem.len = pd + 4096 ∧
      (∀ x, x < s.mem.len → mem.readByte x = s.mem.readByte x) ∧
      (∀ x, s.mem.len ≤ x → x < pd → mem.readByte x = some 0) ∧
      ∀ i, i < 1024 → mem.read (pd + 4 * i) 4 = leBytes 4 (i * 2 ^ 22 + 0x87)

/-- SETUP_PAGING in long mode (R226, R228): a top-level table at the next multiple of 4096 whose entry 0 points to the
second-level table after it and whose other entries are 0, and 512 second-level entries, entry `i` the number `(i << 30) |
0x87`; `cr3`, `cr4.pae`, `cr4.pse` and `cr0.pg` as in the rule, nothing else. -/
def Obligations.SetupPagingBuildsTheLongModeTables : Prop :=
  Op.setupPaging.code = 0x14 ∧
  ∀ (s : State) (top : Nat),
    s.accepting = true → s.mem.wf = true → s.regs.cr0.toNat / 2 ^ 31 % 2 = 0 → s.regs.efer.toNat / 2 ^ 10 % 2 = 1 →
    top % 4096 = 0 → s.mem.len ≤ top → top < s.mem.len + 4096 → top + 4096 < 2 ^ 52 →
    (∀ m, s.cfg.memMax = some m → top + 8192 ≤ m) →
    ∃ mem : Memory,
      exec .setupPaging s = .next { s with
        regs := { s.regs with
          cr3 := BitVec.ofNat 64 top, cr4 := s.regs.cr4 ||| 0x30, cr0 := s.regs.cr0 ||| 0x80000000 }
        mem := mem, response := some ⟨.ok, .nothing⟩ } ∧
      mem.len = top + 8192 ∧
      (∀ x, x < s.mem.len → mem.readByte x = s.mem.readByte x) ∧
      (∀ x, s.mem.len ≤ x → x < top → mem.readByte x = some 0) ∧
      mem.read top 8 = leBytes 8 (top + 4096 + 0x07) ∧
      (∀ x, top + 8 ≤ x → x < top + 4096 → mem.readByte x = some 0) ∧
      ∀ i, i < 512 → mem.read (top + 4096 + 8 * i) 8 = leBytes 8 (i * 2 ^ 30 + 0x87)

/-- The identity map (43_pte_encoders_and_walk.md R184): after a completed SETUP_PAGING, WALK32 maps every 32-bit address to
itself through a 4-megabyte page out of long mode; in long mode WALK64 maps every address below `2^39` to itself through a
1-gigabyte page and finds every other canonical address not present at the top level. -/
def Obligations.SetupPagingMapsAddressesToThemselves : Prop :=
  ∀ s t : State, s.accepting = true → s.mem.wf = true → exec .setupPaging s = .next t → t.fault = none →
    (s.regs.efer.toNat / 2 ^ 10 % 2 = 0 →
      ∀ va : BitVec 32, exec (.walk32 va) t = .next (t.respond .ok (.walk (.mapped va.toNat .size4M)))) ∧
    (s.regs.efer.toNat / 2 ^ 10 % 2 = 1 →
      (∀ va : BitVec 64, va.toNat < 2 ^ 39 →
        exec (.walk64 va) t = .next (t.respond .ok (.walk (.mapped va.toNat .size1G)))) ∧
      ∀ va : BitVec 64, 2 ^ 39 ≤ va.toNat → va.toNat < 2 ^ 47 ∨ 2 ^ 64 - 2 ^ 47 ≤ va.toNat →
        exec (.walk64 va) t = .next (t.respond .ok (.walk (.notPresent .pml4))))

/-- SETUP_GDT then SETUP_PAGING right after CONSTRUCT (R229): where the tables lie, the arena's length and the control
registers. -/
def Obligations.ProtectedThenPagedOnFreshStates : Prop :=
  ∀ (s : State) (arch : Arch), (∀ m, s.cfg.memMax = some m → 12288 ≤ m) →
    ∃ fresh flat t : State,
      exec (.construct arch) s = .next fresh ∧ exec .setupGdt fresh = .next flat ∧ exec .setupPaging flat = .next t ∧
      t.fault = none ∧ t.mem.len = (if arch = .a64 then 12288 else 8192) ∧
      (∀ x, flat.mem.len ≤ x → x < 4096 → t.mem.readByte x = some 0) ∧
      t.regs.cr3 = 0x1000 ∧ t.regs.cr4 = (if arch = .a64 then 0x30 else 0x10) ∧ t.regs.cr0 = 0x80000001 ∧
      t.regs.efer = (if arch = .a64 then 0x500 else 0) ∧
      (arch = .a64 → t.mem.read 4096 8 = [0x07, 0x20, 0x00, 0x00, 0x00, 0x00, 0x00, 0x00])

/-- The failures of SETUP_GDT and SETUP_PAGING (R214, R226, 20_memory.md R51, 60_exceptions.md R243): the precondition comes
first and then nothing is written; a first allocation beyond a bounded MEM_MAX fails with OutOfBounds and allocates nothing;
a second one, or a table that cannot be encoded, fails with OutOfBounds after the allocations made, which stay made; no failure
writes a register. Where in the two commands the checks that a table can be encoded stand is the model's choice
(notes/assumptions/10.md, 11.md). -/
def Obligations.SetupFailuresKeepTheRegisters : Prop :=
  (∀ (s : State) (long : Bool) (n fits : Nat), s.accepting = true → (long = true ↔ s.regs.efer.toNat / 2 ^ 10 % 2 = 1) →
    n = (if long then 56 else 48) → fits = (if long then 2 ^ 64 else 2 ^ 32) →
    (¬ (s.regs.gdtr.base = 0 ∧ s.regs.gdtr.limit = 0) →
      exec .setupGdt s = .next (s.failedWith .preconditionViolation)) ∧
    (s.regs.gdtr.base = 0 → s.regs.gdtr.limit = 0 →
      ((∃ m, s.cfg.memMax = some m ∧ m < s.mem.len + 104) → exec .setupGdt s = .next (s.failedWith .outOfBounds)) ∧
      ((∀ m, s.cfg.memMax = some m → s.mem.len + 104 ≤ m) → fits ≤ s.mem.len →
        exec .setupGdt s = .next ({ s with mem := { s.mem with len := s.mem.len + 104 } }.failedWith .outOfBounds)) ∧
      ((∃ m, s.cfg.memMax = some m ∧ s.mem.len + 104 ≤ m ∧ m < s.mem.len + 104 + n) → s.mem.len < fits →
        exec .setupGdt s = .next ({ s with mem := { s.mem with len := s.mem.len + 104 } }.failedWith .outOfBounds)) ∧
      ((∀ m, s.cfg.memMax = some m → s.mem.len + 104 + n ≤ m) → s.mem.len < fits → 2 ^ 64 ≤ s.mem.len + 104 →
        exec .setupGdt s =
          .next ({ s with mem := { s.mem with len := s.mem.len + 104 + n } }.failedWith .outOfBounds)))) ∧
  ∀ (s : State) (a : Nat), s.accepting = true → a % 4096 = 0 → s.mem.len ≤ a → a < s.mem.len + 4096 →
    (s.regs.cr0.toNat / 2 ^ 31 % 2 = 1 → exec .setupPaging s = .next (s.failedWith .preconditionViolation)) ∧
    (s.regs.cr0.toNat / 2 ^ 31 % 2 = 0 →
      ((∃ m, s.cfg.memMax = some m ∧ m < a + 4096) → exec .setupPaging s = .next (s.failedWith .outOfBounds)) ∧
      (s.regs.efer.toNat / 2 ^ 10 % 2 = 0 → (∀ m, s.cfg.memMax = some m → a + 4096 ≤ m) → 2 ^ 32 ≤ a →
        exec .setupPaging s = .next ({ s with mem := { s.mem with len := a + 4096 } }.failedWith .outOfBounds)) ∧
      (s.regs.efer.toNat / 2 ^ 10 % 2 = 1 → (∃ m, s.cfg.memMax = some m ∧ a + 4096 ≤ m ∧ m < a + 8192) →
        exec .setupPaging s = .next ({ s with mem := { s.mem with len := a + 4096 } }.failedWith .outOfBounds)) ∧
      (s.regs.efer.toNat / 2 ^ 10 % 2 = 1 → (∀ m, s.cfg.memMax = some m → a + 8192 ≤ m) → 2 ^ 52 ≤ a + 4096 →
        exec .setupPaging s = .next ({ s with mem := { s.mem with len := a + 8192 } }.failedWith .outOfBounds)))

/-! Table addresses and walks (43_pte_encoders_and_walk.md). -/

/-- DESC_ADDR (R176): the base plus the selector with its low three bits cleared, with no check at all. -/
def Obligations.DescAddrAddsTheMaskedSelector : Prop :=
  ∀ (s : State) (selector : BitVec 16), s.accepting = true →
    Op.descAddr.code = 0x18 ∧
    exec (.descAddr selector) s =
      .next (s.respond .ok (.addr (s.regs.gdtr.base.toNat + selector.toNat / 8 * 8)))

/-- WALK32 (R181): the answer for the directory entry the address selects, or OutOfBounds where the entry lies outside the
arena. That bits 21:12 of a large entry must be 0, as R181 says and 30_encoding.md R85 denies, is the model's choice between
the two rules (notes/assumptions/17.md). -/
def Obligations.Walk32AnswersTheDirectoryEntry : Prop :=
  ∀ (s : State) (va : BitVec 32) (a e : Nat), s.accepting = true →
    a = s.regs.cr3.toNat / 2 ^ 12 % 2 ^ 20 * 4096 + 4 * (va.toNat / 2 ^ 22) → e = fromLE (s.mem.read a 4) →
    Op.walk32.code = 0x19 ∧
    exec (.walk32 va) s = .next
      (if s.mem.len < a + 4 then s.failedWith .outOfBounds
      else s.respond .ok (.walk
        (if e % 2 = 0 then .notPresent .pd32
        else if e / 2 ^ 7 % 2 = 0 then .unsupported .pd32
        else if s.regs.cr4.toNat / 2 ^ 4 % 2 = 0 then .unsupported .pd32
        else if e / 2 ^ 12 % 2 ^ 10 ≠ 0 then .unsupported .pd32
        else .mapped (e / 2 ^ 22 * 2 ^ 22 + va.toNat % 2 ^ 22) .size4M)))

/-- WALK64 (R182, R183): the four levels, each read from the table the level above names, or OutOfBounds where an entry that
has to be read lies outside the arena. That the root is `cr3[51:12]`, as R183 says, and not 10_state.md R29's `cr3[63:12]` is
the model's choice between the two rules (notes/assumptions/16.md). -/
def Obligations.Walk64FollowsTheFourLevels : Prop :=
  ∀ (s : State) (va : BitVec 64) (a4 e4 a3 e3 a2 e2 a1 e1 : Nat), s.accepting = true →
    a4 = s.regs.cr3.toNat / 2 ^ 12 % 2 ^ 40 * 4096 + 8 * (va.toNat / 2 ^ 39 % 2 ^ 9) → e4 = fromLE (s.mem.read a4 8) →
    a3 = e4 / 2 ^ 12 % 2 ^ 40 * 4096 + 8 * (va.toNat / 2 ^ 30 % 2 ^ 9) → e3 = fromLE (s.mem.read a3 8) →
    a2 = e3 / 2 ^ 12 % 2 ^ 40 * 4096 + 8 * (va.toNat / 2 ^ 21 % 2 ^ 9) → e2 = fromLE (s.mem.read a2 8) →
    a1 = e2 / 2 ^ 12 % 2 ^ 40 * 4096 + 8 * (va.toNat / 2 ^ 12 % 2 ^ 9) → e1 = fromLE (s.mem.read a1 8) →
    Op.walk64.code = 0x1A ∧
    exec (.walk64 va) s = .next
      (if 2 ^ 47 ≤ va.toNat ∧ va.toNat < 2 ^ 64 - 2 ^ 47 then s.respond .ok (.walk .nonCanonical)
      else if s.mem.len < a4 + 8 then s.failedWith .outOfBounds
      else if e4 % 2 = 0 then s.respond .ok (.walk (.notPresent .pml4))
      else if e4 / 2 ^ 7 % 2 = 1 then s.respond .ok (.walk (.unsupported .pml4))
      else if s.mem.len < a3 + 8 then s.failedWith .outOfBounds
      else if e3 % 2 = 0 then s.respond .ok (.walk (.notPresent .pdpt))
      else if e3 / 2 ^ 7 % 2 = 1 then
        (if e3 / 2 ^ 12 % 2 ^ 18 ≠ 0 then s.respond .ok (.walk (.unsupported .pdpt))
        else s.respond .ok (.walk (.mapped (e3 / 2 ^ 30 % 2 ^ 22 * 2 ^ 30 + va.toNat % 2 ^ 30) .size1G)))
      else if s.mem.len < a2 + 8 then s.failedWith .outOfBounds
      else if e2 % 2 = 0 then s.respond .ok (.walk (.notPresent .pd))
      else if e2 / 2 ^ 7 % 2 = 1 then
        (if e2 / 2 ^ 12 % 2 ^ 9 ≠ 0 then s.respond .ok (.walk (.unsupported .pd))
        else s.respond .ok (.walk (.mapped (e2 / 2 ^ 21 % 2 ^ 31 * 2 ^ 21 + va.toNat % 2 ^ 21) .size2M)))
      else if s.mem.len < a1 + 8 then s.failedWith .outOfBounds
      else if e1 % 2 = 0 then s.respond .ok (.walk (.notPresent .pt))
      else s.respond .ok (.walk (.mapped (e1 / 2 ^ 12 % 2 ^ 40 * 2 ^ 12 + va.toNat % 2 ^ 12) .size4K)))

/-! The latch (60_exceptions.md) and the whole machine. -/

/-- While the latch is set (R244): a state command is answered Faulted and changes nothing, CONSTRUCT and LOADIMG complete and
clear the latch, and a pure command answers what it answers with the latch clear. -/
def Obligations.LatchRefusesStateCommandsOnly : Prop :=
  ∀ (s : State) (k : FailKind) (i : Instr), s.fault = some k → i.wellFormed = true →
    (i.op.isState = true → exec i s = .next { s with response := some ⟨.faulted, .nothing⟩ }) ∧
    (i.op.startsOver = true → ∃ t : State, exec i s = .next t ∧ t.fault = none ∧ t.response = some ⟨.ok, .nothing⟩) ∧
    (i.op.isPure = true → ∃ r : Result, exec i s = .next (s.respond .ok r) ∧
      exec i { s with fault := none } = .next ({ s with fault := none }.respond .ok r))

/-- Before the first CONSTRUCT or LOADIMG (70_reset_and_hazards.md R262) a state command is answered Faulted and changes
nothing, and only those two commands end that. -/
def Obligations.NothingRunsBeforeConstruct : Prop :=
  ∀ (s t : State) (i : Instr), s.constructed = false → i.wellFormed = true →
    (i.op.isState = true → exec i s = .next { s with response := some ⟨.faulted, .nothing⟩ }) ∧
    (exec i s = .next t → (t.constructed = true ↔ i.op.startsOver = true))

/-- Failure entry (R243, R245): a command answered with a failure is a state command issued while the latch was clear, and
leaves that kind in the latch; except for SETUP_GDT and SETUP_PAGING it changes nothing else. The latch takes a value no other
way, and is cleared by CONSTRUCT and LOADIMG alone. -/
def Obligations.FailureLatchesItsKindOnce : Prop :=
  ∀ (s t : State) (i : Instr), exec i s = .next t →
    (∀ (k : FailKind) (r : Result), t.response = some ⟨.failed k, r⟩ →
      i.op.isState = true ∧ s.accepting = true ∧ t.fault = some k ∧
      (i.op ≠ .setupGdt → i.op ≠ .setupPaging → t = s.failedWith k)) ∧
    (t.fault ≠ s.fault →
      (∃ k, t.fault = some k ∧ t.response = some ⟨.failed k, .nothing⟩) ∨ (i.op.startsOver = true ∧ t.fault = none))

/-- A failing command writes no register and no byte that existed (R243; the inner loads of SETUP_GDT cannot fail,
45_mode_setup.md R214): only the latch, the answer and, in a setup, the arena's length change. -/
def Obligations.FailingCommandKeepsRegistersAndBytes : Prop :=
  ∀ (s t : State) (i : Instr) (k : FailKind) (r : Result), s.mem.wf = true →
    exec i s = .next t → t.response = some ⟨.failed k, r⟩ →
    t.regs = s.regs ∧ t.draws = s.draws ∧ t.constructed = s.constructed ∧ s.mem.len ≤ t.mem.len ∧
    (∀ x, x < s.mem.len → t.mem.readByte x = s.mem.readByte x) ∧
    ∀ x, s.mem.len ≤ x → x < t.mem.len → t.mem.readByte x = some 0

/-- The commands that write no state (R121, R124, R112, R176, R181, R183, 42_descriptor_encoders.md R130) change nothing but
the answer, and the latch where they fail. -/
def Obligations.ReadingCommandsChangeNothing : Prop :=
  ∀ (s t : State) (i : Instr),
    (i.op.isPure = true ∨ i.op ∈ [Op.mread, .rget, .raw, .descAddr, .walk32, .walk64]) → exec i s = .next t →
    t = { s with fault := t.fault, response := t.response } ∧ (i.op.isPure = true → t.fault = s.fault)

/-- The arena's canonical form is kept by every step (the invariant the statements about memory ask for): addresses strictly
rising, each below the length, no cell that holds what an unlisted address reads as. -/
def Obligations.EveryStepKeepsTheArenaCanonical : Prop :=
  ∀ s t : State, s.mem.wf = true → step s = .next t → t.mem.wf = true

/-- The state before the first command: nothing constructed, no latch, nothing issued or answered, an empty canonical arena,
and the fixed bits as the spec fixes them. The register values before CONSTRUCT are the model's choice
(notes/assumptions/6.md). -/
def Obligations.ResetMeetsTheInvariants : Prop :=
  State.reset.mem.wf = true ∧ State.reset.mem.len = 0 ∧ State.reset.regs.fixedOk = true ∧
  State.reset.constructed = false ∧ State.reset.fault = none ∧ State.reset.port = [] ∧ State.reset.response = none ∧
  State.reset.regs = constructRegs .a32

/-- Every fixed and reserved bit outside the segment caches keeps its value in every step that does not run LOADIMG or
CONSTRUCT (10_state.md R34); the reserved bits of a cache keep it or become 0, which is what a record written whole holds
(notes/assumptions/9.md). CONSTRUCT gives every such bit the value the spec fixes; so the invariant of
70_reset_and_hazards.md R264 holds until a LOADIMG. -/
def Obligations.OnlyLoadimgMovesFixedBits : Prop :=
  (∀ s t : State,
    (∀ (frame : List Byte) (rest : List (List Byte)) (i : Instr),
      s.port = frame :: rest → decodeFrame frame = some i → i.op.startsOver = false) →
    step s = .next t → t.regs.fixedBits.outsideCaches = s.regs.fixedBits.outsideCaches ∧
      ∀ n : Sreg, (t.regs.getSeg n).rsvd = (s.regs.getSeg n).rsvd ∨ (t.regs.getSeg n).rsvd = 0) ∧
  ∀ s t : State,
    (∀ (frame : List Byte) (rest : List (List Byte)) (i : Instr),
      s.port = frame :: rest → decodeFrame frame = some i → i.op ≠ .loadimg) →
    s.regs.fixedOk = true → step s = .next t → t.regs.fixedOk = true

/-- The arena only grows and its bytes change only by an explicit overwrite at the same address (10_state.md R35): short of
CONSTRUCT and LOADIMG the length never falls, it rises only by ALLOC and the three setups that allocate, and a byte that
existed changes only under an MWRITE whose range holds it. -/
def Obligations.ArenaOnlyGrowsAndKeepsItsBytes : Prop :=
  ∀ (s t : State) (i : Instr), s.mem.wf = true → i.op.startsOver = false → exec i s = .next t →
    s.mem.len ≤ t.mem.len ∧
    (i.op ∉ [Op.alloc, .setupGdt, .setupIdt, .setupPaging] → t.mem.len = s.mem.len) ∧
    ∀ x, x < s.mem.len →
      (∀ addr bytes, i = .mwrite addr bytes → x < addr ∨ addr + bytes.length ≤ x) →
      t.mem.readByte x = s.mem.readByte x

/-- Which commands write which registers, short of CONSTRUCT and LOADIMG (10_state.md R22 to R24, R26 to R30, R32, R33, R37):
a plain scalar only an RSET that names it, and `cr3` also SETUP_PAGING; `rflags` and `efer` only an RSET of one of their
fields; `cr0` also the three setups; `cr4` also SETUP_PAGING; a segment cache only an RSET or LOAD_SEG that names it,
SETUP_REAL and SETUP_GDT; `gdtr` and `idtr` only an RSET and their setup. -/
def Obligations.RegistersChangeOnlyByTheirCommands : Prop :=
  ∀ (s t : State) (i : Instr), i.op.startsOver = false → exec i s = .next t →
    (∀ n : Scalar, (∀ v, i ≠ .rset (.scalar n) v) → (n = .cr3 → i ≠ .setupPaging) →
      t.regs.getScalar n = s.regs.getScalar n) ∧
    ((∀ f v, i ≠ .rset (.rflags f) v) → t.regs.rflags = s.regs.rflags) ∧
    ((∀ f v, i ≠ .rset (.efer f) v) → t.regs.efer = s.regs.efer) ∧
    ((∀ f v, i ≠ .rset (.cr0 f) v) → i ∉ [Instr.setupReal, .setupGdt, .setupPaging] → t.regs.cr0 = s.regs.cr0) ∧
    ((∀ f v, i ≠ .rset (.cr4 f) v) → i ≠ .setupPaging → t.regs.cr4 = s.regs.cr4) ∧
    (∀ n : Sreg, (∀ c v, i ≠ .rset (.seg n c) v) → (∀ sel, i ≠ .loadSeg n sel) → i ∉ [Instr.setupReal, .setupGdt] →
      t.regs.getSeg n = s.regs.getSeg n) ∧
    ((∀ v, i ≠ .rset (.tableBase .gdtr) v) → (∀ v, i ≠ .rset (.tableLimit .gdtr) v) → i ≠ .setupGdt →
      t.regs.gdtr = s.regs.gdtr) ∧
    ((∀ v, i ≠ .rset (.tableBase .idtr) v) → (∀ v, i ≠ .rset (.tableLimit .idtr) v) → (∀ ds, i ≠ .setupIdt ds) →
      t.regs.idtr = s.regs.idtr)

/-- The idiom APPEND_DESC (70_reset_and_hazards.md R266): while the global table ends the arena, ALLOC, MWRITE and RSET of the
limit append a descriptor of 8 or 16 bytes; the allocation answers the offset after the table, the bytes lie there, the table
still ends the arena, and DESC_ADDR of the new selector is that offset. -/
def Obligations.AppendingADescriptorExtendsTheTable : Prop :=
  ∀ (s : State) (bytes : List Byte) (a limit : Nat),
    s.accepting = true → s.mem.wf = true → bytes.length = 8 ∨ bytes.length = 16 →
    s.regs.gdtr.base.toNat + s.regs.gdtr.limit.toNat + 1 = s.mem.len → a = s.mem.len →
    limit = s.regs.gdtr.limit.toNat + bytes.length → limit < 2 ^ 16 → (s.regs.gdtr.limit.toNat + 1) % 8 = 0 →
    (∀ m, s.cfg.memMax = some m → a + bytes.length ≤ m) →
    ∃ s1 s2 s3 : State,
      exec (.alloc bytes.length 1) s = .next s1 ∧ s1.response = some ⟨.ok, .addr a⟩ ∧
      exec (.mwrite a bytes) s1 = .next s2 ∧ s2.response = some ⟨.ok, .nothing⟩ ∧
      exec (.rset (.tableLimit .gdtr) (BitVec.ofNat 64 limit)) s2 = .next s3 ∧ s3.response = some ⟨.ok, .nothing⟩ ∧
      s3.mem.read a bytes.length = bytes ∧
      s3.regs.gdtr.base.toNat + s3.regs.gdtr.limit.toNat + 1 = s3.mem.len ∧
      exec (.descAddr (BitVec.ofNat 16 (a - s.regs.gdtr.base.toNat))) s3 = .next (s3.respond .ok (.addr a))
end

