-- ==== Sys2Proof/Laws/Bytes.lean ====
section
/-! SUPPORT. Little-endian images and their inverse. -/

namespace Sys2Proof

@[simp] theorem leBytes_length (n v : Nat) : (leBytes n v).length = n := by
  induction n generalizing v with
  | zero => rfl
  | succ n ih => simp [leBytes, ih]

@[simp] theorem leBits_length {w : Nat} (n : Nat) (v : BitVec w) : (leBits n v).length = n := leBytes_length n _

@[simp] theorem zeroBytes_length (n : Nat) : (zeroBytes n).length = n := by simp [zeroBytes]

theorem fromLE_lt (b : List Byte) : fromLE b < 256 ^ b.length := by
  induction b with
  | nil => simp [fromLE]
  | cons x t ih =>
    have hx : x.toNat < 256 := x.isLt
    simp only [fromLE, List.length_cons, Nat.pow_succ]
    omega

theorem fromLE_leBytes (n v : Nat) : fromLE (leBytes n v) = v % 256 ^ n := by
  induction n generalizing v with
  | zero => simp [leBytes, fromLE, Nat.mod_one]
  | succ n ih =>
    simp only [leBytes, fromLE, ih, BitVec.toNat_ofNat]
    have h : v % 256 ^ (n + 1) = v % 256 + 256 * (v / 256 % 256 ^ n) := by
      rw [Nat.pow_succ, Nat.mul_comm (256 ^ n) 256, Nat.mod_mul]
    rw [h]

theorem leBytes_fromLE (b : List Byte) : leBytes b.length (fromLE b) = b := by
  induction b with
  | nil => rfl
  | cons x t ih =>
    have hx : x.toNat < 256 := x.isLt
    have hd : (x.toNat + 256 * fromLE t) / 256 = fromLE t := by omega
    have hm : BitVec.ofNat 8 (x.toNat + 256 * fromLE t) = x := by
      apply BitVec.eq_of_toNat_eq
      simp only [BitVec.toNat_ofNat]
      omega
    simp [leBytes, fromLE, hd, hm, ih]

/-- A value of `w` bits comes back from any image wide enough for it. -/
theorem ofNat_fromLE_leBits {w n : Nat} (v : BitVec w) (h : w ≤ 8 * n) : BitVec.ofNat w (fromLE (leBits n v)) = v := by
  apply BitVec.eq_of_toNat_eq
  have hv : v.toNat < 256 ^ n := by
    calc v.toNat < 2 ^ w := v.isLt
      _ ≤ 2 ^ (8 * n) := Nat.pow_le_pow_right (by omega) h
      _ = 256 ^ n := by rw [Nat.pow_mul]
  simp [leBits, fromLE_leBytes, Nat.mod_eq_of_lt hv]

@[simp] theorem slice_length (b : List Byte) (i n : Nat) : (slice b i n).length = min n (b.length - i) := by
  simp [slice]

/-- A slice of an append that lies in its first part. -/
theorem slice_append_left {a b : List Byte} {i n : Nat} (h : i + n ≤ a.length) : slice (a ++ b) i n = slice a i n := by
  unfold slice
  rw [List.drop_append_of_le_length (by omega), List.take_append_of_le_length (by simp; omega)]

/-- A slice of an append that lies in its second part. -/
theorem slice_append_right {a b : List Byte} {i n : Nat} (h : a.length ≤ i) :
    slice (a ++ b) i n = slice b (i - a.length) n := by
  unfold slice
  rw [List.drop_append, List.drop_of_length_le h, List.nil_append]

/-- The whole of a sequence is its slice from 0. -/
theorem slice_self {b : List Byte} {n : Nat} (h : b.length = n) : slice b 0 n = b := by
  simp [slice, ← h]

end Sys2Proof
end

