-- ==== Sys2Proof/Laws/Memory.lean ====
section
/-! SUPPORT. The arena: every operation keeps the canonical form, and what a read sees after a write. -/

namespace Sys2Proof.Machine

theorem cellsOk_mono {lo lo' hi hi' : Nat} {c : List Host.Cell} (h : cellsOk lo hi c) (hl : lo' ≤ lo) (hh : hi ≤ hi') :
    cellsOk lo' hi' c := by
  induction c generalizing lo lo' with
  | nil => rfl
  | cons x t ih =>
    obtain ⟨k, b⟩ := x
    simp only [cellsOk, Bool.and_eq_true, decide_eq_true_eq] at h ⊢
    exact ⟨⟨⟨by omega, by omega⟩, h.1.2⟩, ih h.2 (Nat.le_refl _)⟩

/-- Cells below `lo'` (and from `lo` on), then cells from `lo'` on. -/
theorem cellsOk_append {lo lo' mid hi : Nat} {c d : List Host.Cell} (hc : cellsOk lo mid c) (hd : cellsOk lo' hi d)
    (hm : mid ≤ lo') (hl : lo ≤ lo') (hh : mid ≤ hi) : cellsOk lo hi (c ++ d) := by
  induction c generalizing lo with
  | nil => exact cellsOk_mono hd hl (Nat.le_refl _)
  | cons x t ih =>
    obtain ⟨k, b⟩ := x
    simp only [List.cons_append, cellsOk, Bool.and_eq_true, decide_eq_true_eq] at hc ⊢
    exact ⟨⟨⟨hc.1.1.1, by omega⟩, hc.1.2⟩, ih hc.2 (by omega)⟩

theorem cellsOk_takeWhile {lo hi : Nat} {c : List Host.Cell} (h : cellsOk lo hi c) (a : Nat) :
    cellsOk lo (min a hi) (c.takeWhile fun x => decide (x.1 < a)) := by
  induction c generalizing lo with
  | nil => rfl
  | cons x t ih =>
    obtain ⟨k, b⟩ := x
    simp only [cellsOk, Bool.and_eq_true, decide_eq_true_eq] at h
    by_cases hk : k < a
    · simp only [List.takeWhile_cons, hk, decide_true, if_true, cellsOk, Bool.and_eq_true, decide_eq_true_eq]
      exact ⟨⟨⟨h.1.1.1, by omega⟩, h.1.2⟩, ih h.2⟩
    · simp [hk, cellsOk]

theorem cellsOk_dropWhile {lo hi : Nat} {c : List Host.Cell} (h : cellsOk lo hi c) (a : Nat) :
    cellsOk (max a lo) hi (c.dropWhile fun x => decide (x.1 < a)) := by
  induction c generalizing lo with
  | nil => rfl
  | cons x t ih =>
    obtain ⟨k, b⟩ := x
    simp only [cellsOk, Bool.and_eq_true, decide_eq_true_eq] at h
    by_cases hk : k < a
    · simp only [List.dropWhile_cons, hk, decide_true, if_true]
      exact cellsOk_mono (ih h.2) (by omega) (Nat.le_refl _)
    · simp only [List.dropWhile_cons, hk, decide_false, Bool.false_eq_true, if_false, cellsOk, Bool.and_eq_true,
        decide_eq_true_eq]
      exact ⟨⟨⟨by omega, h.1.1.2⟩, h.1.2⟩, h.2⟩

theorem cellsOk_cellsOf (a : Nat) (v : List Byte) : cellsOk a (a + v.length) (cellsOf a v) := by
  induction v generalizing a with
  | nil => rfl
  | cons b t ih =>
    have h := ih (a + 1)
    rw [show a + 1 + t.length = a + (b :: t).length by simp; omega] at h
    by_cases hb : b = Memory.unlisted
    · simp only [cellsOf, hb, if_true]
      exact cellsOk_mono h (by omega) (Nat.le_refl _)
    · simp only [cellsOf, hb, if_false, cellsOk, Bool.and_eq_true, decide_eq_true_eq, bne_iff_ne, ne_eq, not_false_eq_true,
        and_true]
      exact ⟨⟨Nat.le_refl _, by simp⟩, h⟩

/-! The canonical form is kept. -/

@[simp] theorem Memory.wf_empty : Memory.empty.wf = true := rfl

theorem Memory.wf_write {m : Memory} (h : m.wf) {a : Nat} {v : List Byte} (hb : a + v.length ≤ m.len) :
    (m.write a v).wf := by
  have h1 := cellsOk_takeWhile h a
  have h2 := cellsOk_cellsOf a v
  have h3 := cellsOk_dropWhile h (a + v.length)
  exact cellsOk_append (cellsOk_append h1 h2 (by omega) (by omega) (by omega)) h3 (by omega) (by omega) hb

theorem Memory.wf_grow {m : Memory} (h : m.wf) {n : Nat} (hn : m.len ≤ n) : (m.grow n).wf :=
  cellsOk_mono h (Nat.le_refl _) hn

theorem Memory.wf_ofBytes (b : List Byte) : (Memory.ofBytes b).wf := by
  have h := cellsOk_cellsOf 0 b
  simpa [Memory.ofBytes, Memory.wf] using h

@[simp] theorem Memory.write_len (m : Memory) (a : Nat) (v : List Byte) : (m.write a v).len = m.len := rfl
@[simp] theorem Memory.grow_len (m : Memory) (n : Nat) : (m.grow n).len = n := rfl
@[simp] theorem Memory.ofBytes_len (b : List Byte) : (Memory.ofBytes b).len = b.length := rfl

/-! What a read sees. -/

theorem lookupCell_lt {lo hi : Nat} {c : List Host.Cell} (h : cellsOk lo hi c) {x : Nat} (hx : x < lo) :
    lookupCell c x = Memory.unlisted := by
  induction c generalizing lo with
  | nil => rfl
  | cons y t ih =>
    obtain ⟨k, b⟩ := y
    simp only [cellsOk, Bool.and_eq_true, decide_eq_true_eq] at h
    rw [lookupCell, if_neg (by omega), ih h.2 (by omega)]

theorem lookupCell_ge {lo hi : Nat} {c : List Host.Cell} (h : cellsOk lo hi c) {x : Nat} (hx : hi ≤ x) :
    lookupCell c x = Memory.unlisted := by
  induction c generalizing lo with
  | nil => rfl
  | cons y t ih =>
    obtain ⟨k, b⟩ := y
    simp only [cellsOk, Bool.and_eq_true, decide_eq_true_eq] at h
    rw [lookupCell, if_neg (by omega), ih h.2]

theorem lookupCell_append_lt {lo mid hi : Nat} {c d : List Host.Cell} (hd : cellsOk mid hi d) {x : Nat}
    (_hc : cellsOk lo mid c) (hx : x < mid) : lookupCell (c ++ d) x = lookupCell c x := by
  clear _hc
  induction c with
  | nil => exact lookupCell_lt hd hx
  | cons y t ih =>
    obtain ⟨k, b⟩ := y
    simp only [List.cons_append, lookupCell, ih]

theorem lookupCell_append_ge {lo mid : Nat} {c d : List Host.Cell} (hc : cellsOk lo mid c) {x : Nat} (hx : mid ≤ x) :
    lookupCell (c ++ d) x = lookupCell d x := by
  induction c generalizing lo with
  | nil => rfl
  | cons y t ih =>
    obtain ⟨k, b⟩ := y
    simp only [cellsOk, Bool.and_eq_true, decide_eq_true_eq] at hc
    rw [List.cons_append, lookupCell, if_neg (by omega), ih hc.2]

theorem lookupCell_cellsOf (a : Nat) (v : List Byte) (x : Nat) :
    lookupCell (cellsOf a v) x = if a ≤ x then v.getD (x - a) Memory.unlisted else Memory.unlisted := by
  induction v generalizing a with
  | nil => simp [cellsOf, lookupCell]
  | cons b t ih =>
    by_cases hb : b = Memory.unlisted
    · simp only [cellsOf, hb, if_true, ih]
      rcases Nat.lt_trichotomy a x with h | h | h
      · obtain ⟨d, rfl⟩ : ∃ d, x = a + 1 + d := ⟨x - a - 1, by omega⟩
        rw [if_pos (by omega), if_pos (by omega), show a + 1 + d - (a + 1) = d by omega,
          show a + 1 + d - a = d + 1 by omega, List.getD_cons_succ]
      · subst h
        simp
      · rw [if_neg (by omega), if_neg (by omega)]
    · simp only [cellsOf, hb, if_false, lookupCell, ih]
      rcases Nat.lt_trichotomy a x with h | h | h
      · obtain ⟨d, rfl⟩ : ∃ d, x = a + 1 + d := ⟨x - a - 1, by omega⟩
        rw [if_neg (by omega), if_pos (by omega), if_pos (by omega), show a + 1 + d - (a + 1) = d by omega,
          show a + 1 + d - a = d + 1 by omega, List.getD_cons_succ]
      · subst h
        simp
      · rw [if_neg (by omega), if_neg (by omega), if_neg (by omega)]

theorem lookupCell_takeWhile {lo hi : Nat} {c : List Host.Cell} (h : cellsOk lo hi c) {a x : Nat} (hx : x < a) :
    lookupCell (c.takeWhile fun y => decide (y.1 < a)) x = lookupCell c x := by
  induction c generalizing lo with
  | nil => rfl
  | cons y t ih =>
    obtain ⟨k, b⟩ := y
    simp only [cellsOk, Bool.and_eq_true, decide_eq_true_eq] at h
    by_cases hk : k < a
    · simp only [List.takeWhile_cons, hk, decide_true, if_true, lookupCell, ih h.2]
    · simp only [List.takeWhile_cons, hk, decide_false, Bool.false_eq_true, if_false]
      rw [lookupCell, lookupCell, if_neg (by omega), lookupCell_lt h.2 (by omega)]

theorem lookupCell_dropWhile {lo hi : Nat} {c : List Host.Cell} (h : cellsOk lo hi c) {a x : Nat} (hx : a ≤ x) :
    lookupCell (c.dropWhile fun y => decide (y.1 < a)) x = lookupCell c x := by
  induction c generalizing lo with
  | nil => rfl
  | cons y t ih =>
    obtain ⟨k, b⟩ := y
    simp only [cellsOk, Bool.and_eq_true, decide_eq_true_eq] at h
    by_cases hk : k < a
    · simp only [List.dropWhile_cons, hk, decide_true, if_true]
      rw [ih h.2, lookupCell, if_neg (by omega)]
    · simp [hk]

/-- Every byte after a write: the written ones are the written value, every other one is as before (20_memory.md R53). -/
theorem Memory.byte_write {m : Memory} (h : m.wf) (a : Nat) (v : List Byte) (x : Nat) :
    (m.write a v).byte x = if a ≤ x ∧ x < a + v.length then v.getD (x - a) 0 else m.byte x := by
  have h1 := cellsOk_takeWhile h a
  have h2 := cellsOk_cellsOf a v
  have h3 := cellsOk_dropWhile h (a + v.length)
  have h3' : cellsOk (a + v.length) (max (a + v.length) m.len) (m.cells.dropWhile fun y => decide (y.1 < a + v.length)) :=
    cellsOk_mono h3 (by omega) (by omega)
  have h12 : cellsOk 0 (a + v.length) (m.cells.takeWhile (fun y => decide (y.1 < a)) ++ cellsOf a v) :=
    cellsOk_append (cellsOk_mono h1 (Nat.le_refl _) (Nat.min_le_left _ _)) h2 (Nat.le_refl _) (by omega) (by omega)
  unfold Memory.byte Memory.write
  by_cases hx : x < a + v.length
  · rw [lookupCell_append_lt h3' h12 hx]
    by_cases hx' : a ≤ x
    · rw [lookupCell_append_ge (cellsOk_mono h1 (Nat.le_refl _) (Nat.min_le_left _ _)) hx', lookupCell_cellsOf,
        if_pos hx', if_pos ⟨hx', hx⟩]
      rfl
    · rw [lookupCell_append_lt h2 (cellsOk_mono h1 (Nat.le_refl _) (Nat.min_le_left _ _)) (by omega),
        lookupCell_takeWhile h (by omega), if_neg (by omega)]
  · rw [lookupCell_append_ge h12 (by omega), lookupCell_dropWhile h (by omega), if_neg (by omega)]

@[simp] theorem Memory.byte_grow (m : Memory) (n x : Nat) : (m.grow n).byte x = m.byte x := rfl

/-- A byte the arena does not hold yet is the zero `Alloc` gives it. -/
theorem Memory.byte_ge {m : Memory} (h : m.wf) {x : Nat} (hx : m.len ≤ x) : m.byte x = 0 := lookupCell_ge h hx

theorem Memory.byte_ofBytes (b : List Byte) (x : Nat) : (Memory.ofBytes b).byte x = b.getD x 0 := by
  simp only [Memory.byte, Memory.ofBytes, lookupCell_cellsOf, Nat.zero_le, if_true, Nat.sub_zero]
  rfl

@[simp] theorem bytesFrom_length (c : List Host.Cell) (a n : Nat) : (bytesFrom c a n).length = n := by
  induction n generalizing c a with
  | zero => rw [bytesFrom]; rfl
  | succ n ih =>
    cases c with
    | nil => simp [bytesFrom, ih]
    | cons x t =>
      obtain ⟨k, b⟩ := x
      simp only [bytesFrom]
      split <;> simp [ih]

theorem bytesFrom_getD {a hi : Nat} {c : List Host.Cell} (h : cellsOk a hi c) {n i : Nat} (hi' : i < n) :
    (bytesFrom c a n).getD i 0 = lookupCell c (a + i) := by
  induction n generalizing c a i with
  | zero => omega
  | succ n ih =>
    cases c with
    | nil =>
      cases i with
      | zero => rfl
      | succ i =>
        rw [bytesFrom, List.getD_cons_succ, ih (a := a + 1) (c := []) rfl (by omega)]
        rfl
    | cons x t =>
      obtain ⟨k, b⟩ := x
      have h' := h
      simp only [cellsOk, Bool.and_eq_true, decide_eq_true_eq] at h
      rw [bytesFrom]
      by_cases hk : k = a
      · rw [if_pos hk]
        cases i with
        | zero => simp [lookupCell, hk]
        | succ i =>
          rw [List.getD_cons_succ, ih (a := a + 1) (cellsOk_mono h.2 (by omega) (Nat.le_refl _)) (by omega), lookupCell,
            if_neg (by omega), show a + 1 + i = a + (i + 1) by omega]
      · rw [if_neg hk]
        cases i with
        | zero =>
          have hk' : cellsOk k hi ((k, b) :: t) := by
            simp only [cellsOk, Bool.and_eq_true, decide_eq_true_eq]
            exact ⟨⟨⟨Nat.le_refl _, h.1.1.2⟩, h.1.2⟩, h.2⟩
          rw [List.getD_cons_zero, lookupCell_lt hk' (by omega)]
        | succ i =>
          have hk' : cellsOk (a + 1) hi ((k, b) :: t) := by
            simp only [cellsOk, Bool.and_eq_true, decide_eq_true_eq]
            exact ⟨⟨⟨by omega, h.1.1.2⟩, h.1.2⟩, h.2⟩
          rw [List.getD_cons_succ, ih hk' (by omega), show a + 1 + i = a + (i + 1) by omega]

@[simp] theorem Memory.read_length (m : Memory) (a n : Nat) : (m.read a n).length = n := bytesFrom_length _ _ _

/-- A multi-byte read returns the single bytes. -/
theorem Memory.read_getD {m : Memory} (h : m.wf) (a : Nat) {n i : Nat} (hi : i < n) :
    (m.read a n).getD i 0 = m.byte (a + i) := by
  unfold Memory.read Memory.byte
  rw [bytesFrom_getD (cellsOk_mono (cellsOk_dropWhile h a) (by omega) (Nat.le_refl _)) hi,
    lookupCell_dropWhile h (by omega)]

/-- Two sequences of one length that agree byte by byte are equal. -/
theorem bytes_ext {a b : List Byte} (hl : a.length = b.length) (h : ∀ i, i < a.length → a.getD i 0 = b.getD i 0) : a = b := by
  apply List.ext_getElem hl
  intro i h1 h2
  have := h i h1
  simpa [List.getD_eq_getElem?_getD, List.getElem?_eq_getElem, h1, h2] using this

/-- A read depends on the bytes of its range only. -/
theorem Memory.read_congr {m m' : Memory} (h : m.wf) (h' : m'.wf) {a n : Nat} (hb : ∀ i, i < n → m.byte (a + i) = m'.byte (a + i)) :
    m.read a n = m'.read a n := by
  apply bytes_ext (by simp)
  intro i hi
  have hi' : i < n := by simpa using hi
  rw [Memory.read_getD h a hi', Memory.read_getD h' a hi', hb i hi']

/-- Reading what was just written. -/
theorem Memory.read_write_same {m : Memory} (h : m.wf) {a : Nat} {v : List Byte} (hb : a + v.length ≤ m.len) :
    (m.write a v).read a v.length = v := by
  apply bytes_ext (by simp)
  intro i hi
  have hi' : i < v.length := by simpa using hi
  rw [Memory.read_getD (Memory.wf_write h hb) a hi', Memory.byte_write h, if_pos ⟨by omega, by omega⟩,
    show a + i - a = i by omega]

/-- Reading a range a write does not touch. -/
theorem Memory.read_write_disjoint {m : Memory} (h : m.wf) {a x n : Nat} {v : List Byte} (hb : a + v.length ≤ m.len)
    (hd : x + n ≤ a ∨ a + v.length ≤ x) : (m.write a v).read x n = m.read x n := by
  apply Memory.read_congr (Memory.wf_write h hb) h
  intro i hi
  rw [Memory.byte_write h, if_neg (by omega)]

/-- The bytes of an arena built from a byte sequence. -/
theorem Memory.toBytes_ofBytes (b : List Byte) : (Memory.ofBytes b).toBytes = b := by
  apply bytes_ext (by simp [Memory.toBytes])
  intro i hi
  have hi' : i < b.length := by simpa [Memory.toBytes] using hi
  rw [Memory.toBytes, Memory.read_getD (Memory.wf_ofBytes b) 0 (by simpa using hi'), Nat.zero_add, Memory.byte_ofBytes]

end Sys2Proof.Machine
end

