-- ==== Sys2Proof/Laws/State.lean ====
section
/-! SUPPORT. One lemma for each field of State and each of its updates. -/

namespace Sys2Proof.Machine

@[simp] theorem State.setRegs_cfg (s : State) (r : Regs) : (s.setRegs r).cfg = s.cfg := rfl
@[simp] theorem State.setRegs_regs (s : State) (r : Regs) : (s.setRegs r).regs = r := rfl
@[simp] theorem State.setRegs_mem (s : State) (r : Regs) : (s.setRegs r).mem = s.mem := rfl
@[simp] theorem State.setRegs_fault (s : State) (r : Regs) : (s.setRegs r).fault = s.fault := rfl
@[simp] theorem State.setRegs_constructed (s : State) (r : Regs) : (s.setRegs r).constructed = s.constructed := rfl
@[simp] theorem State.setRegs_port (s : State) (r : Regs) : (s.setRegs r).port = s.port := rfl
@[simp] theorem State.setRegs_response (s : State) (r : Regs) : (s.setRegs r).response = s.response := rfl
@[simp] theorem State.setRegs_draws (s : State) (r : Regs) : (s.setRegs r).draws = s.draws := rfl

@[simp] theorem State.setMem_cfg (s : State) (m : Memory) : (s.setMem m).cfg = s.cfg := rfl
@[simp] theorem State.setMem_regs (s : State) (m : Memory) : (s.setMem m).regs = s.regs := rfl
@[simp] theorem State.setMem_mem (s : State) (m : Memory) : (s.setMem m).mem = m := rfl
@[simp] theorem State.setMem_fault (s : State) (m : Memory) : (s.setMem m).fault = s.fault := rfl
@[simp] theorem State.setMem_constructed (s : State) (m : Memory) : (s.setMem m).constructed = s.constructed := rfl
@[simp] theorem State.setMem_port (s : State) (m : Memory) : (s.setMem m).port = s.port := rfl
@[simp] theorem State.setMem_response (s : State) (m : Memory) : (s.setMem m).response = s.response := rfl
@[simp] theorem State.setMem_draws (s : State) (m : Memory) : (s.setMem m).draws = s.draws := rfl

@[simp] theorem State.setFault_cfg (s : State) (f : Option FailKind) : (s.setFault f).cfg = s.cfg := rfl
@[simp] theorem State.setFault_regs (s : State) (f : Option FailKind) : (s.setFault f).regs = s.regs := rfl
@[simp] theorem State.setFault_mem (s : State) (f : Option FailKind) : (s.setFault f).mem = s.mem := rfl
@[simp] theorem State.setFault_fault (s : State) (f : Option FailKind) : (s.setFault f).fault = f := rfl
@[simp] theorem State.setFault_constructed (s : State) (f : Option FailKind) : (s.setFault f).constructed = s.constructed := rfl
@[simp] theorem State.setFault_port (s : State) (f : Option FailKind) : (s.setFault f).port = s.port := rfl
@[simp] theorem State.setFault_response (s : State) (f : Option FailKind) : (s.setFault f).response = s.response := rfl
@[simp] theorem State.setFault_draws (s : State) (f : Option FailKind) : (s.setFault f).draws = s.draws := rfl

@[simp] theorem State.setConstructed_cfg (s : State) : (s.setConstructed).cfg = s.cfg := rfl
@[simp] theorem State.setConstructed_regs (s : State) : (s.setConstructed).regs = s.regs := rfl
@[simp] theorem State.setConstructed_mem (s : State) : (s.setConstructed).mem = s.mem := rfl
@[simp] theorem State.setConstructed_fault (s : State) : (s.setConstructed).fault = s.fault := rfl
@[simp] theorem State.setConstructed_constructed (s : State) : (s.setConstructed).constructed = true := rfl
@[simp] theorem State.setConstructed_port (s : State) : (s.setConstructed).port = s.port := rfl
@[simp] theorem State.setConstructed_response (s : State) : (s.setConstructed).response = s.response := rfl
@[simp] theorem State.setConstructed_draws (s : State) : (s.setConstructed).draws = s.draws := rfl

@[simp] theorem State.setPort_cfg (s : State) (p : List (List Byte)) : (s.setPort p).cfg = s.cfg := rfl
@[simp] theorem State.setPort_regs (s : State) (p : List (List Byte)) : (s.setPort p).regs = s.regs := rfl
@[simp] theorem State.setPort_mem (s : State) (p : List (List Byte)) : (s.setPort p).mem = s.mem := rfl
@[simp] theorem State.setPort_fault (s : State) (p : List (List Byte)) : (s.setPort p).fault = s.fault := rfl
@[simp] theorem State.setPort_constructed (s : State) (p : List (List Byte)) : (s.setPort p).constructed = s.constructed := rfl
@[simp] theorem State.setPort_port (s : State) (p : List (List Byte)) : (s.setPort p).port = p := rfl
@[simp] theorem State.setPort_response (s : State) (p : List (List Byte)) : (s.setPort p).response = s.response := rfl
@[simp] theorem State.setPort_draws (s : State) (p : List (List Byte)) : (s.setPort p).draws = s.draws := rfl

@[simp] theorem State.setResponse_cfg (s : State) (r : Response) : (s.setResponse r).cfg = s.cfg := rfl
@[simp] theorem State.setResponse_regs (s : State) (r : Response) : (s.setResponse r).regs = s.regs := rfl
@[simp] theorem State.setResponse_mem (s : State) (r : Response) : (s.setResponse r).mem = s.mem := rfl
@[simp] theorem State.setResponse_fault (s : State) (r : Response) : (s.setResponse r).fault = s.fault := rfl
@[simp] theorem State.setResponse_constructed (s : State) (r : Response) : (s.setResponse r).constructed = s.constructed := rfl
@[simp] theorem State.setResponse_port (s : State) (r : Response) : (s.setResponse r).port = s.port := rfl
@[simp] theorem State.setResponse_response (s : State) (r : Response) : (s.setResponse r).response = some r := rfl
@[simp] theorem State.setResponse_draws (s : State) (r : Response) : (s.setResponse r).draws = s.draws := rfl

@[simp] theorem State.countDraw_cfg (s : State) : (s.countDraw).cfg = s.cfg := rfl
@[simp] theorem State.countDraw_regs (s : State) : (s.countDraw).regs = s.regs := rfl
@[simp] theorem State.countDraw_mem (s : State) : (s.countDraw).mem = s.mem := rfl
@[simp] theorem State.countDraw_fault (s : State) : (s.countDraw).fault = s.fault := rfl
@[simp] theorem State.countDraw_constructed (s : State) : (s.countDraw).constructed = s.constructed := rfl
@[simp] theorem State.countDraw_port (s : State) : (s.countDraw).port = s.port := rfl
@[simp] theorem State.countDraw_response (s : State) : (s.countDraw).response = s.response := rfl
@[simp] theorem State.countDraw_draws (s : State) : (s.countDraw).draws = s.draws + 1 := rfl

@[simp] theorem State.respond_cfg (s : State) (st : Status) (r : Result) : (s.respond st r).cfg = s.cfg := rfl
@[simp] theorem State.respond_regs (s : State) (st : Status) (r : Result) : (s.respond st r).regs = s.regs := rfl
@[simp] theorem State.respond_mem (s : State) (st : Status) (r : Result) : (s.respond st r).mem = s.mem := rfl
@[simp] theorem State.respond_fault (s : State) (st : Status) (r : Result) : (s.respond st r).fault = s.fault := rfl
@[simp] theorem State.respond_constructed (s : State) (st : Status) (r : Result) : (s.respond st r).constructed = s.constructed := rfl
@[simp] theorem State.respond_port (s : State) (st : Status) (r : Result) : (s.respond st r).port = s.port := rfl
@[simp] theorem State.respond_response (s : State) (st : Status) (r : Result) : (s.respond st r).response = some { status := st, result := r } := rfl
@[simp] theorem State.respond_draws (s : State) (st : Status) (r : Result) : (s.respond st r).draws = s.draws := rfl

@[simp] theorem State.takeFailure_cfg (s : State) (k : FailKind) : (s.takeFailure k).cfg = s.cfg := rfl
@[simp] theorem State.takeFailure_regs (s : State) (k : FailKind) : (s.takeFailure k).regs = s.regs := rfl
@[simp] theorem State.takeFailure_mem (s : State) (k : FailKind) : (s.takeFailure k).mem = s.mem := rfl
@[simp] theorem State.takeFailure_fault (s : State) (k : FailKind) : (s.takeFailure k).fault = s.fault.or (some k) := rfl
@[simp] theorem State.takeFailure_constructed (s : State) (k : FailKind) : (s.takeFailure k).constructed = s.constructed := rfl
@[simp] theorem State.takeFailure_port (s : State) (k : FailKind) : (s.takeFailure k).port = s.port := rfl
@[simp] theorem State.takeFailure_response (s : State) (k : FailKind) : (s.takeFailure k).response = some { status := .failed k, result := .nothing } := rfl
@[simp] theorem State.takeFailure_draws (s : State) (k : FailKind) : (s.takeFailure k).draws = s.draws := rfl

@[simp] theorem State.startOver_cfg (s : State) (r : Regs) (m : Memory) : (s.startOver r m).cfg = s.cfg := rfl
@[simp] theorem State.startOver_regs (s : State) (r : Regs) (m : Memory) : (s.startOver r m).regs = r := rfl
@[simp] theorem State.startOver_mem (s : State) (r : Regs) (m : Memory) : (s.startOver r m).mem = m := rfl
@[simp] theorem State.startOver_fault (s : State) (r : Regs) (m : Memory) : (s.startOver r m).fault = none := rfl
@[simp] theorem State.startOver_constructed (s : State) (r : Regs) (m : Memory) : (s.startOver r m).constructed = true := rfl
@[simp] theorem State.startOver_port (s : State) (r : Regs) (m : Memory) : (s.startOver r m).port = s.port := rfl
@[simp] theorem State.startOver_response (s : State) (r : Regs) (m : Memory) : (s.startOver r m).response = s.response := rfl
@[simp] theorem State.startOver_draws (s : State) (r : Regs) (m : Memory) : (s.startOver r m).draws = s.draws := rfl

end Sys2Proof.Machine
end

