-- ==== Sys2Proof/Laws/Ops.lean ====
section
/-! SUPPORT. What each shared operation can do, said once. -/

namespace Sys2Proof.Machine

/-! Attempts. -/

@[simp] theorem Attempt.andThen_done {α β : Type} (a : α) (s : State) (k : α → State → Attempt β) :
    (Attempt.done a s).andThen k = k a s := rfl

@[simp] theorem Attempt.andThen_failed {α β : Type} (f : FailKind) (s : State) (k : α → State → Attempt β) :
    (Attempt.failed f s).andThen k = .failed f s := rfl

theorem Attempt.andThen_eq_done {α β : Type} {x : Attempt α} {k : α → State → Attempt β} {b : β} {t : State} :
    x.andThen k = .done b t ↔ ∃ a s, x = .done a s ∧ k a s = .done b t := by
  cases x with
  | done a s => simp
  | failed f s => simp

theorem Attempt.andThen_eq_failed {α β : Type} {x : Attempt α} {k : α → State → Attempt β} {f : FailKind} {t : State} :
    x.andThen k = .failed f t ↔ x = .failed f t ∨ ∃ a s, x = .done a s ∧ k a s = .failed f t := by
  cases x with
  | done a s => simp
  | failed g s => simp

/-- The state an attempt has reached, whichever way it ended. -/
def Attempt.state {α : Type} : Attempt α → State
  | .done _ s => s
  | .failed _ s => s

@[simp] theorem Attempt.state_done {α : Type} (a : α) (s : State) : (Attempt.done a s).state = s := rfl
@[simp] theorem Attempt.state_failed {α : Type} (f : FailKind) (s : State) : (Attempt.failed f s : Attempt α).state = s := rfl

/-- A property of states that both parts keep is kept by the two in a row. -/
theorem Attempt.andThen_keeps {α β : Type} {P : State → Prop} {x : Attempt α} {k : α → State → Attempt β}
    (hx : P x.state) (hk : ∀ a s, P s → P (k a s).state) : P (x.andThen k).state := by
  cases x with
  | done a s => exact hk a s hx
  | failed f s => exact hx

theorem assertThat_cases (c : Bool) (k : FailKind) (s : State) :
    (c = true ∧ assertThat c k s = .done () s) ∨ (c = false ∧ assertThat c k s = .failed k s) := by
  cases c <;> simp [assertThat]

@[simp] theorem assertThat_true (k : FailKind) (s : State) : assertThat true k s = .done () s := rfl
@[simp] theorem assertThat_false (k : FailKind) (s : State) : assertThat false k s = .failed k s := rfl
@[simp] theorem assertThat_state (c : Bool) (k : FailKind) (s : State) : (assertThat c k s).state = s := by cases c <;> rfl

/-! Answers. -/

@[simp] theorem finish_done (r : Result) (s : State) : finish (.done r s) = .next (s.respond .ok r) := rfl
@[simp] theorem finish_failed (k : FailKind) (s : State) : finish (.failed k s) = .next (s.takeFailure k) := rfl

/-- A finished attempt is a next state that differs from the state it reached in the latch and the response only. -/
theorem finish_cases (x : Attempt Result) :
    (∃ r s, x = .done r s ∧ finish x = .next (s.respond .ok r)) ∨
      (∃ k s, x = .failed k s ∧ finish x = .next (s.takeFailure k)) := by
  cases x with
  | done r s => exact .inl ⟨r, s, rfl, rfl⟩
  | failed k s => exact .inr ⟨k, s, rfl, rfl⟩

/-- A state command runs its body, or answers Faulted and changes nothing (60_exceptions.md R244). -/
theorem stateCommand_cases (s : State) (body : State → Attempt Result) :
    (s.accepting = true ∧ stateCommand s body = finish (body s)) ∨
      (s.accepting = false ∧ stateCommand s body = .next (s.respond .faulted .nothing)) := by
  unfold stateCommand
  cases h : s.accepting
  · exact .inr ⟨rfl, by simp⟩
  · exact .inl ⟨rfl, by simp⟩

theorem stateCommand_accepting {s : State} (h : s.accepting = true) (body : State → Attempt Result) :
    stateCommand s body = finish (body s) := by simp [stateCommand, h]

theorem stateCommand_refusing {s : State} (h : s.accepting = false) (body : State → Attempt Result) :
    stateCommand s body = .next (s.respond .faulted .nothing) := by simp [stateCommand, h]

@[simp] theorem typed_true (s : State) (k : Host.Outcome State Fault Refusal) : typed true s k = k := rfl
@[simp] theorem typed_false (s : State) (k : Host.Outcome State Fault Refusal) :
    typed false s k = .next (s.respond .illegalCommand .nothing) := rfl

theorem accepting_iff (s : State) : s.accepting = true ↔ s.constructed = true ∧ s.fault = none := by
  simp [State.accepting]

/-! The primitives. -/

/-- The allocated offset is the smallest multiple of the alignment not below the length (20_memory.md R51). -/
theorem alignUp_spec (len alignment : Nat) (h : 1 ≤ alignment) :
    alignUp len alignment % alignment = 0 ∧ len ≤ alignUp len alignment ∧ alignUp len alignment < len + alignment := by
  unfold alignUp
  refine ⟨Nat.mul_mod_left _ _, ?_, ?_⟩
  · have h1 := Nat.div_add_mod (len + alignment - 1) alignment
    have h2 := Nat.mod_lt (len + alignment - 1) (show alignment > 0 by omega)
    rw [Nat.mul_comm] at h1
    omega
  · have h1 := Nat.div_mul_le_self (len + alignment - 1) alignment
    omega

theorem alignUp_one (len : Nat) : alignUp len 1 = len := by simp [alignUp]

/-- `Alloc` grows the arena to exactly the end of what it allocates, or fails and changes nothing. -/
theorem alloc_cases (size alignment : Nat) (s : State) :
    (memAdmits s.cfg (alignUp s.mem.len alignment + size) = true ∧
      alloc size alignment s =
        .done (alignUp s.mem.len alignment) (s.setMem (s.mem.grow (alignUp s.mem.len alignment + size)))) ∨
    (memAdmits s.cfg (alignUp s.mem.len alignment + size) = false ∧ alloc size alignment s = .failed .outOfBounds s) := by
  unfold alloc
  cases h : memAdmits s.cfg (alignUp s.mem.len alignment + size) <;> simp [h]

/-- `MemRead` returns the bytes and changes nothing, or fails and changes nothing. -/
theorem memRead_cases (addr n : Nat) (s : State) :
    (addr + n ≤ s.mem.len ∧ memRead addr n s = .done (s.mem.read addr n) s) ∨
      (s.mem.len < addr + n ∧ memRead addr n s = .failed .outOfBounds s) := by
  unfold memRead
  by_cases h : addr + n ≤ s.mem.len
  · exact .inl ⟨h, by simp [h]⟩
  · exact .inr ⟨by omega, by simp [h]⟩

@[simp] theorem memRead_state (addr n : Nat) (s : State) : (memRead addr n s).state = s := by
  rcases memRead_cases addr n s with ⟨_, h⟩ | ⟨_, h⟩ <;> rw [h] <;> rfl

/-- `MemWrite` writes the bytes and nothing else, or fails and changes nothing. -/
theorem memWrite_cases (addr : Nat) (v : List Byte) (s : State) :
    (addr + v.length ≤ s.mem.len ∧ memWrite addr v s = .done () (s.setMem (s.mem.write addr v))) ∨
      (s.mem.len < addr + v.length ∧ memWrite addr v s = .failed .outOfBounds s) := by
  unfold memWrite
  by_cases h : addr + v.length ≤ s.mem.len
  · exact .inl ⟨h, by simp [h]⟩
  · exact .inr ⟨by omega, by simp [h]⟩

/-- Taking the next command leaves everything but the port. -/
theorem takeFrame_cases (s : State) :
    (s.port = [] ∧ s.takeFrame = none) ∨
      (∃ f rest, s.port = f :: rest ∧ s.takeFrame = some (f, s.setPort rest)) := by
  unfold State.takeFrame
  cases h : s.port with
  | nil => exact .inl ⟨rfl, rfl⟩
  | cons f rest => exact .inr ⟨f, rest, rfl, rfl⟩

end Sys2Proof.Machine
end

