-- ==== Sys2Proof/Laws/Commands.lean ====
section
/-! SUPPORT. What the shared parts of the commands can do, said once: a typed state command's answer, a walk, a segment load,
several loads, and the arena rebuilt from its bytes. -/

namespace Sys2Proof.Machine

/-- A state command's next state: the body's state with its answer, or a failure, or a refusal that changes nothing. -/
theorem stateCommand_next {s t : State} {body : State → Attempt Result} (h : stateCommand s body = .next t) :
    (s.accepting = true ∧ ∃ r u, body s = .done r u ∧ t = u.respond .ok r) ∨
      (s.accepting = true ∧ ∃ k u, body s = .failed k u ∧ t = u.takeFailure k) ∨
      (s.accepting = false ∧ t = s.respond .faulted .nothing) := by
  rcases stateCommand_cases s body with ⟨ha, he⟩ | ⟨ha, he⟩
  · rcases finish_cases (body s) with ⟨r, u, hb, hf⟩ | ⟨k, u, hb, hf⟩
    · rw [he, hf, Host.Outcome.next.injEq] at h
      exact .inl ⟨ha, r, u, hb, h.symm⟩
    · rw [he, hf, Host.Outcome.next.injEq] at h
      exact .inr (.inl ⟨ha, k, u, hb, h.symm⟩)
  · rw [he, Host.Outcome.next.injEq] at h
    exact .inr (.inr ⟨ha, h.symm⟩)

/-- A typed command runs, or is refused with IllegalCommand and changes nothing. -/
theorem typed_next {s t : State} {ok : Bool} {k : Host.Outcome State Fault Refusal} (h : typed ok s k = .next t) :
    (ok = true ∧ k = .next t) ∨ (ok = false ∧ t = s.respond .illegalCommand .nothing) := by
  cases ok
  · rw [typed_false, Host.Outcome.next.injEq] at h
    exact .inr ⟨rfl, h.symm⟩
  · exact .inl ⟨rfl, h⟩

/-- An attempt followed by a part that changes no state reaches the attempt's state. -/
theorem Attempt.andThen_state {α β : Type} (x : Attempt α) (k : α → State → Attempt β) (hk : ∀ a s, (k a s).state = s) :
    (x.andThen k).state = x.state := by
  cases x with
  | done a s => exact hk a s
  | failed f s => rfl

/-! Walks change no state (43_pte_encoders_and_walk.md R180). -/

@[simp] theorem walk32_state (va : BitVec 32) (s : State) : (walk32 va s).state = s := by
  unfold walk32
  rw [Attempt.andThen_state _ _ (fun _ _ => rfl), memRead_state]

@[simp] theorem walkPt_state (va : BitVec 64) (pfn : BitVec 40) (s : State) : (walkPt va pfn s).state = s := by
  unfold walkPt
  rw [Attempt.andThen_state, memRead_state]
  intro b s
  dsimp only
  split <;> rfl

@[simp] theorem walkPd_state (va : BitVec 64) (pfn : BitVec 40) (s : State) : (walkPd va pfn s).state = s := by
  unfold walkPd
  rw [Attempt.andThen_state, memRead_state]
  intro b s
  dsimp only
  split
  · rfl
  · split
    · split <;> rfl
    · exact walkPt_state ..

@[simp] theorem walkPdpt_state (va : BitVec 64) (pfn : BitVec 40) (s : State) : (walkPdpt va pfn s).state = s := by
  unfold walkPdpt
  rw [Attempt.andThen_state, memRead_state]
  intro b s
  dsimp only
  split
  · rfl
  · split
    · split <;> rfl
    · exact walkPd_state ..

@[simp] theorem walk64_state (va : BitVec 64) (s : State) : (walk64 va s).state = s := by
  unfold walk64
  split
  · rfl
  · rw [Attempt.andThen_state, memRead_state]
    intro b s
    dsimp only
    split
    · rfl
    · split
      · rfl
      · exact walkPdpt_state ..

/-! Segment loads (44_segment_loader.md). -/

/-- The system path loads the one cache, counting a draw for a call gate, or fails and changes nothing. -/
theorem loadSystem_cases (sreg : Sreg) (selector : BitVec 16) (a : Nat) (b : List Byte) (s : State) :
    (∃ k, loadSystem sreg selector a b s = .failed k s) ∨
      (∃ c, loadSystem sreg selector a b s = .done () (s.setRegs (s.regs.loadCache sreg c))) ∨
      ∃ c, loadSystem sreg selector a b s = .done () (s.setRegs (s.regs.loadCache sreg c)).countDraw := by
  have key : ∀ f : SegFields 64,
      (∃ c, (if descType (word64 b) = callGateType then loadCallGate sreg selector (word64 b) s
        else loadDescriptor sreg selector f s) = .done () (s.setRegs (s.regs.loadCache sreg c))) ∨
      ∃ c, (if descType (word64 b) = callGateType then loadCallGate sreg selector (word64 b) s
        else loadDescriptor sreg selector f s) = .done () (s.setRegs (s.regs.loadCache sreg c)).countDraw := by
    intro f
    split
    · exact .inr ⟨_, rfl⟩
    · exact .inl ⟨_, rfl⟩
  unfold loadSystem
  cases s.regs.longMode
  · exact .inr (key _)
  · rcases memRead_cases a 16 s with ⟨_, h⟩ | ⟨_, h⟩
    · simp only [h, if_true, Attempt.andThen_done]
      exact .inr (key _)
    · simp only [h, if_true, Attempt.andThen_failed]
      exact .inl ⟨_, rfl⟩

/-- A segment load writes the one cache, counting a draw for a call gate, or fails and changes nothing (R201 (e)). -/
theorem loadSeg_cases (sreg : Sreg) (selector : BitVec 16) (s : State) :
    (∃ k, loadSeg sreg selector s = .failed k s) ∨
      (∃ c, loadSeg sreg selector s = .done () (s.setRegs (s.regs.loadCache sreg c))) ∨
      ∃ c, loadSeg sreg selector s = .done () (s.setRegs (s.regs.loadCache sreg c)).countDraw := by
  unfold loadSeg
  rcases assertThat_cases (selector.extractLsb 2 2 == 0) .unsupportedFeature s with ⟨_, h⟩ | ⟨_, h⟩
  swap
  · exact .inl ⟨_, by rw [h]; rfl⟩
  rw [h, Attempt.andThen_done]
  rcases assertThat_cases (!decide (selector.toNat + 7 > (s.regs.getTable .gdtr).limit.toNat)) .outOfBounds s with
    ⟨_, h⟩ | ⟨_, h⟩
  swap
  · exact .inl ⟨_, by rw [h]; rfl⟩
  rw [h, Attempt.andThen_done]
  dsimp only
  rcases memRead_cases (descAddr (s.regs.getTable .gdtr).base.toNat selector) 8 s with ⟨_, h⟩ | ⟨_, h⟩
  swap
  · exact .inl ⟨_, by rw [h]; rfl⟩
  rw [h, Attempt.andThen_done]
  split
  · exact .inr (.inl ⟨_, rfl⟩)
  · rcases assertThat_cases
        (systemTypeAccepted (descType (word64 (s.mem.read (descAddr (s.regs.getTable .gdtr).base.toNat selector) 8))))
        .unsupportedFeature s with ⟨_, h⟩ | ⟨_, h⟩
    · rw [h, Attempt.andThen_done]
      exact loadSystem_cases ..
    · exact .inl ⟨_, by rw [h]; rfl⟩

/-- A property that every cache load and every draw keeps is kept by a segment load. -/
theorem loadSeg_keeps {P : State → Prop} (hc : ∀ s n c, P s → P (s.setRegs (s.regs.loadCache n c)))
    (hd : ∀ s, P s → P s.countDraw) (sreg : Sreg) (selector : BitVec 16) {s : State} (h : P s) :
    P (loadSeg sreg selector s).state := by
  rcases loadSeg_cases sreg selector s with ⟨k, e⟩ | ⟨c, e⟩ | ⟨c, e⟩ <;> rw [e]
  · exact h
  · exact hc _ _ _ h
  · exact hd _ (hc _ _ _ h)

/-- The same of several loads. -/
theorem loadSegs_keeps {P : State → Prop} (hc : ∀ s n c, P s → P (s.setRegs (s.regs.loadCache n c)))
    (hd : ∀ s, P s → P s.countDraw) (l : List (Sreg × BitVec 16)) {s : State} (h : P s) : P (loadSegs l s).state := by
  induction l generalizing s with
  | nil => exact h
  | cons x t ih =>
    obtain ⟨n, sel⟩ := x
    exact Attempt.andThen_keeps (loadSeg_keeps hc hd n sel h) (fun _ _ hs => ih hs)

/-! The arena from its bytes. -/

theorem cellsOf_bytesFrom {lo hi a n : Nat} {c : List Host.Cell} (h : cellsOk lo hi c) (hl : a ≤ lo) (hh : hi ≤ a + n) :
    cellsOf a (bytesFrom c a n) = c := by
  induction n generalizing a lo c with
  | zero =>
    cases c with
    | nil => rfl
    | cons x t =>
      obtain ⟨k, b⟩ := x
      simp only [cellsOk, Bool.and_eq_true, decide_eq_true_eq] at h
      omega
  | succ n ih =>
    cases c with
    | nil =>
      rw [bytesFrom, cellsOf, if_pos rfl]
      exact ih (lo := a + 1) (c := []) rfl (Nat.le_refl _) (by omega)
    | cons x t =>
      obtain ⟨k, b⟩ := x
      simp only [cellsOk, Bool.and_eq_true, decide_eq_true_eq, bne_iff_ne, ne_eq] at h
      rw [bytesFrom]
      by_cases hk : k = a
      · rw [if_pos hk, cellsOf, if_neg h.1.2, ih (lo := k + 1) h.2 (by omega) (by omega), hk]
      · rw [if_neg hk, cellsOf, if_pos rfl]
        refine ih (lo := k) ?_ (by omega) (by omega)
        simp only [cellsOk, Bool.and_eq_true, decide_eq_true_eq, bne_iff_ne, ne_eq]
        exact ⟨⟨⟨Nat.le_refl _, h.1.1.2⟩, h.1.2⟩, h.2⟩

/-- A canonical arena is the one built from its bytes. -/
theorem Memory.ofBytes_toBytes {m : Memory} (h : m.wf) : Memory.ofBytes m.toBytes = m := by
  obtain ⟨len, cells⟩ := m
  have hd : cells.dropWhile (fun c => decide (c.1 < 0)) = cells := by cases cells <;> simp
  have hc : cellsOf 0 (bytesFrom cells 0 len) = cells := cellsOf_bytesFrom (hi := len) h (Nat.le_refl _) (by omega)
  simp only [Memory.ofBytes, Memory.toBytes, Memory.read, bytesFrom_length, hd, hc]

end Sys2Proof.Machine
end

