-- ==== Sys2Proof/Laws/Decode.lean ====
section
/-! SUPPORT. Every operand reader gives back what its writer put. -/

namespace Sys2Proof

theorem takeBytes_append {b r : List Byte} {n : Nat} (h : b.length = n) : takeBytes n (b ++ r) = some (b, r) := by
  unfold takeBytes
  subst h
  simp

@[simp] theorem putBits_length {w : Nat} (v : BitVec w) : (putBits v).length = (w + 7) / 8 := leBytes_length _ _

theorem readBits_putBits {w : Nat} (v : BitVec w) (r : List Byte) : readBits w (putBits v ++ r) = some (v, r) := by
  have hw : w ≤ 8 * ((w + 7) / 8) := by omega
  have hv : v.toNat < 256 ^ ((w + 7) / 8) := by
    calc v.toNat < 2 ^ w := v.isLt
      _ ≤ 2 ^ (8 * ((w + 7) / 8)) := Nat.pow_le_pow_right (by omega) hw
      _ = 256 ^ ((w + 7) / 8) := by rw [Nat.pow_mul]
  rw [readBits, takeBytes_append (putBits_length v)]
  simp only [putBits, fromLE_leBytes, Nat.mod_eq_of_lt hv, v.isLt, if_true, BitVec.ofNat_toNat, BitVec.setWidth_eq]

/-- A record's next operand. -/
theorem readBits_bind {w : Nat} {α : Type} (v : BitVec w) (r : List Byte) (f : BitVec w × List Byte → Option α) :
    (readBits w (putBits v ++ r) >>= f) = f (v, r) := by
  rw [readBits_putBits]
  rfl

/-- The last operand of a record. -/
theorem readBits_putBits_nil {w : Nat} (v : BitVec w) : readBits w (putBits v) = some (v, []) := by
  simpa using readBits_putBits v []

theorem readNat_putNatFuel (fuel n : Nat) (h : n < fuel) (r : List Byte) :
    readNat (putNatFuel fuel n ++ r) = some (n, r) := by
  induction fuel generalizing n with
  | zero => omega
  | succ fuel ih =>
    unfold putNatFuel
    by_cases hn : n < 128
    · rw [if_pos hn, List.singleton_append, readNat]
      have h1 : (BitVec.ofNat 8 n).toNat = n := by simp; omega
      rw [h1, if_pos hn]
    · rw [if_neg hn, List.cons_append, readNat]
      have h1 : (BitVec.ofNat 8 (128 + n % 128)).toNat = 128 + n % 128 := by simp; omega
      rw [h1, if_neg (by omega), ih (n / 128) (by omega)]
      simp only
      rw [if_neg (by omega), show 128 + n % 128 - 128 + 128 * (n / 128) = n by omega]

theorem readNat_putNat (n : Nat) (r : List Byte) : readNat (putNat n ++ r) = some (n, r) :=
  readNat_putNatFuel (n + 1) n (by omega) r

theorem readSeq_putSeq (b r : List Byte) : readSeq (putSeq b ++ r) = some (b, r) := by
  rw [readSeq, putSeq, List.append_assoc, readNat_putNat]
  exact takeBytes_append rfl

theorem readDescriptors_putSeq (ds : List (List Byte)) (h : ds.all descriptorLengthOk) (r : List Byte) :
    readDescriptors ds.length (ds.flatMap putSeq ++ r) = some (ds, r) := by
  induction ds with
  | nil => rfl
  | cons d t ih =>
    simp only [List.all_cons, Bool.and_eq_true] at h
    simp only [List.length_cons, readDescriptors, List.flatMap_cons, List.append_assoc, readSeq_putSeq, h.1, if_true,
      ih h.2]

theorem readArch_putArch (a : Arch) (r : List Byte) : readArch (putArch a ++ r) = some (a, r) := by
  cases a <;> simp [readArch, putArch, readBits, takeBytes, fromLE]

theorem readAlignment_one (n : Nat) (h : 1 ≤ n) (r : List Byte) :
    readAlignment (1#8 :: (putNat n ++ r)) = some (n, r) := by
  simp [readAlignment, readBits, takeBytes, fromLE, readNat_putNat, h]

theorem Sreg.all_idxOf (s : Sreg) : Sreg.all.idxOf s < 256 ∧ Sreg.all[Sreg.all.idxOf s]? = some s := by
  cases s <;> decide

theorem readSreg_putSreg (s : Sreg) (r : List Byte) : readSreg (putSreg s ++ r) = some (s, r) := by
  obtain ⟨h1, h2⟩ := Sreg.all_idxOf s
  have h3 : (BitVec.ofNat 8 (Sreg.all.idxOf s)).toNat = Sreg.all.idxOf s := by
    rw [BitVec.toNat_ofNat]; exact Nat.mod_eq_of_lt h1
  have h4 : putSreg s = putBits (BitVec.ofNat 8 (Sreg.all.idxOf s)) := by
    simp [putSreg, putBits, leBytes, h3]
  rw [readSreg, h4, readBits_putBits]
  simp [h3, h2]

theorem Field.mem_all (f : Field) : f ∈ Field.all := by
  cases f with
  | scalar r => cases r <;> decide
  | rflags f => cases f <;> decide
  | cr0 f => cases f <;> decide
  | cr4 f => cases f <;> decide
  | efer f => cases f <;> decide
  | seg r c => cases r <;> cases c <;> decide
  | tableBase t => cases t <;> decide
  | tableLimit t => cases t <;> decide

set_option maxRecDepth 4096 in
theorem Field.all_length : Field.all.length = 171 := by decide

theorem readField_putField (f : Field) (r : List Byte) : readField (putField f ++ r) = some (f, r) := by
  have h0 := List.idxOf_lt_length_of_mem (Field.mem_all f)
  have h1 : Field.all.idxOf f < 256 := by rw [Field.all_length] at h0; omega
  have h2 : Field.all[Field.all.idxOf f]? = some f := by
    rw [List.getElem?_eq_getElem h0, List.getElem_idxOf h0]
  have h3 : (BitVec.ofNat 8 (Field.all.idxOf f)).toNat = Field.all.idxOf f := by
    rw [BitVec.toNat_ofNat]; exact Nat.mod_eq_of_lt h1
  have h4 : putField f = putBits (BitVec.ofNat 8 (Field.all.idxOf f)) := by
    simp [putField, putBits, leBytes, h3]
  rw [readField, h4, readBits_putBits]
  simp [h3, h2]

theorem readSegFields_put {w : Nat} (v : SegFields w) (r : List Byte) :
    readSegFields w (putSegFields v ++ r) = some (v, r) := by
  simp only [readSegFields, putSegFields, List.append_assoc, ↓readBits_bind]

theorem readGateFields_put {w : Nat} (v : GateFields w) (r : List Byte) :
    readGateFields w (putGateFields v ++ r) = some (v, r) := by
  simp only [readGateFields, putGateFields, List.append_assoc, ↓readBits_bind]

theorem readTaskGateFields_put (v : TaskGateFields) (r : List Byte) :
    readTaskGateFields (putTaskGateFields v ++ r) = some (v, r) := by
  simp only [readTaskGateFields, putTaskGateFields, List.append_assoc, ↓readBits_bind]

theorem readTss32Fields_put (v : Tss32Fields) (r : List Byte) :
    readTss32Fields (putTss32Fields v ++ r) = some (v, r) := by
  simp only [readTss32Fields, putTss32Fields, List.append_assoc, ↓readBits_bind]

theorem readTss64Fields_put (v : Tss64Fields) (r : List Byte) :
    readTss64Fields (putTss64Fields v ++ r) = some (v, r) := by
  simp only [readTss64Fields, putTss64Fields, List.append_assoc, ↓readBits_bind]

theorem readPde32Fields_put (v : Pde32Fields) (r : List Byte) :
    readPde32Fields (putPde32Fields v ++ r) = some (v, r) := by
  simp only [readPde32Fields, putPde32Fields, List.append_assoc, ↓readBits_bind]

theorem readPml4eFields_put (v : Pml4eFields) (r : List Byte) :
    readPml4eFields (putPml4eFields v ++ r) = some (v, r) := by
  simp only [readPml4eFields, putPml4eFields, List.append_assoc, ↓readBits_bind]

theorem readDirEntryFields_put (v : DirEntryFields) (r : List Byte) :
    readDirEntryFields (putDirEntryFields v ++ r) = some (v, r) := by
  simp only [readDirEntryFields, putDirEntryFields, List.append_assoc, ↓readBits_bind]

theorem readPte64Fields_put (v : Pte64Fields) (r : List Byte) :
    readPte64Fields (putPte64Fields v ++ r) = some (v, r) := by
  simp only [readPte64Fields, putPte64Fields, List.append_assoc, ↓readBits_bind]

theorem Op.ofCode_code (o : Op) : Op.ofCode o.code = some o := by
  cases o <;> decide

/-- A code selects at most the row that has it. -/
theorem Op.code_of_ofCode {b : Byte} {o : Op} (h : Op.ofCode b = some o) : o.code = b := by
  have := List.find?_some h
  simpa using this

theorem decode_encode_of_operands {i : Instr} {r : List Byte}
    (h : decodeOperands i.op (encodeOperands i ++ r) = some (i, r)) : decode (encode i ++ r) = some (i, r) := by
  simp only [encode, List.cons_append, decode, Op.ofCode_code, h]

theorem decodeFrame_of_decode {i : Instr} (h : decode (encode i ++ []) = some (i, [])) : decodeFrame (encode i) = some i := by
  rw [List.append_nil] at h
  simp [decodeFrame, h]

end Sys2Proof
end

