-- ==== Sys2Proof/Laws/Formats.lean ====
section
/-! SUPPORT. The bit functions of the formats as arithmetic on natural numbers: concatenation, slices, and the named fields of a
descriptor (42_descriptor_encoders.md R133, R138). -/

namespace Sys2Proof

/-- The value of `{x, y}`. -/
theorem toNat_append_add {n m : Nat} (x : BitVec n) (y : BitVec m) : (x ++ y).toNat = x.toNat * 2 ^ m + y.toNat := by
  rw [BitVec.toNat_append, ← Nat.shiftLeft_add_eq_or_of_lt y.isLt, Nat.shiftLeft_eq]

/-- The value of `x[hi:lo]`. -/
theorem toNat_extractLsb {w : Nat} (x : BitVec w) (hi lo : Nat) :
    (x.extractLsb hi lo).toNat = x.toNat / 2 ^ lo % 2 ^ (hi - lo + 1) := by
  simp [BitVec.extractLsb, Nat.shiftRight_eq_div_pow]

/-- The number a field of a byte sequence is read from, when it fits. -/
theorem toNat_leAt {w n i : Nat} {b : List Byte} (hw : w = 8 * n) (h : i + n ≤ b.length) :
    (leAt w b i n).toNat = fromLE (slice b i n) := by
  have hl : (slice b i n).length = n := by simp; omega
  have hlt := fromLE_lt (slice b i n)
  rw [hl] at hlt
  have h256 : (256 : Nat) ^ n = 2 ^ w := by rw [hw, Nat.pow_mul]
  rw [leAt, BitVec.toNat_ofNat, Nat.mod_eq_of_lt (by rw [← h256]; exact hlt)]

/-- The number of two adjacent byte sequences. -/
theorem fromLE_append (a b : List Byte) : fromLE (a ++ b) = fromLE a + 256 ^ a.length * fromLE b := by
  induction a with
  | nil => simp [fromLE]
  | cons x t ih =>
    simp only [List.cons_append, fromLE, ih, List.length_cons, Nat.pow_succ]
    rw [Nat.mul_add, Nat.mul_comm (256 ^ t.length) 256, Nat.mul_assoc, Nat.add_assoc]

namespace Machine

theorem descS_toNat (d : BitVec 64) : (descS d).toNat = d.toNat / 2 ^ 44 % 2 := toNat_extractLsb d 44 44
theorem descType_toNat (d : BitVec 64) : (descType d).toNat = d.toNat / 2 ^ 40 % 2 ^ 4 := toNat_extractLsb d 43 40
theorem descDpl_toNat (d : BitVec 64) : (descDpl d).toNat = d.toNat / 2 ^ 45 % 2 ^ 2 := toNat_extractLsb d 46 45
theorem descP_toNat (d : BitVec 64) : (descP d).toNat = d.toNat / 2 ^ 47 % 2 := toNat_extractLsb d 47 47

theorem segLimit_toNat (d : BitVec 64) : (segLimit d).toNat = d.toNat % 2 ^ 16 + d.toNat / 2 ^ 48 % 2 ^ 4 * 2 ^ 16 := by
  unfold segLimit
  rw [toNat_append_add, toNat_extractLsb, toNat_extractLsb]
  omega

theorem segBase32_toNat (d : BitVec 64) :
    (segBase32 d).toNat = d.toNat / 2 ^ 16 % 2 ^ 24 + d.toNat / 2 ^ 56 * 2 ^ 24 := by
  unfold segBase32
  rw [toNat_append_add, toNat_append_add, toNat_extractLsb, toNat_extractLsb, toNat_extractLsb]
  have := d.isLt
  omega

theorem segBase64_toNat (d : BitVec 64) (x : BitVec 32) :
    (segBase64 d x).toNat = (segBase32 d).toNat + x.toNat * 2 ^ 32 := by
  unfold segBase64
  rw [toNat_append_add, Nat.add_comm]

theorem gateOffset32_toNat (d : BitVec 64) :
    (gateOffset32 d).toNat = d.toNat % 2 ^ 16 + d.toNat / 2 ^ 48 * 2 ^ 16 := by
  unfold gateOffset32
  rw [toNat_append_add, toNat_extractLsb, toNat_extractLsb]
  have := d.isLt
  omega

theorem gateOffset64_toNat (d : BitVec 64) (x : BitVec 32) :
    (gateOffset64 d x).toNat = (gateOffset32 d).toNat + x.toNat * 2 ^ 32 := by
  unfold gateOffset64
  rw [toNat_append_add, Nat.add_comm]

/-- The scaled limit never wraps (20_memory.md R58 (c)). -/
theorem cacheLimit_toNat (g : BitVec 1) (raw : BitVec 20) :
    (cacheLimit g raw).toNat = if g = 1 then raw.toNat * 4096 + 4095 else raw.toNat := by
  have h := raw.isLt
  unfold cacheLimit
  by_cases hg : g = 1
  · rw [if_pos hg, if_pos hg, BitVec.toNat_ofNat, Nat.mod_eq_of_lt (by omega)]
  · rw [if_neg hg, if_neg hg, BitVec.toNat_setWidth, Nat.mod_eq_of_lt (by omega)]

theorem word64_toNat {b : List Byte} (h : b.length = 8) : (word64 b).toNat = fromLE b := by
  have e := toNat_leAt (w := 64) (n := 8) (i := 0) (b := b) (by omega) (by omega)
  rwa [slice_self h] at e

end Machine

end Sys2Proof
end

