-- ==== Sys2Proof/Laws/PerInstr.lean ====
section
/-! SUPPORT. One lemma per command: the decoder reads back the encoder's bytes, whatever follows them. -/

namespace Sys2Proof.Laws.EncodingRoundTrip

/-- Decoding the encoding of a well-formed command gives it back, and leaves what follows. -/
def Statement (i : Instr) : Prop := ∀ rest : List Byte, i.wellFormed → decode (encode i ++ rest) = some (i, rest)

theorem construct (arch : Arch) : Statement (.construct arch) := by
  intro rest _
  apply decode_encode_of_operands
  simp [encodeOperands, decodeOperands, Instr.op, readRecord, readArch_putArch]

theorem alloc (size alignment : Nat) : Statement (.alloc size alignment) := by
  intro rest h
  apply decode_encode_of_operands
  have h1 : 1 ≤ alignment := by simpa [Instr.wellFormed] using h
  simp [encodeOperands, decodeOperands, Instr.op, List.append_assoc, readNat_putNat, readAlignment_one _ h1]

theorem mwrite (addr : Nat) (bytes : List Byte) : Statement (.mwrite addr bytes) := by
  intro rest _
  apply decode_encode_of_operands
  simp [encodeOperands, decodeOperands, Instr.op, List.append_assoc, readNat_putNat, readSeq_putSeq]

theorem mread (addr size : Nat) : Statement (.mread addr size) := by
  intro rest _
  apply decode_encode_of_operands
  simp [encodeOperands, decodeOperands, Instr.op, List.append_assoc, readNat_putNat]

theorem rget (field : Field) : Statement (.rget field) := by
  intro rest _
  apply decode_encode_of_operands
  simp [encodeOperands, decodeOperands, Instr.op, readRecord, readField_putField]

theorem rset (field : Field) (value : BitVec 64) : Statement (.rset field value) := by
  intro rest h
  apply decode_encode_of_operands
  have h1 : value.toNat < 2 ^ field.width := by simpa [Instr.wellFormed] using h
  simp [encodeOperands, decodeOperands, Instr.op, List.append_assoc, readField_putField, readBits_putBits, h1]

theorem raw : Statement .raw := by
  intro rest _
  apply decode_encode_of_operands
  rfl

theorem loadimg (image : List Byte) : Statement (.loadimg image) := by
  intro rest h
  apply decode_encode_of_operands
  have h1 : regFileSize ≤ image.length := by simpa [Instr.wellFormed] using h
  have h2 : (image.take regFileSize).length = regFileSize := by simp [h1]
  simp [encodeOperands, decodeOperands, Instr.op, List.append_assoc, takeBytes_append h2, readSeq_putSeq]

theorem loadSeg (sreg : Sreg) (selector : BitVec 16) : Statement (.loadSeg sreg selector) := by
  intro rest _
  apply decode_encode_of_operands
  simp [encodeOperands, decodeOperands, Instr.op, List.append_assoc, readSreg_putSreg, readBits_putBits]

theorem setupReal : Statement .setupReal := by
  intro rest _
  apply decode_encode_of_operands
  rfl

theorem setupGdt : Statement .setupGdt := by
  intro rest _
  apply decode_encode_of_operands
  rfl

theorem setupIdt (descriptors : List (List Byte)) : Statement (.setupIdt descriptors) := by
  intro rest h
  apply decode_encode_of_operands
  have h1 : descriptors.all descriptorLengthOk := by simpa [Instr.wellFormed] using h
  simp [encodeOperands, decodeOperands, Instr.op, List.append_assoc, readNat_putNat, readDescriptors_putSeq _ h1]

theorem setupPaging : Statement .setupPaging := by
  intro rest _
  apply decode_encode_of_operands
  rfl

theorem descAddr (selector : BitVec 16) : Statement (.descAddr selector) := by
  intro rest _
  apply decode_encode_of_operands
  simp [encodeOperands, decodeOperands, Instr.op, readRecord, readBits_putBits]

theorem walk32 (va : BitVec 32) : Statement (.walk32 va) := by
  intro rest _
  apply decode_encode_of_operands
  simp [encodeOperands, decodeOperands, Instr.op, readRecord, readBits_putBits]

theorem walk64 (va : BitVec 64) : Statement (.walk64 va) := by
  intro rest _
  apply decode_encode_of_operands
  simp [encodeOperands, decodeOperands, Instr.op, readRecord, readBits_putBits]

theorem encSeg (v : SegFields 32) : Statement (.encSeg v) := by
  intro rest _
  apply decode_encode_of_operands
  simp [encodeOperands, decodeOperands, Instr.op, readRecord, readSegFields_put]

theorem decSeg (bytes : List Byte) : Statement (.decSeg bytes) := by
  intro rest h
  apply decode_encode_of_operands
  have h1 : bytes.length = 8 := by simpa [Instr.wellFormed] using h
  simp [encodeOperands, decodeOperands, Instr.op, readFixed, takeBytes_append h1]

theorem encSeg64 (v : SegFields 64) : Statement (.encSeg64 v) := by
  intro rest _
  apply decode_encode_of_operands
  simp [encodeOperands, decodeOperands, Instr.op, readRecord, readSegFields_put]

theorem decSeg64 (bytes : List Byte) : Statement (.decSeg64 bytes) := by
  intro rest h
  apply decode_encode_of_operands
  have h1 : bytes.length = 16 := by simpa [Instr.wellFormed] using h
  simp [encodeOperands, decodeOperands, Instr.op, readFixed, takeBytes_append h1]

theorem encGate (v : GateFields 32) : Statement (.encGate v) := by
  intro rest _
  apply decode_encode_of_operands
  simp [encodeOperands, decodeOperands, Instr.op, readRecord, readGateFields_put]

theorem decGate (bytes : List Byte) : Statement (.decGate bytes) := by
  intro rest h
  apply decode_encode_of_operands
  have h1 : bytes.length = 8 := by simpa [Instr.wellFormed] using h
  simp [encodeOperands, decodeOperands, Instr.op, readFixed, takeBytes_append h1]

theorem encGate64 (v : GateFields 64) : Statement (.encGate64 v) := by
  intro rest _
  apply decode_encode_of_operands
  simp [encodeOperands, decodeOperands, Instr.op, readRecord, readGateFields_put]

theorem decGate64 (bytes : List Byte) : Statement (.decGate64 bytes) := by
  intro rest h
  apply decode_encode_of_operands
  have h1 : bytes.length = 16 := by simpa [Instr.wellFormed] using h
  simp [encodeOperands, decodeOperands, Instr.op, readFixed, takeBytes_append h1]

theorem encTaskGate (v : TaskGateFields) : Statement (.encTaskGate v) := by
  intro rest _
  apply decode_encode_of_operands
  simp [encodeOperands, decodeOperands, Instr.op, readRecord, readTaskGateFields_put]

theorem decTaskGate (bytes : List Byte) : Statement (.decTaskGate bytes) := by
  intro rest h
  apply decode_encode_of_operands
  have h1 : bytes.length = 8 := by simpa [Instr.wellFormed] using h
  simp [encodeOperands, decodeOperands, Instr.op, readFixed, takeBytes_append h1]

theorem encTss32 (v : Tss32Fields) : Statement (.encTss32 v) := by
  intro rest _
  apply decode_encode_of_operands
  simp [encodeOperands, decodeOperands, Instr.op, readRecord, readTss32Fields_put]

theorem decTss32 (bytes : List Byte) : Statement (.decTss32 bytes) := by
  intro rest h
  apply decode_encode_of_operands
  have h1 : bytes.length = 104 := by simpa [Instr.wellFormed] using h
  simp [encodeOperands, decodeOperands, Instr.op, readFixed, takeBytes_append h1]

theorem encTss64 (v : Tss64Fields) : Statement (.encTss64 v) := by
  intro rest _
  apply decode_encode_of_operands
  simp [encodeOperands, decodeOperands, Instr.op, readRecord, readTss64Fields_put]

theorem decTss64 (bytes : List Byte) : Statement (.decTss64 bytes) := by
  intro rest h
  apply decode_encode_of_operands
  have h1 : bytes.length = 104 := by simpa [Instr.wellFormed] using h
  simp [encodeOperands, decodeOperands, Instr.op, readFixed, takeBytes_append h1]

theorem encPde32 (v : Pde32Fields) : Statement (.encPde32 v) := by
  intro rest _
  apply decode_encode_of_operands
  simp [encodeOperands, decodeOperands, Instr.op, readRecord, readPde32Fields_put]

theorem decPde32 (bytes : List Byte) : Statement (.decPde32 bytes) := by
  intro rest h
  apply decode_encode_of_operands
  have h1 : bytes.length = 4 := by simpa [Instr.wellFormed] using h
  simp [encodeOperands, decodeOperands, Instr.op, readFixed, takeBytes_append h1]

theorem encPml4e (v : Pml4eFields) : Statement (.encPml4e v) := by
  intro rest _
  apply decode_encode_of_operands
  simp [encodeOperands, decodeOperands, Instr.op, readRecord, readPml4eFields_put]

theorem decPml4e (bytes : List Byte) : Statement (.decPml4e bytes) := by
  intro rest h
  apply decode_encode_of_operands
  have h1 : bytes.length = 8 := by simpa [Instr.wellFormed] using h
  simp [encodeOperands, decodeOperands, Instr.op, readFixed, takeBytes_append h1]

theorem encPdpte (v : DirEntryFields) : Statement (.encPdpte v) := by
  intro rest _
  apply decode_encode_of_operands
  simp [encodeOperands, decodeOperands, Instr.op, readRecord, readDirEntryFields_put]

theorem decPdpte (bytes : List Byte) : Statement (.decPdpte bytes) := by
  intro rest h
  apply decode_encode_of_operands
  have h1 : bytes.length = 8 := by simpa [Instr.wellFormed] using h
  simp [encodeOperands, decodeOperands, Instr.op, readFixed, takeBytes_append h1]

theorem encPde64 (v : DirEntryFields) : Statement (.encPde64 v) := by
  intro rest _
  apply decode_encode_of_operands
  simp [encodeOperands, decodeOperands, Instr.op, readRecord, readDirEntryFields_put]

theorem decPde64 (bytes : List Byte) : Statement (.decPde64 bytes) := by
  intro rest h
  apply decode_encode_of_operands
  have h1 : bytes.length = 8 := by simpa [Instr.wellFormed] using h
  simp [encodeOperands, decodeOperands, Instr.op, readFixed, takeBytes_append h1]

theorem encPte64 (v : Pte64Fields) : Statement (.encPte64 v) := by
  intro rest _
  apply decode_encode_of_operands
  simp [encodeOperands, decodeOperands, Instr.op, readRecord, readPte64Fields_put]

theorem decPte64 (bytes : List Byte) : Statement (.decPte64 bytes) := by
  intro rest h
  apply decode_encode_of_operands
  have h1 : bytes.length = 8 := by simpa [Instr.wellFormed] using h
  simp [encodeOperands, decodeOperands, Instr.op, readFixed, takeBytes_append h1]

end Sys2Proof.Laws.EncodingRoundTrip
end

