-- ==== Sys2Proof/Laws/Registers.lean ====
section
/-! SUPPORT. The Register File by name: what a field write changes and what it leaves alone (41_regfile_serializer_ops.md
R123), and that no field write touches a fixed bit (10_state.md R34). -/

namespace Sys2Proof

/-! Bit fields. -/

theorem bitMask_getLsbD (lo w i : Nat) : (bitMask lo w).getLsbD i = (decide (i < 64) && decide (lo ≤ i) && decide (i < lo + w)) := by
  unfold bitMask
  rw [BitVec.getLsbD_shiftLeft, BitVec.getLsbD_ofNat, Nat.testBit_two_pow_sub_one]
  by_cases h1 : i < 64 <;> by_cases h2 : lo ≤ i <;> by_cases h3 : i < lo + w <;> simp [h1, h2, h3] <;> omega

/-- Bit `i` of a field read from `lo`. -/
theorem getBitsAt_getLsbD (r : BitVec 64) (lo w i : Nat) :
    (getBitsAt r lo w).getLsbD i = (decide (i < 64) && decide (i < w) && r.getLsbD (lo + i)) := by
  unfold getBitsAt
  rw [BitVec.getLsbD_and, BitVec.getLsbD_ushiftRight, bitMask_getLsbD]
  by_cases h1 : i < 64 <;> by_cases h2 : i < w <;> simp [h1, h2]

/-- Bit `i` after a field write: the value's bit inside the field, the old bit outside. -/
theorem setBitsAt_getLsbD (r v : BitVec 64) (lo w i : Nat) (h : lo + w ≤ 64) :
    (setBitsAt r lo w v).getLsbD i =
      if lo ≤ i ∧ i < lo + w then v.getLsbD (i - lo) else r.getLsbD i := by
  unfold setBitsAt
  rw [BitVec.getLsbD_or, BitVec.getLsbD_and, BitVec.getLsbD_not, BitVec.getLsbD_shiftLeft, BitVec.getLsbD_and, bitMask_getLsbD,
    bitMask_getLsbD]
  by_cases h0 : i < 64
  · by_cases h1 : lo ≤ i
    · by_cases h2 : i < lo + w
      · have h3 : i - lo < w := by omega
        have h4 : i - lo < 64 := by omega
        simp [h0, h1, h2, h3, h4]
      · have h3 : ¬ i - lo < w := by omega
        simp [h0, h1, h2, h3]
    · simp [h0, h1]
  · rw [BitVec.getLsbD_of_ge r i (by omega)]
    have h2 : ¬ (lo ≤ i ∧ i < lo + w) := by omega
    simp [h0, h2]

/-- Reading a field just written gives the value. -/
theorem getBitsAt_setBitsAt (r v : BitVec 64) (lo w : Nat) (h : lo + w ≤ 64) (hv : v.toNat < 2 ^ w) :
    getBitsAt (setBitsAt r lo w v) lo w = v := by
  apply BitVec.eq_of_getLsbD_eq
  intro i hi
  rw [getBitsAt_getLsbD, setBitsAt_getLsbD _ _ _ _ _ h]
  by_cases hw : i < w
  · simp [hi, hw]
  · have : v.getLsbD i = false := by
      rw [BitVec.getLsbD, Nat.testBit_lt_two_pow (Nat.lt_of_lt_of_le hv (Nat.pow_le_pow_right (by omega) (by omega)))]
    simp [hw, this]

/-- Reading a field that does not overlap the one written gives its old value. -/
theorem getBitsAt_setBitsAt_other (r v : BitVec 64) (lo w lo' w' : Nat) (h : lo + w ≤ 64)
    (hd : lo' + w' ≤ lo ∨ lo + w ≤ lo') : getBitsAt (setBitsAt r lo w v) lo' w' = getBitsAt r lo' w' := by
  apply BitVec.eq_of_getLsbD_eq
  intro i hi
  rw [getBitsAt_getLsbD, getBitsAt_getLsbD, setBitsAt_getLsbD _ _ _ _ _ h]
  by_cases hw : i < w'
  · rw [if_neg (by omega)]
  · simp [hw]

/-- Bits outside the written field are unchanged. -/
theorem setBitsAt_and_disjoint (r v m : BitVec 64) (lo w : Nat) (h : lo + w ≤ 64) (hm : m &&& bitMask lo w = 0) :
    setBitsAt r lo w v &&& m = r &&& m := by
  apply BitVec.eq_of_getLsbD_eq
  intro i hi
  rw [BitVec.getLsbD_and, BitVec.getLsbD_and, setBitsAt_getLsbD _ _ _ _ _ h]
  by_cases hw : lo ≤ i ∧ i < lo + w
  · have h1 := congrArg (fun x => x.getLsbD i) hm
    simp only [BitVec.getLsbD_and, bitMask_getLsbD] at h1
    have h2 : m.getLsbD i = false := by simpa [hi, hw.1, hw.2] using h1
    simp [h2]
  · rw [if_neg hw]

theorem RflagsField.inside (f : RflagsField) : f.lo + f.width ≤ 64 := by cases f <;> decide
theorem Cr0Field.inside (f : Cr0Field) : f.lo + 1 ≤ 64 := by cases f <;> decide
theorem Cr4Field.inside (f : Cr4Field) : f.lo + 1 ≤ 64 := by cases f <;> decide
theorem EferField.inside (f : EferField) : f.lo + 1 ≤ 64 := by cases f <;> decide

theorem RflagsField.disjoint (f g : RflagsField) (h : g ≠ f) : g.lo + g.width ≤ f.lo ∨ f.lo + f.width ≤ g.lo := by
  cases f <;> cases g <;> first | exact absurd rfl h | decide
theorem Cr0Field.disjoint (f g : Cr0Field) (h : g ≠ f) : g.lo + 1 ≤ f.lo ∨ f.lo + 1 ≤ g.lo := by
  cases f <;> cases g <;> first | exact absurd rfl h | decide
theorem Cr4Field.disjoint (f g : Cr4Field) (h : g ≠ f) : g.lo + 1 ≤ f.lo ∨ f.lo + 1 ≤ g.lo := by
  cases f <;> cases g <;> first | exact absurd rfl h | decide
theorem EferField.disjoint (f g : EferField) (h : g ≠ f) : g.lo + 1 ≤ f.lo ∨ f.lo + 1 ≤ g.lo := by
  cases f <;> cases g <;> first | exact absurd rfl h | decide

namespace Machine

/-! Registers by name. -/

@[simp] theorem Regs.getScalar_setScalar (r : Regs) (n : Scalar) (v : BitVec 64) : (r.setScalar n v).getScalar n = v := by
  cases n <;> rfl

theorem Regs.getScalar_setScalar_other (r : Regs) {n k : Scalar} (v : BitVec 64) (h : k ≠ n) :
    (r.setScalar n v).getScalar k = r.getScalar k := by
  cases n <;> cases k <;> first | exact absurd rfl h | rfl

@[simp] theorem Regs.getSeg_setSeg (r : Regs) (n : Sreg) (c : SegCache) : (r.setSeg n c).getSeg n = c := by cases n <;> rfl

theorem Regs.getSeg_setSeg_other (r : Regs) {n k : Sreg} (c : SegCache) (h : k ≠ n) :
    (r.setSeg n c).getSeg k = r.getSeg k := by
  cases n <;> cases k <;> first | exact absurd rfl h | rfl

@[simp] theorem Regs.getTable_setTable (r : Regs) (t : TableReg) (p : TablePtr) : (r.setTable t p).getTable t = p := by
  cases t <;> rfl

theorem Regs.getTable_setTable_other (r : Regs) {t k : TableReg} (p : TablePtr) (h : k ≠ t) :
    (r.setTable t p).getTable k = r.getTable k := by
  cases t <;> cases k <;> first | exact absurd rfl h | rfl

/-- Writing a segment cache leaves every other kind of register alone. -/
@[simp] theorem Regs.setSeg_getScalar (r : Regs) (n : Sreg) (c : SegCache) (k : Scalar) :
    (r.setSeg n c).getScalar k = r.getScalar k := by cases n <;> cases k <;> rfl
@[simp] theorem Regs.setSeg_getTable (r : Regs) (n : Sreg) (c : SegCache) (t : TableReg) :
    (r.setSeg n c).getTable t = r.getTable t := by cases n <;> cases t <;> rfl
@[simp] theorem Regs.setSeg_rflags (r : Regs) (n : Sreg) (c : SegCache) : (r.setSeg n c).rflags = r.rflags := by cases n <;> rfl
@[simp] theorem Regs.setSeg_cr0 (r : Regs) (n : Sreg) (c : SegCache) : (r.setSeg n c).cr0 = r.cr0 := by cases n <;> rfl
@[simp] theorem Regs.setSeg_cr4 (r : Regs) (n : Sreg) (c : SegCache) : (r.setSeg n c).cr4 = r.cr4 := by cases n <;> rfl
@[simp] theorem Regs.setSeg_efer (r : Regs) (n : Sreg) (c : SegCache) : (r.setSeg n c).efer = r.efer := by cases n <;> rfl

/-- Writing a plain scalar leaves every other kind of register alone. -/
@[simp] theorem Regs.setScalar_getSeg (r : Regs) (n : Scalar) (v : BitVec 64) (k : Sreg) :
    (r.setScalar n v).getSeg k = r.getSeg k := by cases n <;> cases k <;> rfl
@[simp] theorem Regs.setScalar_getTable (r : Regs) (n : Scalar) (v : BitVec 64) (t : TableReg) :
    (r.setScalar n v).getTable t = r.getTable t := by cases n <;> cases t <;> rfl
@[simp] theorem Regs.setScalar_rflags (r : Regs) (n : Scalar) (v : BitVec 64) : (r.setScalar n v).rflags = r.rflags := by
  cases n <;> rfl
@[simp] theorem Regs.setScalar_cr0 (r : Regs) (n : Scalar) (v : BitVec 64) : (r.setScalar n v).cr0 = r.cr0 := by
  cases n <;> rfl
@[simp] theorem Regs.setScalar_cr4 (r : Regs) (n : Scalar) (v : BitVec 64) : (r.setScalar n v).cr4 = r.cr4 := by
  cases n <;> rfl
@[simp] theorem Regs.setScalar_efer (r : Regs) (n : Scalar) (v : BitVec 64) : (r.setScalar n v).efer = r.efer := by
  cases n <;> rfl

/-- Writing a table pointer leaves every other kind of register alone. -/
@[simp] theorem Regs.setTable_getScalar (r : Regs) (t : TableReg) (p : TablePtr) (k : Scalar) :
    (r.setTable t p).getScalar k = r.getScalar k := by cases t <;> cases k <;> rfl
@[simp] theorem Regs.setTable_getSeg (r : Regs) (t : TableReg) (p : TablePtr) (k : Sreg) :
    (r.setTable t p).getSeg k = r.getSeg k := by cases t <;> cases k <;> rfl
@[simp] theorem Regs.setTable_rflags (r : Regs) (t : TableReg) (p : TablePtr) : (r.setTable t p).rflags = r.rflags := by
  cases t <;> rfl
@[simp] theorem Regs.setTable_cr0 (r : Regs) (t : TableReg) (p : TablePtr) : (r.setTable t p).cr0 = r.cr0 := by
  cases t <;> rfl
@[simp] theorem Regs.setTable_cr4 (r : Regs) (t : TableReg) (p : TablePtr) : (r.setTable t p).cr4 = r.cr4 := by
  cases t <;> rfl
@[simp] theorem Regs.setTable_efer (r : Regs) (t : TableReg) (p : TablePtr) : (r.setTable t p).efer = r.efer := by
  cases t <;> rfl

/-! Components of a segment cache. -/

theorem toNat_setWidth_setWidth {w : Nat} (v : BitVec 64) (hv : v.toNat < 2 ^ w) :
    (v.setWidth w).setWidth 64 = v := by
  apply BitVec.eq_of_toNat_eq
  rw [BitVec.toNat_setWidth, BitVec.toNat_setWidth, Nat.mod_eq_of_lt hv, Nat.mod_eq_of_lt v.isLt]

theorem SegCache.get_set (c : SegCache) (k : SegComp) (v : BitVec 64) (hv : v.toNat < 2 ^ k.width) : (c.set k v).get k = v := by
  cases k <;> first | rfl | exact toNat_setWidth_setWidth v hv

theorem SegCache.get_set_other (c : SegCache) {k j : SegComp} (v : BitVec 64) (h : j ≠ k) : (c.set k v).get j = c.get j := by
  cases k <;> cases j <;> first | exact absurd rfl h | rfl

@[simp] theorem SegCache.set_rsvd (c : SegCache) (k : SegComp) (v : BitVec 64) : (c.set k v).rsvd = c.rsvd := by
  cases k <;> rfl

/-! Named fields (R123). -/

/-- Reading a field just written gives the value. -/
theorem Regs.fieldGet_fieldSet (r : Regs) (f : Field) (v : BitVec 64) (hv : v.toNat < 2 ^ f.width) :
    (r.fieldSet f v).fieldGet f = v := by
  cases f with
  | scalar n => simp [Regs.fieldSet, Regs.fieldGet]
  | rflags f => exact getBitsAt_setBitsAt _ _ _ _ f.inside hv
  | cr0 f => exact getBitsAt_setBitsAt _ _ _ _ f.inside hv
  | cr4 f => exact getBitsAt_setBitsAt _ _ _ _ f.inside hv
  | efer f => exact getBitsAt_setBitsAt _ _ _ _ f.inside hv
  | seg n c => simpa [Regs.fieldSet, Regs.fieldGet] using SegCache.get_set _ c v hv
  | tableBase t => simp [Regs.fieldSet, Regs.fieldGet]
  | tableLimit t => simpa [Regs.fieldSet, Regs.fieldGet] using toNat_setWidth_setWidth (w := 16) v hv

/-- Every other field keeps its value: no two named fields overlap. -/
theorem Regs.fieldGet_fieldSet_other (r : Regs) {f g : Field} (v : BitVec 64) (h : g ≠ f) :
    (r.fieldSet f v).fieldGet g = r.fieldGet g := by
  cases f with
  | scalar n =>
    cases g <;> simp only [Regs.fieldSet, Regs.fieldGet, Regs.setScalar_getSeg, Regs.setScalar_getTable, Regs.setScalar_rflags,
      Regs.setScalar_cr0, Regs.setScalar_cr4, Regs.setScalar_efer]
    exact Regs.getScalar_setScalar_other r v (by rintro rfl; exact h rfl)
  | rflags f =>
    cases g with
    | rflags g => exact getBitsAt_setBitsAt_other _ _ _ _ _ _ f.inside (f.disjoint g (by rintro rfl; exact h rfl))
    | scalar k => cases k <;> rfl
    | seg k c => cases k <;> rfl
    | tableBase t => cases t <;> rfl
    | tableLimit t => cases t <;> rfl
    | cr0 _ => rfl
    | cr4 _ => rfl
    | efer _ => rfl
  | cr0 f =>
    cases g with
    | cr0 g => exact getBitsAt_setBitsAt_other _ _ _ _ _ _ f.inside (f.disjoint g (by rintro rfl; exact h rfl))
    | scalar k => cases k <;> rfl
    | seg k c => cases k <;> rfl
    | tableBase t => cases t <;> rfl
    | tableLimit t => cases t <;> rfl
    | rflags _ => rfl
    | cr4 _ => rfl
    | efer _ => rfl
  | cr4 f =>
    cases g with
    | cr4 g => exact getBitsAt_setBitsAt_other _ _ _ _ _ _ f.inside (f.disjoint g (by rintro rfl; exact h rfl))
    | scalar k => cases k <;> rfl
    | seg k c => cases k <;> rfl
    | tableBase t => cases t <;> rfl
    | tableLimit t => cases t <;> rfl
    | rflags _ => rfl
    | cr0 _ => rfl
    | efer _ => rfl
  | efer f =>
    cases g with
    | efer g => exact getBitsAt_setBitsAt_other _ _ _ _ _ _ f.inside (f.disjoint g (by rintro rfl; exact h rfl))
    | scalar k => cases k <;> rfl
    | seg k c => cases k <;> rfl
    | tableBase t => cases t <;> rfl
    | tableLimit t => cases t <;> rfl
    | rflags _ => rfl
    | cr0 _ => rfl
    | cr4 _ => rfl
  | seg n c =>
    cases g with
    | seg k j =>
      by_cases hk : k = n
      · subst hk
        simp only [Regs.fieldSet, Regs.fieldGet, Regs.getSeg_setSeg]
        exact SegCache.get_set_other _ v (by rintro rfl; exact h rfl)
      · simp only [Regs.fieldSet, Regs.fieldGet, Regs.getSeg_setSeg_other r _ hk]
    | _ => simp only [Regs.fieldSet, Regs.fieldGet, Regs.setSeg_getScalar, Regs.setSeg_getTable, Regs.setSeg_rflags,
        Regs.setSeg_cr0, Regs.setSeg_cr4, Regs.setSeg_efer]
  | tableBase t =>
    cases g with
    | tableBase k =>
      have hk : k ≠ t := by rintro rfl; exact h rfl
      simp only [Regs.fieldSet, Regs.fieldGet, Regs.getTable_setTable_other r _ hk]
    | tableLimit k =>
      by_cases hk : k = t
      · subst hk; simp [Regs.fieldSet, Regs.fieldGet]
      · simp only [Regs.fieldSet, Regs.fieldGet, Regs.getTable_setTable_other r _ hk]
    | _ => simp only [Regs.fieldSet, Regs.fieldGet, Regs.setTable_getScalar, Regs.setTable_getSeg, Regs.setTable_rflags,
        Regs.setTable_cr0, Regs.setTable_cr4, Regs.setTable_efer]
  | tableLimit t =>
    cases g with
    | tableLimit k =>
      have hk : k ≠ t := by rintro rfl; exact h rfl
      simp only [Regs.fieldSet, Regs.fieldGet, Regs.getTable_setTable_other r _ hk]
    | tableBase k =>
      by_cases hk : k = t
      · subst hk; simp [Regs.fieldSet, Regs.fieldGet]
      · simp only [Regs.fieldSet, Regs.fieldGet, Regs.getTable_setTable_other r _ hk]
    | _ => simp only [Regs.fieldSet, Regs.fieldGet, Regs.setTable_getScalar, Regs.setTable_getSeg, Regs.setTable_rflags,
        Regs.setTable_cr0, Regs.setTable_cr4, Regs.setTable_efer]

/-! Fixed bits (R34). -/

theorem RflagsField.fixed_disjoint (f : RflagsField) : rflagsFixed &&& bitMask f.lo f.width = 0 := by cases f <;> decide
theorem Cr0Field.fixed_disjoint (f : Cr0Field) : cr0Fixed &&& bitMask f.lo 1 = 0 := by cases f <;> decide
theorem Cr4Field.fixed_disjoint (f : Cr4Field) : cr4Fixed &&& bitMask f.lo 1 = 0 := by cases f <;> decide
theorem EferField.fixed_disjoint (f : EferField) : eferFixed &&& bitMask f.lo 1 = 0 := by cases f <;> decide

/-- No field write touches a fixed or reserved bit. -/
theorem Regs.fixedBits_fieldSet (r : Regs) (f : Field) (v : BitVec 64) : (r.fieldSet f v).fixedBits = r.fixedBits := by
  cases f with
  | scalar n => cases n <;> rfl
  | rflags f =>
    simp only [Regs.fieldSet, Regs.fixedBits, setBitsAt_and_disjoint _ _ _ _ _ f.inside (RflagsField.fixed_disjoint f)]
  | cr0 f => simp only [Regs.fieldSet, Regs.fixedBits, setBitsAt_and_disjoint _ _ _ _ _ f.inside (Cr0Field.fixed_disjoint f)]
  | cr4 f => simp only [Regs.fieldSet, Regs.fixedBits, setBitsAt_and_disjoint _ _ _ _ _ f.inside (Cr4Field.fixed_disjoint f)]
  | efer f =>
    simp only [Regs.fieldSet, Regs.fixedBits, setBitsAt_and_disjoint _ _ _ _ _ f.inside (EferField.fixed_disjoint f)]
  | seg n c => cases n <;> simp [Regs.fieldSet, Regs.fixedBits, Regs.setSeg, Regs.getSeg]
  | tableBase t => cases t <;> rfl
  | tableLimit t => cases t <;> rfl

/-- Loading a segment cache touches no fixed or reserved bit outside the caches. -/
theorem Regs.fixedBits_loadCache (r : Regs) (n : Sreg) (c : SegCache) :
    (r.loadCache n c).fixedBits.outsideCaches = r.fixedBits.outsideCaches := by
  cases n <;> rfl

/-- Loading a segment cache leaves its reserved bits 0 and those of the others alone. -/
theorem Regs.loadCache_rsvd (r : Regs) (n k : Sreg) (c : SegCache) :
    ((r.loadCache n c).getSeg k).rsvd = if k = n then 0 else (r.getSeg k).rsvd := by
  cases n <;> cases k <;> rfl

/-- Loading a segment cache keeps the fixed and reserved bits as the spec fixes them. -/
theorem Regs.fixedOk_loadCache {r : Regs} (n : Sreg) (c : SegCache) (h : r.fixedOk = true) :
    (r.loadCache n c).fixedOk = true := by
  simp only [Regs.fixedOk, beq_iff_eq, Regs.fixedBits, FixedBits.spec, FixedBits.mk.injEq] at h ⊢
  cases n <;> simp_all [Regs.loadCache, Regs.setSeg]

end Machine

end Sys2Proof
end

