-- ==== Sys2Proof/Laws/Serializer.lean ====
section
/-! SUPPORT. The Register File's wire image and its inverse keep every bit (10_state.md R31, R34). -/

namespace Sys2Proof

theorem leAt_append_left {w i n : Nat} {a b : List Byte} (h : i + n ≤ a.length) : leAt w (a ++ b) i n = leAt w a i n := by
  simp [leAt, slice_append_left h]

theorem leAt_append_right {w i n : Nat} {a b : List Byte} (h : a.length ≤ i) :
    leAt w (a ++ b) i n = leAt w b (i - a.length) n := by
  simp [leAt, slice_append_right h]

/-- A field read where it was put. -/
theorem leAt_leBits {w n : Nat} (v : BitVec w) (h : w ≤ 8 * n) : leAt w (leBits n v) 0 n = v := by
  rw [leAt, slice_self (by simp), ofNat_fromLE_leBits v h]

/-- The bytes of a field are the slice it was read from. -/
theorem leBits_leAt {w n i : Nat} {b : List Byte} (hw : w = 8 * n) (h : i + n ≤ b.length) :
    leBits n (leAt w b i n) = slice b i n := by
  have hl : (slice b i n).length = n := by simp; omega
  have hlt := fromLE_lt (slice b i n)
  rw [hl] at hlt
  have he := leBytes_fromLE (slice b i n)
  rw [hl] at he
  have h256 : (256 : Nat) ^ n = 2 ^ w := by rw [hw, Nat.pow_mul]
  rw [leBits, leAt, BitVec.toNat_ofNat, Nat.mod_eq_of_lt (by rw [← h256]; exact hlt), he]

/-- Two adjacent slices make one. -/
theorem slice_append_slice (b : List Byte) (i n m : Nat) : slice b i n ++ slice b (i + n) m = slice b i (n + m) := by
  unfold slice
  rw [List.take_add, ← List.drop_drop]

theorem slice_join {b : List Byte} {i j n m : Nat} (h : j = i + n) : slice b i n ++ slice b j m = slice b i (n + m) := by
  subst h
  exact slice_append_slice b i n m

theorem leBits_leAt64 {i : Nat} {b : List Byte} (h : i + 8 ≤ b.length) : leBits 8 (leAt 64 b i 8) = slice b i 8 :=
  leBits_leAt rfl h

namespace Machine

/-! Segment cache records. -/

theorem SegCache.attr_parse (attr : BitVec 16) :
    (attr.extractLsb 15 15 ++ attr.extractLsb 14 14 ++ attr.extractLsb 13 13 ++ attr.extractLsb 12 12 ++
      attr.extractLsb 11 8 ++ attr.extractLsb 7 7 ++ attr.extractLsb 6 5 ++ attr.extractLsb 4 4 ++
      attr.extractLsb 3 0 : BitVec 16) = attr := by
  apply BitVec.eq_of_getLsbD_eq
  intro i hi
  simp only [BitVec.getLsbD_append, BitVec.getLsbD_extractLsb]
  interval_cases i <;> simp

@[simp] theorem SegCache.image_length (c : SegCache) : c.image.length = 16 := by simp [SegCache.image]
@[simp] theorem TablePtr.image_length (t : TablePtr) : t.image.length = 16 := by simp [TablePtr.image]

theorem SegCache.image_parse {b : List Byte} {i : Nat} (h : i + 16 ≤ b.length) :
    (SegCache.parse b i).image = slice b i 16 := by
  unfold SegCache.image SegCache.attr SegCache.parse
  dsimp only
  rw [SegCache.attr_parse, leBits_leAt rfl (by omega), leBits_leAt rfl (by omega), leBits_leAt rfl (by omega),
    leBits_leAt rfl (by omega), slice_append_slice, slice_append_slice, slice_append_slice]

theorem TablePtr.image_parse {b : List Byte} {i : Nat} (h : i + 16 ≤ b.length) :
    (TablePtr.parse b i).image = slice b i 16 := by
  unfold TablePtr.image TablePtr.parse
  dsimp only
  rw [leBits_leAt rfl (by omega), leBits_leAt rfl (by omega), leBits_leAt rfl (by omega), slice_append_slice,
    slice_append_slice]

theorem SegCache.attr_fields (c : SegCache) :
    c.attr.extractLsb 3 0 = c.type ∧ c.attr.extractLsb 4 4 = c.s ∧ c.attr.extractLsb 6 5 = c.dpl ∧
      c.attr.extractLsb 7 7 = c.p ∧ c.attr.extractLsb 11 8 = c.rsvd ∧ c.attr.extractLsb 12 12 = c.avl ∧
      c.attr.extractLsb 13 13 = c.l ∧ c.attr.extractLsb 14 14 = c.db ∧ c.attr.extractLsb 15 15 = c.g := by
  unfold SegCache.attr
  refine ⟨?_, ?_, ?_, ?_, ?_, ?_, ?_, ?_, ?_⟩ <;>
  · apply BitVec.eq_of_getLsbD_eq
    intro i hi
    simp only [BitVec.getLsbD_append, BitVec.getLsbD_extractLsb]
    interval_cases i <;> simp

theorem SegCache.parse_image_append (c : SegCache) (pre post : List Byte) {i : Nat} (h : pre.length = i) :
    SegCache.parse (pre ++ (c.image ++ post)) i = c := by
  subst h
  have hb : ∀ {w k n : Nat}, k + n ≤ 16 → leAt w (pre ++ (c.image ++ post)) (pre.length + k) n = leAt w c.image k n := by
    intro w k n hk
    rw [leAt_append_right (by omega), leAt_append_left (by simp; omega), Nat.add_sub_cancel_left]
  have h0 : leAt 64 c.image 0 8 = c.base := by
    unfold SegCache.image
    rw [leAt_append_left (by simp), leAt_append_left (by simp), leAt_append_left (by simp), leAt_leBits _ (by omega)]
  have h1 : leAt 32 c.image 8 4 = c.limit := by
    unfold SegCache.image
    rw [leAt_append_left (by simp), leAt_append_left (by simp), leAt_append_right (by simp)]
    simpa using leAt_leBits (n := 4) c.limit (by omega)
  have h2 : leAt 16 c.image 12 2 = c.selector := by
    unfold SegCache.image
    rw [leAt_append_left (by simp), leAt_append_right (by simp)]
    simpa using leAt_leBits (n := 2) c.selector (by omega)
  have h3 : leAt 16 c.image 14 2 = c.attr := by
    unfold SegCache.image
    rw [leAt_append_right (by simp)]
    simpa using leAt_leBits (n := 2) c.attr (by omega)
  obtain ⟨a0, a1, a2, a3, a4, a5, a6, a7, a8⟩ := SegCache.attr_fields c
  unfold SegCache.parse
  have e0 := hb (w := 64) (k := 0) (n := 8) (by omega)
  rw [Nat.add_zero] at e0
  simp only [hb (w := 16) (k := 14) (n := 2) (by omega), hb (w := 32) (k := 8) (n := 4) (by omega),
    hb (w := 16) (k := 12) (n := 2) (by omega), e0, h0, h1, h2, h3, a0, a1, a2, a3, a4, a5, a6, a7, a8]

theorem TablePtr.parse_image_append (t : TablePtr) (pre post : List Byte) {i : Nat} (h : pre.length = i) :
    TablePtr.parse (pre ++ (t.image ++ post)) i = t := by
  subst h
  have hb : ∀ {w k n : Nat}, k + n ≤ 16 → leAt w (pre ++ (t.image ++ post)) (pre.length + k) n = leAt w t.image k n := by
    intro w k n hk
    rw [leAt_append_right (by omega), leAt_append_left (by simp; omega), Nat.add_sub_cancel_left]
  have h0 : leAt 64 t.image 0 8 = t.base := by
    unfold TablePtr.image
    rw [leAt_append_left (by simp), leAt_append_left (by simp), leAt_leBits _ (by omega)]
  have h1 : leAt 16 t.image 8 2 = t.limit := by
    unfold TablePtr.image
    rw [leAt_append_left (by simp), leAt_append_right (by simp)]
    simpa using leAt_leBits (n := 2) t.limit (by omega)
  have h2 : leAt 48 t.image 10 6 = t.rsvd := by
    unfold TablePtr.image
    rw [leAt_append_right (by simp)]
    simpa using leAt_leBits (n := 6) t.rsvd (by omega)
  unfold TablePtr.parse
  have e0 := hb (w := 64) (k := 0) (n := 8) (by omega)
  rw [Nat.add_zero] at e0
  simp only [hb (w := 16) (k := 8) (n := 2) (by omega), hb (w := 48) (k := 10) (n := 6) (by omega), e0, h0, h1, h2]

/-! The Register File. -/

@[simp] theorem Regs.image_length (r : Regs) : r.image.length = 400 := by
  unfold Regs.image
  simp only [List.length_append]
  simp only [leBits_length, SegCache.image_length, TablePtr.image_length]

/-- Every bit of a 400-byte sequence is kept (R31, R34). -/
theorem Regs.image_parse {b : List Byte} (h : b.length = 400) : (Regs.parse b).image = b := by
  have key : (Regs.parse b).image = slice b 0 400 := by
    unfold Regs.image Regs.parse
    dsimp only
    simp (disch := omega) only [SegCache.image_parse, TablePtr.image_parse, leBits_leAt64, slice_join, Nat.reduceAdd]
  rw [key, slice_self h]

theorem leBits_inj {w n : Nat} {v v' : BitVec w} (hw : w ≤ 8 * n) (h : leBits n v = leBits n v') : v = v' := by
  rw [← ofNat_fromLE_leBits v hw, h, ofNat_fromLE_leBits v' hw]

theorem SegCache.image_inj {c c' : SegCache} (h : c.image = c'.image) : c = c' := by
  have e : SegCache.parse c.image 0 = SegCache.parse c'.image 0 := by rw [h]
  have e1 := SegCache.parse_image_append c [] [] rfl
  have e2 := SegCache.parse_image_append c' [] [] rfl
  simp only [List.nil_append, List.append_nil] at e1 e2
  exact e1.symm.trans (e.trans e2)

theorem TablePtr.image_inj {c c' : TablePtr} (h : c.image = c'.image) : c = c' := by
  have e : TablePtr.parse c.image 0 = TablePtr.parse c'.image 0 := by rw [h]
  have e1 := TablePtr.parse_image_append c [] [] rfl
  have e2 := TablePtr.parse_image_append c' [] [] rfl
  simp only [List.nil_append, List.append_nil] at e1 e2
  exact e1.symm.trans (e.trans e2)

theorem Regs.image_inj {r r' : Regs} (h : r.image = r'.image) : r = r' := by
  cases r
  cases r'
  unfold Regs.image at h
  dsimp only at h
  obtain ⟨h, e_efer⟩ := List.append_inj' h (by simp)
  obtain ⟨h, e_dr7⟩ := List.append_inj' h (by simp)
  obtain ⟨h, e_dr6⟩ := List.append_inj' h (by simp)
  obtain ⟨h, e_dr3⟩ := List.append_inj' h (by simp)
  obtain ⟨h, e_dr2⟩ := List.append_inj' h (by simp)
  obtain ⟨h, e_dr1⟩ := List.append_inj' h (by simp)
  obtain ⟨h, e_dr0⟩ := List.append_inj' h (by simp)
  obtain ⟨h, e_cr8⟩ := List.append_inj' h (by simp)
  obtain ⟨h, e_cr4⟩ := List.append_inj' h (by simp)
  obtain ⟨h, e_cr3⟩ := List.append_inj' h (by simp)
  obtain ⟨h, e_cr2⟩ := List.append_inj' h (by simp)
  obtain ⟨h, e_cr0⟩ := List.append_inj' h (by simp)
  obtain ⟨h, e_idtr⟩ := List.append_inj' h (by simp)
  obtain ⟨h, e_gdtr⟩ := List.append_inj' h (by simp)
  obtain ⟨h, e_tr⟩ := List.append_inj' h (by simp)
  obtain ⟨h, e_ldtr⟩ := List.append_inj' h (by simp)
  obtain ⟨h, e_gs⟩ := List.append_inj' h (by simp)
  obtain ⟨h, e_fs⟩ := List.append_inj' h (by simp)
  obtain ⟨h, e_ds⟩ := List.append_inj' h (by simp)
  obtain ⟨h, e_ss⟩ := List.append_inj' h (by simp)
  obtain ⟨h, e_cs⟩ := List.append_inj' h (by simp)
  obtain ⟨h, e_es⟩ := List.append_inj' h (by simp)
  obtain ⟨h, e_rflags⟩ := List.append_inj' h (by simp)
  obtain ⟨h, e_rip⟩ := List.append_inj' h (by simp)
  obtain ⟨h, e_r15⟩ := List.append_inj' h (by simp)
  obtain ⟨h, e_r14⟩ := List.append_inj' h (by simp)
  obtain ⟨h, e_r13⟩ := List.append_inj' h (by simp)
  obtain ⟨h, e_r12⟩ := List.append_inj' h (by simp)
  obtain ⟨h, e_r11⟩ := List.append_inj' h (by simp)
  obtain ⟨h, e_r10⟩ := List.append_inj' h (by simp)
  obtain ⟨h, e_r9⟩ := List.append_inj' h (by simp)
  obtain ⟨h, e_r8⟩ := List.append_inj' h (by simp)
  obtain ⟨h, e_rdi⟩ := List.append_inj' h (by simp)
  obtain ⟨h, e_rsi⟩ := List.append_inj' h (by simp)
  obtain ⟨h, e_rbp⟩ := List.append_inj' h (by simp)
  obtain ⟨h, e_rsp⟩ := List.append_inj' h (by simp)
  obtain ⟨h, e_rbx⟩ := List.append_inj' h (by simp)
  obtain ⟨h, e_rdx⟩ := List.append_inj' h (by simp)
  obtain ⟨h, e_rcx⟩ := List.append_inj' h (by simp)
  have e_rax := h
  obtain rfl := leBits_inj (by omega) e_rax
  obtain rfl := leBits_inj (by omega) e_rcx
  obtain rfl := leBits_inj (by omega) e_rdx
  obtain rfl := leBits_inj (by omega) e_rbx
  obtain rfl := leBits_inj (by omega) e_rsp
  obtain rfl := leBits_inj (by omega) e_rbp
  obtain rfl := leBits_inj (by omega) e_rsi
  obtain rfl := leBits_inj (by omega) e_rdi
  obtain rfl := leBits_inj (by omega) e_r8
  obtain rfl := leBits_inj (by omega) e_r9
  obtain rfl := leBits_inj (by omega) e_r10
  obtain rfl := leBits_inj (by omega) e_r11
  obtain rfl := leBits_inj (by omega) e_r12
  obtain rfl := leBits_inj (by omega) e_r13
  obtain rfl := leBits_inj (by omega) e_r14
  obtain rfl := leBits_inj (by omega) e_r15
  obtain rfl := leBits_inj (by omega) e_rip
  obtain rfl := leBits_inj (by omega) e_rflags
  obtain rfl := SegCache.image_inj e_es
  obtain rfl := SegCache.image_inj e_cs
  obtain rfl := SegCache.image_inj e_ss
  obtain rfl := SegCache.image_inj e_ds
  obtain rfl := SegCache.image_inj e_fs
  obtain rfl := SegCache.image_inj e_gs
  obtain rfl := SegCache.image_inj e_ldtr
  obtain rfl := SegCache.image_inj e_tr
  obtain rfl := TablePtr.image_inj e_gdtr
  obtain rfl := TablePtr.image_inj e_idtr
  obtain rfl := leBits_inj (by omega) e_cr0
  obtain rfl := leBits_inj (by omega) e_cr2
  obtain rfl := leBits_inj (by omega) e_cr3
  obtain rfl := leBits_inj (by omega) e_cr4
  obtain rfl := leBits_inj (by omega) e_cr8
  obtain rfl := leBits_inj (by omega) e_dr0
  obtain rfl := leBits_inj (by omega) e_dr1
  obtain rfl := leBits_inj (by omega) e_dr2
  obtain rfl := leBits_inj (by omega) e_dr3
  obtain rfl := leBits_inj (by omega) e_dr6
  obtain rfl := leBits_inj (by omega) e_dr7
  obtain rfl := leBits_inj (by omega) e_efer
  rfl

/-- No bit of the Register File is lost (R31, R126). -/
theorem Regs.parse_image (r : Regs) : Regs.parse r.image = r := Regs.image_inj (Regs.image_parse r.image_length)

end Machine

end Sys2Proof
end

