-- ==== Sys2Proof/Laws/Setup.lean ====
section
/-! SUPPORT. What the setups look at, as numbers: the mode bits, the bound on the arena, an aligned offset, and the sizes of the
tables they write. -/

namespace Sys2Proof.Machine

theorem bitMask_zero_one : (bitMask 0 1).toNat = 2 ^ 1 - 1 := by decide

/-- LongMode as a bit of the number in `efer`. -/
theorem Regs.longMode_eq (r : Regs) : r.longMode = decide (r.efer.toNat / 2 ^ 10 % 2 = 1) := by
  simp only [Regs.longMode, Regs.fieldGet, getBitsAt, EferField.lo]
  rw [Bool.eq_iff_iff]
  simp [← BitVec.toNat_inj, Nat.shiftRight_eq_div_pow]
  rw [bitMask_zero_one, Nat.and_two_pow_sub_one_eq_mod]

/-- PagingEnabled as a bit of the number in `cr0`. -/
theorem Regs.pagingEnabled_eq (r : Regs) : r.pagingEnabled = decide (r.cr0.toNat / 2 ^ 31 % 2 = 1) := by
  simp only [Regs.pagingEnabled, Regs.fieldGet, getBitsAt, Cr0Field.lo]
  rw [Bool.eq_iff_iff]
  simp [← BitVec.toNat_inj, Nat.shiftRight_eq_div_pow]
  rw [bitMask_zero_one, Nat.and_two_pow_sub_one_eq_mod]

/-- A length MEM_MAX, bounded or not, admits. -/
theorem memAdmits_of_le {c : Config} {n : Nat} (h : ∀ m, c.memMax = some m → n ≤ m) : memAdmits c n = true := by
  unfold memAdmits
  cases hc : c.memMax with
  | none => rfl
  | some m => simpa using h m hc

/-- A length beyond a bounded MEM_MAX. -/
theorem memAdmits_of_lt {c : Config} {n m : Nat} (h : c.memMax = some m) (hn : m < n) : memAdmits c n = false := by
  simp [memAdmits, h, hn]

/-- The aligned offset is the only multiple of the alignment in its range. -/
theorem alignUp_eq {len alignment a : Nat} (h : a % alignment = 0) (hl : len ≤ a) (hu : a < len + alignment) :
    alignUp len alignment = a := by
  have h0 : 0 < alignment := by omega
  obtain ⟨k, rfl⟩ := Nat.dvd_of_mod_eq_zero h
  have hk : (len + alignment - 1) / alignment = k := by
    rw [Nat.div_eq_iff h0]
    rw [Nat.mul_comm] at hl hu
    omega
  rw [alignUp, hk, Nat.mul_comm]

/-- A root table below 2^52 is where `cr3` says. -/
theorem root64_of_lt {cr3 : BitVec 64} (h : cr3.toNat < 2 ^ 52) : root64 cr3 = cr3.toNat / 4096 * 4096 := by
  simp only [root64, tableAddr, BitVec.extractLsb_toNat, Nat.shiftRight_eq_div_pow]
  omega

/-- The global table is 48 bytes, or 56 in long mode. -/
@[simp] theorem gdtImage_length (long : Bool) (tss : Nat) : (gdtImage long tss).length = if long then 56 else 48 := by
  cases long <;> simp [gdtImage, encodeSeg, encodeSeg64, zeroBytes, leBits]

/-- The legacy directory fills a page. -/
@[simp] theorem legacyDirectory_length : legacyDirectory.length = 4096 := by
  have h : ∀ i, (encodePde32 (legacyEntry i)).length = 4 := fun i => by simp [encodePde32, leBits]
  rw [legacyDirectory, List.length_flatMap]
  simp only [h, List.map_const', List.sum_replicate, List.length_range, smul_eq_mul]

/-- The second-level table fills a page. -/
@[simp] theorem longDirectory_length : longDirectory.length = 4096 := by
  have h : ∀ i, (encodePdpte (longEntry i)).length = 8 := fun i => by simp [encodePdpte, encodeDirEntry, leBits]
  rw [longDirectory, List.length_flatMap]
  simp only [h, List.map_const', List.sum_replicate, List.length_range, smul_eq_mul]

end Sys2Proof.Machine
end

