-- ==== Sys2Proof/Tests/Slice0.lean ====
section
/-! SUPPORT. The model's own tests: ill-formed commands, a frame of every command written out from 30_encoding.md R71 and the
byte form of notes/assumptions/1.md to 3.md, the vectors of 95_test_vectors.md (each test names its vector), and for every
statement a state and operands that meet its hypotheses. -/

namespace Sys2Proof.Tests

open Sys2Proof Sys2Proof.Machine

set_option maxRecDepth 100000

/-! States and answers. -/

/-- A constructed 32-bit state, unbounded, with the arena `mem`. -/
def ready (mem : List Byte) : State :=
  { State.reset with
    cfg := { memMax := none, realSetsSystemSegs := false }, constructed := true, mem := Memory.ofBytes mem }

/-- The same with the registers `regs`. -/
def readyWith (regs : Regs) (mem : List Byte) : State := (ready mem).setRegs regs

/-- Fresh states (R260). -/
def fresh32 : State := readyWith (constructRegs .a32) []
def fresh64 : State := readyWith (constructRegs .a64) []

/-- The tables of 45_mode_setup.md R217 and R218, written out. -/
def table32 : List Byte :=
  [0, 0, 0, 0, 0, 0, 0, 0] ++ [0xFF, 0xFF, 0, 0, 0, 0x9B, 0xCF, 0] ++ [0xFF, 0xFF, 0, 0, 0, 0xFB, 0xCF, 0] ++
  [0xFF, 0xFF, 0, 0, 0, 0x93, 0xCF, 0] ++ [0xFF, 0xFF, 0, 0, 0, 0xF3, 0xCF, 0] ++ [0x67, 0, 0, 0, 0, 0x8B, 0, 0]
def table64 : List Byte :=
  [0, 0, 0, 0, 0, 0, 0, 0] ++ [0xFF, 0xFF, 0, 0, 0, 0x9B, 0xAF, 0] ++ [0xFF, 0xFF, 0, 0, 0, 0xFB, 0xAF, 0] ++
  [0xFF, 0xFF, 0, 0, 0, 0x93, 0xCF, 0] ++ [0xFF, 0xFF, 0, 0, 0, 0xF3, 0xCF, 0] ++
  [0x67, 0, 0, 0, 0, 0x8B, 0, 0, 0, 0, 0, 0, 0, 0, 0, 0]

/-- A table at arena offset 0 that `gdtr` describes. -/
def tableState (arch : Arch) (table : List Byte) : State :=
  readyWith { constructRegs arch with gdtr := ⟨0, BitVec.ofNat 16 (table.length - 1), 0⟩ } table

/-- G32 and G64 of 95_test_vectors.md 2.5, as far as a load looks at them. -/
def g32 : State := readyWith { constructRegs .a32 with gdtr := ⟨104, 47, 0⟩ } (List.replicate 104 0 ++ table32)
def g64 : State := readyWith { constructRegs .a64 with gdtr := ⟨104, 55, 0⟩ } (List.replicate 104 0 ++ table64)

/-- State T of 95_test_vectors.md 2.5, the hand-built table of program P3. -/
def handBuilt : State :=
  tableState .a32 ([0, 0, 0, 0, 0, 0, 0, 0] ++ [0xDE, 0xBC, 0x78, 0x56, 0x34, 0xD3, 0x5A, 0x12] ++
    [0xFF, 0, 0, 0, 0x10, 0x9A, 0xC0, 0] ++ [0x17, 0, 0, 0x20, 0, 0x82, 0, 0])

/-- A latched state. -/
def latched : State := { fresh32 with fault := some .outOfBounds }

/-- What the block answers. -/
def answer (o : Host.Outcome State Fault Refusal) : Option Response :=
  match o with
  | .next t => t.response
  | .fault _ => none
  | .refused _ => none

/-- Something of the state after a command. -/
def after {α : Type} (f : State → α) (o : Host.Outcome State Fault Refusal) : Option α :=
  match o with
  | .next t => some (f t)
  | .fault _ => none
  | .refused _ => none

def okBytes (b : List Byte) : Option Response := some ⟨.ok, .bytes b⟩
def okNothing : Option Response := some ⟨.ok, .nothing⟩
def err (k : FailKind) : Option Response := some ⟨.failed k, .nothing⟩

/-! Each check of WellFormed refuses an ill-formed command, and the block answers IllegalCommand (R74 (b)). -/

theorem test_wf_alloc_alignment_zero : (Instr.alloc 1 0).wellFormed = false := by decide
theorem test_wf_rset_value_too_wide : (Instr.rset (.rflags .iopl) 4).wellFormed = false := by decide
theorem test_wf_loadimg_short : (Instr.loadimg (List.replicate 399 0)).wellFormed = false := by decide
theorem test_wf_setup_idt_element_of_nine_bytes : (Instr.setupIdt [List.replicate 9 0]).wellFormed = false := by decide
theorem test_wf_decoders_of_eight_bytes :
    [Instr.decSeg [0], .decGate [0], .decTaskGate [0], .decPml4e [0], .decPdpte [0], .decPde64 [0], .decPte64 [0]].map
      Instr.wellFormed = List.replicate 7 false := by decide
theorem test_wf_decoders_of_sixteen_bytes :
    [Instr.decSeg64 (List.replicate 8 0), .decGate64 (List.replicate 8 0)].map Instr.wellFormed =
      List.replicate 2 false := by decide
theorem test_wf_decoders_of_a_task_state_segment :
    [Instr.decTss32 (List.replicate 103 0), .decTss64 (List.replicate 103 0)].map Instr.wellFormed =
      List.replicate 2 false := by decide
theorem test_wf_decoder_of_four_bytes : (Instr.decPde32 [0, 0, 0]).wellFormed = false := by decide
/-- V2.1-14. -/
theorem test_alloc_alignment_zero_is_illegal : answer (exec (.alloc 1 0) fresh32) = some ⟨.illegalCommand, .nothing⟩ := by
  decide

/-! A frame of every command. -/

theorem test_decode_state_commands :
    [[0x00, 0], [0x00, 1], [0x00, 2], [0x01, 0x05, 0], [0x01, 0x05, 1, 0x80, 0x20], [0x02, 0x10, 2, 0xAA, 0xBB]].map
        decodeFrame =
      [some (.construct .a32), some (.construct .a64), none, some (.alloc 5 1), some (.alloc 5 4096),
        some (.mwrite 16 [0xAA, 0xBB])] ∧
    [[0x03, 0x70, 8], [0x04, 43], [0x05, 43, 1, 0, 0, 0, 0, 0, 0, 0], [0x05, 43, 2, 0, 0, 0, 0, 0, 0, 0], [0x06], [0x06, 0]].map
        decodeFrame =
      [some (.mread 112 8), some (.rget (.cr0 .pe)), some (.rset (.cr0 .pe) 1), none, some .raw, none] ∧
    decodeFrame (0x07 :: (List.replicate 400 0 ++ [1, 0xAB])) = some (.loadimg (List.replicate 400 0 ++ [0xAB])) := by
  decide

theorem test_decode_setup_and_walk_commands :
    [[0x10, 1, 0x08, 0x00], [0x10, 8, 0, 0], [0x11], [0x12], [0x13, 1, 8, 1, 2, 3, 4, 5, 6, 7, 8], [0x13, 1, 1, 1]].map
        decodeFrame =
      [some (.loadSeg .cs 8), none, some .setupReal, some .setupGdt, some (.setupIdt [[1, 2, 3, 4, 5, 6, 7, 8]]), none] ∧
    [[0x14], [0x18, 0x1B, 0x00], [0x19, 0x34, 0x12, 0x10, 0xC0], [0x1A, 0x78, 0x56, 0x34, 0x12, 0x40, 0, 0, 0]].map
        decodeFrame =
      [some .setupPaging, some (.descAddr 0x1B), some (.walk32 0xC0101234), some (.walk64 0x4012345678)] := by
  decide

theorem test_decode_descriptor_encoders :
    decodeFrame [0x20, 0x78, 0x56, 0x34, 0x12, 0xDE, 0xBC, 0x0A, 3, 1, 2, 1, 1, 0, 1, 0] =
      some (.encSeg ⟨0x12345678, 0xABCDE, 3, 1, 2, 1, 1, 0, 1, 0⟩) ∧
    decodeFrame [0x22, 0x78, 0x56, 0x34, 0x12, 0, 0x80, 0xFF, 0xFF, 0x67, 0, 0, 9, 0, 0, 1, 0, 0, 0, 0] =
      some (.encSeg64 ⟨0xFFFF800012345678, 0x67, 9, 0, 0, 1, 0, 0, 0, 0⟩) ∧
    decodeFrame [0x24, 0x78, 0x56, 0x34, 0x12, 8, 0, 0xE, 0, 1] = some (.encGate ⟨0x12345678, 8, 0xE, 0, 1⟩) ∧
    decodeFrame [0x26, 0x67, 0x45, 0x23, 0x81, 0xFF, 0xFF, 0xFF, 0xFF, 8, 0, 0xE, 0, 1] =
      some (.encGate64 ⟨0xFFFFFFFF81234567, 8, 0xE, 0, 1⟩) ∧
    decodeFrame [0x28, 0x28, 0, 5, 0, 1] = some (.encTaskGate ⟨0x28, 5, 0, 1⟩) ∧
    decodeFrame ([0x2A, 0x34, 0x12] ++ List.replicate 18 0 ++ [0, 0x30, 0, 0] ++ List.replicate 52 0 ++ [0x30, 0, 1, 0x68, 0]) =
      some (.encTss32 ⟨0x1234, 0, 0, 0, 0, 0, 0, 0x3000, 0, 0, 0, 0, 0, 0, 0, 0, 0, 0, 0, 0, 0, 0, 0, 0, 0x30, 1, 0x68⟩) ∧
    decodeFrame ([0x2C] ++ List.replicate 72 0 ++ [0xEF, 0xCD, 0xAB, 0x89, 0x67, 0x45, 0x23, 0x01, 0, 0]) =
      some (.encTss64 ⟨0, 0, 0, 0, 0, 0, 0, 0, 0, 0x0123456789ABCDEF, 0⟩) := by
  decide

theorem test_decode_descriptor_decoders :
    decodeFrame [0x21, 1, 2, 3, 4, 5, 6, 7, 8] = some (.decSeg [1, 2, 3, 4, 5, 6, 7, 8]) ∧
    decodeFrame [0x25, 1, 2, 3, 4, 5, 6, 7, 8] = some (.decGate [1, 2, 3, 4, 5, 6, 7, 8]) ∧
    decodeFrame [0x29, 1, 2, 3, 4, 5, 6, 7, 8] = some (.decTaskGate [1, 2, 3, 4, 5, 6, 7, 8]) ∧
    decodeFrame [0x21, 1, 2, 3, 4, 5, 6, 7] = none ∧
    decodeFrame (0x23 :: List.replicate 16 7) = some (.decSeg64 (List.replicate 16 7)) ∧
    decodeFrame (0x27 :: List.replicate 16 7) = some (.decGate64 (List.replicate 16 7)) ∧
    decodeFrame (0x2B :: List.replicate 104 7) = some (.decTss32 (List.replicate 104 7)) ∧
    decodeFrame (0x2D :: List.replicate 104 7) = some (.decTss64 (List.replicate 104 7)) := by
  decide

theorem test_decode_entry_commands :
    decodeFrame [0x30, 1, 1, 1, 0, 0, 0, 0, 1, 0, 5, 0, 4, 0] = some (.encPde32 ⟨1, 1, 1, 0, 0, 0, 0, 1, 0, 5, 0x400⟩) ∧
    decodeFrame [0x31, 1, 2, 3, 4] = some (.decPde32 [1, 2, 3, 4]) ∧
    decodeFrame [0x32, 1, 1, 1, 0, 0, 0, 0, 0, 0, 2, 0, 0, 0, 0, 0xFF, 7, 1] =
      some (.encPml4e ⟨1, 1, 1, 0, 0, 0, 0, 0, 0, 2, 0x7FF, 1⟩) ∧
    decodeFrame [0x33, 1, 2, 3, 4, 5, 6, 7, 8] = some (.decPml4e [1, 2, 3, 4, 5, 6, 7, 8]) ∧
    decodeFrame [0x34, 1, 1, 1, 0, 0, 0, 0, 1, 0, 0, 0, 0, 4, 0, 0, 0, 0, 0] =
      some (.encPdpte ⟨1, 1, 1, 0, 0, 0, 0, 1, 0, 0, 0x40000, 0, 0⟩) ∧
    decodeFrame [0x35, 1, 2, 3, 4, 5, 6, 7, 8] = some (.decPdpte [1, 2, 3, 4, 5, 6, 7, 8]) ∧
    decodeFrame [0x36, 1, 1, 0, 0, 0, 0, 0, 1, 0, 0, 0, 2, 0, 0, 0, 0, 0, 0] =
      some (.encPde64 ⟨1, 1, 0, 0, 0, 0, 0, 1, 0, 0, 0x200, 0, 0⟩) ∧
    decodeFrame [0x37, 1, 2, 3, 4, 5, 6, 7, 8] = some (.decPde64 [1, 2, 3, 4, 5, 6, 7, 8]) ∧
    decodeFrame [0x38, 1, 0, 1, 1, 1, 1, 1, 1, 1, 5, 0x45, 0x23, 0xE1, 0xCD, 0xAB, 0xFF, 7, 1] =
      some (.encPte64 ⟨1, 0, 1, 1, 1, 1, 1, 1, 1, 5, 0xABCDE12345, 0x7FF, 1⟩) ∧
    decodeFrame [0x39, 1, 2, 3, 4, 5, 6, 7, 8] = some (.decPte64 [1, 2, 3, 4, 5, 6, 7, 8]) := by
  decide

/-- V2.7-2 and an operand one bit too wide. -/
theorem test_decode_rejects : decodeFrame [0x08] = none ∧ decodeFrame [0x28, 0x28, 0, 5, 4, 1] = none ∧ decodeFrame [] = none := by
  decide

/-- The table's word of every row decodes to a command of that row. -/
theorem test_every_table_word_decodes :
    Op.all.all (fun o => (decodeTableWord 8 o.code.toNat).map Instr.op == some o) = true := by decide

/-! Arena (95_test_vectors.md 2.1). -/

/-- V2.1-3 and V2.1-5. -/
theorem test_alloc_pads_to_the_alignment :
    after (fun t => (t.response, t.mem.len)) (exec (.alloc 0 4096) (ready (List.replicate 11 0))) =
      some (some ⟨.ok, .addr 4096⟩, 4096) ∧
    after (fun t => (t.response, t.mem.len)) (exec (.alloc 2 3) (ready (List.replicate 10 0))) =
      some (some ⟨.ok, .addr 12⟩, 14) := by decide
/-- V2.1-7, V2.1-8. -/
theorem test_mwrite_in_and_out_of_bounds :
    after (fun t => t.mem.toBytes) (exec (.mwrite 1 [0xAA, 0, 0xBB]) (ready [1, 2, 3, 4, 5])) =
      some [1, 0xAA, 0, 0xBB, 5] ∧
    after (fun t => (t.response, t.fault, t.mem.toBytes)) (exec (.mwrite 3 [0xAA, 0, 0xBB]) (ready [1, 2, 3, 4, 5])) =
      some (err .outOfBounds, some .outOfBounds, [1, 2, 3, 4, 5]) := by decide
/-- V2.1-9, V2.1-10. -/
theorem test_mwrite_of_nothing_at_the_end :
    answer (exec (.mwrite 8 []) (ready (List.replicate 8 0))) = okNothing ∧
    answer (exec (.mwrite 9 []) (ready (List.replicate 8 0))) = err .outOfBounds := by decide
/-- V2.1-11, V2.1-12. -/
theorem test_mread_bounds :
    answer (exec (.mread 4 4) (ready [1, 2, 3, 4, 5, 6, 0, 8])) = okBytes [5, 6, 0, 8] ∧
    answer (exec (.mread 4 5) (ready [1, 2, 3, 4, 5, 6, 0, 8])) = err .outOfBounds := by decide

/-! Register File and serializer (95_test_vectors.md 2.2). -/

/-- V2.2-1, V2.2-2. -/
theorem test_construct_images :
    after State.image (exec (.construct .a32) latched) = some (List.replicate 0x88 0 ++ [2] ++ List.replicate 263 0) ∧
    after State.image (exec (.construct .a64) latched) =
      some (List.replicate 0x88 0 ++ [2] ++ List.replicate 256 0 ++ [5] ++ List.replicate 6 0) := by decide
/-- V2.2-3, V2.2-9. -/
theorem test_rset_flag_fields :
    after (fun t => t.regs.rflags) (exec (.rset (.rflags .if_) 1) fresh32) = some 0x202 ∧
    after (fun t => t.regs.rflags) (exec (.rset (.rflags .iopl) 3) fresh32) = some 0x3002 := by decide
/-- V2.2-8, and a component of a segment record. -/
theorem test_rset_leaves_the_rest :
    after (fun t => (t.regs.cr0, t.regs.cr4)) (exec (.rset (.cr0 .pg) 1) fresh32) = some (0x80000000, 0) ∧
    after (fun t => t.regs.cs) (exec (.rset (.seg .cs .selector) 0xF000) fresh32) =
      some { SegCache.zero with selector := 0xF000 } := by decide
/-- V2.2-6. -/
theorem test_rget_of_a_loaded_image :
    (List.map (fun f => (Regs.parse (List.replicate 400 0xFF)).fieldGet f)
      [.scalar .rax, .cr0 .pg, .efer .lma, .seg .cs .type, .tableLimit .gdtr]) =
      [0xFFFFFFFFFFFFFFFF, 1, 1, 0xF, 0xFFFF] ∧
    answer (exec (.rget (.tableLimit .gdtr)) g32) = some ⟨.ok, .value 47⟩ := by decide
/-- V2.2-6, V2.2-7. -/
theorem test_loadimg :
    after (fun t => (t.regs.rflags, t.mem.toBytes, t.fault)) (exec (.loadimg (List.replicate 400 0xFF ++ [1, 2, 3])) latched) =
      some (0xFFFFFFFFFFFFFFFF, [1, 2, 3], none) ∧
    answer (exec (.loadimg (List.replicate 399 0)) fresh32) = some ⟨.illegalCommand, .nothing⟩ := by decide
/-- The record images below V2.2-11. -/
theorem test_raw_record_images :
    (SegCache.image { base := 0, limit := 0xFFFFFFFF, selector := 8, type := 0xB, s := 1, dpl := 0, p := 1, rsvd := 0, avl := 0
                      l := 0, db := 1, g := 1 }) =
      [0, 0, 0, 0, 0, 0, 0, 0, 0xFF, 0xFF, 0xFF, 0xFF, 8, 0, 0x9B, 0xC0] ∧
    (TablePtr.image ⟨104, 47, 0⟩) = [0x68, 0, 0, 0, 0, 0, 0, 0, 0x2F, 0, 0, 0, 0, 0, 0, 0] := by decide
/-- The arena follows the registers. -/
theorem test_raw_ends_with_the_arena :
    after (fun t => (t.response.map fun r => match r.result with | .bytes b => b.drop 392 | _ => [])) (exec .raw (ready [7, 0, 9])) =
      some (some [0, 0, 0, 0, 0, 0, 0, 0, 7, 0, 9]) := by decide

/-! Descriptors (95_test_vectors.md 2.3). -/

/-- V2.3-9, V2.3-12. -/
theorem test_enc_seg :
    answer (exec (.encSeg ⟨0x12345678, 0xABCDE, 0x3, 1, 2, 1, 1, 0, 1, 0⟩) fresh32) =
      okBytes [0xDE, 0xBC, 0x78, 0x56, 0x34, 0xD3, 0x5A, 0x12] ∧
    answer (exec (.encSeg ⟨0, 0x80001, 0, 0, 0, 0, 0, 0, 0, 0⟩) latched) = okBytes [1, 0, 0, 0, 0, 0, 8, 0] := by decide
/-- V2.3-29. -/
theorem test_dec_seg :
    answer (exec (.decSeg [0x01, 0x23, 0x45, 0x67, 0x89, 0xAB, 0xCD, 0xEF]) latched) =
      some ⟨.ok, .seg ⟨0xEF896745, 0xD2301, 0xB, 0, 1, 1, 0, 0, 1, 1⟩⟩ := by decide
/-- V2.3-15, V2.3-16. -/
theorem test_enc_seg64 :
    answer (exec (.encSeg64 ⟨0xFFFF800012345678, 0x67, 0x9, 0, 0, 1, 0, 0, 0, 0⟩) fresh32) =
      okBytes [0x67, 0, 0x78, 0x56, 0x34, 0x89, 0, 0x12, 0, 0x80, 0xFF, 0xFF, 0, 0, 0, 0] ∧
    answer (exec (.encSeg64 ⟨0xFFFFFFFFFFFFFFFF, 0, 0, 0, 0, 0, 0, 0, 0, 0⟩) fresh32) =
      okBytes [0, 0, 0xFF, 0xFF, 0xFF, 0, 0, 0xFF, 0xFF, 0xFF, 0xFF, 0xFF, 0, 0, 0, 0] := by decide
/-- V2.3-31. -/
theorem test_dec_seg64_ignores_the_reserved_word :
    answer (exec (.decSeg64 [0x67, 0, 0x78, 0x56, 0x34, 0x89, 0, 0x12, 0, 0x80, 0xFF, 0xFF, 0xAA, 0xBB, 0xCC, 0xDD]) fresh32) =
      some ⟨.ok, .seg64 ⟨0xFFFF800012345678, 0x67, 0x9, 0, 0, 1, 0, 0, 0, 0⟩⟩ := by decide
/-- V2.3-18, V2.3-21. -/
theorem test_enc_gate :
    answer (exec (.encGate ⟨0x12345678, 0x0008, 0xE, 0, 1⟩) fresh32) = okBytes [0x78, 0x56, 8, 0, 0, 0x8E, 0x34, 0x12] ∧
    answer (exec (.encGate ⟨0xFFFFFFFF, 0xFFFF, 0xF, 3, 1⟩) fresh32) =
      okBytes [0xFF, 0xFF, 0xFF, 0xFF, 0, 0xEF, 0xFF, 0xFF] := by decide
/-- V2.3-30. -/
theorem test_dec_gate :
    answer (exec (.decGate [0x01, 0x23, 0x45, 0x67, 0x89, 0xAB, 0xCD, 0xEF]) fresh32) =
      some ⟨.ok, .gate ⟨0xEFCD2301, 0x6745, 0xB, 1, 1⟩⟩ := by decide
/-- V2.3-23, V2.3-25. -/
theorem test_enc_gate64 :
    answer (exec (.encGate64 ⟨0xFFFFFFFF81234567, 8, 0xE, 0, 1⟩) fresh32) =
      okBytes [0x67, 0x45, 8, 0, 0, 0x8E, 0x23, 0x81, 0xFF, 0xFF, 0xFF, 0xFF, 0, 0, 0, 0] ∧
    answer (exec (.encGate64 ⟨0x00007FFFDEADBEEF, 0x10, 0xC, 3, 1⟩) fresh32) =
      okBytes [0xEF, 0xBE, 0x10, 0, 0, 0xEC, 0xAD, 0xDE, 0xFF, 0x7F, 0, 0, 0, 0, 0, 0] := by decide
/-- V2.3-24, read right to left. -/
theorem test_dec_gate64 :
    answer (exec (.decGate64 [0x34, 0x12, 8, 0, 0, 0xEF, 0, 0, 0, 0x80, 0xFF, 0xFF, 0, 0, 0, 0]) fresh32) =
      some ⟨.ok, .gate64 ⟨0xFFFF800000001234, 8, 0xF, 3, 1⟩⟩ := by decide
/-- V2.3-28. -/
theorem test_enc_taskgate :
    answer (exec (.encTaskGate ⟨0xFFFF, 5, 3, 1⟩) fresh32) = okBytes [0, 0, 0xFF, 0xFF, 0, 0xE5, 0, 0] := by decide
/-- V2.3-32. -/
theorem test_dec_taskgate :
    answer (exec (.decTaskGate [0xFF, 0xFF, 0x28, 0, 0xFF, 0x85, 0xFF, 0xFF]) fresh32) =
      some ⟨.ok, .taskGate ⟨0x28, 5, 0, 1⟩⟩ := by decide
/-- V2.3-35. -/
theorem test_enc_tss32 :
    answer (exec (.encTss32 ⟨0x1234, 0, 0, 0, 0, 0, 0, 0x3000, 0x401000, 0x202, 0x11111111, 0, 0, 0, 0, 0, 0, 0x88888888,
        0, 8, 0, 0, 0, 0, 0x30, 1, 0⟩) fresh32) =
      okBytes ([0x34, 0x12] ++ List.replicate 26 0 ++ [0, 0x30, 0, 0, 0, 0x10, 0x40, 0, 2, 2, 0, 0] ++
        [0x11, 0x11, 0x11, 0x11] ++ List.replicate 24 0 ++ [0x88, 0x88, 0x88, 0x88, 0, 0, 0, 0, 8, 0] ++
        List.replicate 18 0 ++ [0x30, 0, 0, 0, 1, 0, 0, 0]) := by decide
/-- V2.3-34, read right to left, with reserved bytes and bits that are not 0. -/
theorem test_dec_tss32 :
    answer (exec (.decTss32 ([0, 0, 9, 9, 0, 0x90, 0, 0, 0x18, 0, 9, 9] ++ List.replicate 88 0 ++ [0xFE, 0xFF, 0x68, 0])) fresh32) =
      some ⟨.ok, .tss32 ⟨0, 0x9000, 0x18, 0, 0, 0, 0, 0, 0, 0, 0, 0, 0, 0, 0, 0, 0, 0, 0, 0, 0, 0, 0, 0, 0, 0, 0x68⟩⟩ := by decide
/-- V2.3-36. -/
theorem test_enc_tss64 :
    answer (exec (.encTss64 ⟨0xFFFF800000010000, 0, 0, 0x20000, 0, 0, 0, 0, 0, 0, 0x68⟩) fresh32) =
      okBytes ([0, 0, 0, 0, 0, 0, 1, 0, 0, 0x80, 0xFF, 0xFF] ++ List.replicate 24 0 ++ [0, 0, 2, 0, 0, 0, 0, 0] ++
        List.replicate 58 0 ++ [0x68, 0]) := by decide
/-- V2.3-37, read right to left, and V2.3-38. -/
theorem test_dec_tss64 :
    answer (exec (.decTss64 (List.replicate 84 0 ++ [0xEF, 0xCD, 0xAB, 0x89, 0x67, 0x45, 0x23, 1] ++ List.replicate 12 0)) fresh32) =
      some ⟨.ok, .tss64 ⟨0, 0, 0, 0, 0, 0, 0, 0, 0, 0x0123456789ABCDEF, 0⟩⟩ ∧
    (decodeTss64 (List.replicate 104 0xFF)).rsp1 = 0xFFFFFFFFFFFFFFFF := by decide

/-! Page-table entries and walks (95_test_vectors.md 2.4). -/

/-- V2.4-3, V2.4-6. -/
theorem test_enc_pde32 :
    answer (exec (.encPde32 ⟨1, 1, 1, 0, 0, 0, 0, 1, 0, 0, 0x400⟩) fresh32) = okBytes [0x87, 0, 0x40, 0] ∧
    answer (exec (.encPde32 ⟨1, 1, 1, 0, 0, 0, 0, 0, 0, 0, 3⟩) fresh32) = okBytes [7, 0x30, 0, 0] := by decide
/-- 43_pte_encoders_and_walk.md R162. -/
theorem test_dec_pde32 :
    answer (exec (.decPde32 [0x87, 0, 0xC0, 0xFF]) fresh32) = some ⟨.ok, .pde32 ⟨1, 1, 1, 0, 0, 0, 0, 1, 0, 0, 0xFFC00⟩⟩ := by
  decide
/-- V2.4-8. -/
theorem test_enc_pml4e :
    answer (exec (.encPml4e ⟨1, 1, 0, 0, 0, 0, 0, 0, 0, 0xFFFFFFFFFF, 0, 1⟩) fresh32) =
      okBytes [3, 0xF0, 0xFF, 0xFF, 0xFF, 0xFF, 0x0F, 0x80] := by decide
/-- V2.4-11. -/
theorem test_dec_pml4e :
    answer (exec (.decPml4e [0x87, 0x10, 0, 0, 0, 0, 0, 0]) fresh32) =
      some ⟨.ok, .pml4e ⟨1, 1, 1, 0, 0, 0, 0, 0, 0, 1, 0, 0⟩⟩ := by decide
/-- V2.4-9. -/
theorem test_enc_pdpte :
    answer (exec (.encPdpte ⟨1, 1, 1, 0, 0, 0, 0, 1, 0, 0, 0x1FF * 0x40000, 0, 0⟩) fresh32) =
      okBytes [0x87, 0, 0, 0xC0, 0x7F, 0, 0, 0] := by decide
/-- 43_pte_encoders_and_walk.md R166. -/
theorem test_dec_pdpte :
    answer (exec (.decPdpte [0x87, 0, 0, 0x40, 0, 0, 0, 0]) fresh32) =
      some ⟨.ok, .dirEntry ⟨1, 1, 1, 0, 0, 0, 0, 1, 0, 0, 0x40000, 0, 0⟩⟩ := by decide
/-- V2.4-9b. -/
theorem test_enc_pde64 :
    answer (exec (.encPde64 ⟨1, 1, 0, 0, 0, 0, 0, 1, 0, 0, 0x200, 0, 0⟩) fresh32) = okBytes [0x83, 0, 0x20, 0, 0, 0, 0, 0] := by
  decide
/-- 43_pte_encoders_and_walk.md R168. -/
theorem test_dec_pde64 :
    answer (exec (.decPde64 [0x83, 0, 0x20, 0, 0, 0, 0, 0]) fresh32) =
      some ⟨.ok, .dirEntry ⟨1, 1, 0, 0, 0, 0, 0, 1, 0, 0, 0x200, 0, 0⟩⟩ := by decide
/-- 43_pte_encoders_and_walk.md R169. -/
theorem test_enc_pte64 :
    answer (exec (.encPte64 ⟨1, 0, 1, 1, 1, 1, 1, 1, 1, 5, 0xABCDE12345, 0x7FF, 1⟩) fresh32) =
      okBytes [0xFD, 0x5B, 0x34, 0x12, 0xDE, 0xBC, 0xFA, 0xFF] := by decide
/-- 43_pte_encoders_and_walk.md R170. -/
theorem test_dec_pte64 :
    answer (exec (.decPte64 [0xFD, 0x5B, 0x34, 0x12, 0xDE, 0xBC, 0xFA, 0xFF]) fresh32) =
      some ⟨.ok, .pte64 ⟨1, 0, 1, 1, 1, 1, 1, 1, 1, 5, 0xABCDE12345, 0x7FF, 1⟩⟩ := by decide
/-- V2.4-10. -/
theorem test_desc_addr :
    answer (exec (.descAddr 0x001B) g32) = some ⟨.ok, .addr 128⟩ ∧
    answer (exec (.descAddr 0xFFFF) g32) = some ⟨.ok, .addr 65632⟩ := by decide
/-- V2.4-16, and an entry of R162 reached through `va[31:22] = 1`, with `cr4.pse` set. -/
theorem test_walk32 :
    answer (exec (.walk32 0) fresh32) = err .outOfBounds ∧
    answer (exec (.walk32 0x00401234) (readyWith { Regs.zero with cr4 := 0x10 } [0, 0, 0, 0, 0x87, 0, 0xC0, 0xFF])) =
      some ⟨.ok, .walk (.mapped 0xFFC01234 .size4M)⟩ := by decide
/-- V2.4-11, and the canonical boundary of R182. -/
theorem test_walk64 :
    answer (exec (.walk64 0) (ready [0x87, 0x10, 0, 0, 0, 0, 0, 0])) = some ⟨.ok, .walk (.unsupported .pml4)⟩ ∧
    answer (exec (.walk64 0x0000800000000000) fresh64) = some ⟨.ok, .walk .nonCanonical⟩ := by decide

/-! Segment loader (95_test_vectors.md 2.5). -/

/-- V2.5-1, V2.5-2. -/
theorem test_load_seg_images :
    after (fun t => t.regs.fs.image) (exec (.loadSeg .fs 0x0023) g32) =
      some [0, 0, 0, 0, 0, 0, 0, 0, 0xFF, 0xFF, 0xFF, 0xFF, 0x23, 0, 0xF3, 0xC0] ∧
    after (fun t => t.regs.ds.image) (exec (.loadSeg .ds 0x000A) handBuilt) =
      some [0x78, 0x56, 0x34, 0x12, 0, 0, 0, 0, 0xDE, 0xBC, 0x0A, 0, 0x0A, 0, 0xD3, 0x50] := by decide
/-- V2.5-4, V2.5-6, V2.5-9, V2.5-17. -/
theorem test_load_seg_failures :
    [(Sreg.ds, (0xFFFF : BitVec 16)), (.tr, 0x002B), (.ds, 0)].map (fun p => answer (exec (.loadSeg p.1 p.2) g32)) =
      [err .unsupportedFeature, err .outOfBounds, err .unsupportedFeature] ∧
    answer (exec (.loadSeg .tr 0x0028) (g32.setRegs (g32.regs.fieldSet (.efer .lma) 1))) = err .outOfBounds := by decide

/-! Mode setup (95_test_vectors.md 2.6). -/

/-- V2.6-1, V2.6-10. -/
theorem test_setup_real :
    after (fun t => (t.regs.cs.image, t.regs.tr.image, t.regs.cr0)) (exec .setupReal fresh32) =
      some ([0, 0, 0, 0, 0, 0, 0, 0, 0xFF, 0xFF, 0, 0, 0, 0, 0x93, 0], List.replicate 16 0, 0) ∧
    answer (exec .setupReal fresh64) = err .preconditionViolation := by decide
/-- 45_mode_setup.md R211: the attribute word is 0x0093 whatever a LOADIMG left in the reserved bits; 44_segment_loader.md:
the attribute word 0xC0F3 of V2.5-1 likewise. -/
theorem test_whole_records_have_reserved_bits_zero :
    after (fun t => (t.regs.cs.image.drop 14, t.regs.tr.rsvd))
        (exec .setupReal (readyWith { constructRegs .a32 with
          cs := SegCache.parse (List.replicate 16 0xFF) 0, tr := SegCache.parse (List.replicate 16 0xFF) 0 } [])) =
      some ([0x93, 0], 0xF) ∧
    after (fun t => t.regs.fs.image.drop 14)
        (exec (.loadSeg .fs 0x0023) (g32.setRegs { g32.regs with fs := SegCache.parse (List.replicate 16 0xFF) 0 })) =
      some [0xF3, 0xC0] := by decide
/-- V2.6-11, V2.6-12. -/
theorem test_setup_idt :
    after (fun t => (t.regs.idtr, t.mem.toBytes)) (exec (.setupIdt [[0x78, 0x56, 8, 0, 0, 0x8E, 0x34, 0x12],
        [0xEF, 0xBE, 8, 0, 0, 0xEF, 0xAD, 0xDE]]) fresh32) =
      some (⟨0, 15, 0⟩, [0x78, 0x56, 8, 0, 0, 0x8E, 0x34, 0x12, 0xEF, 0xBE, 8, 0, 0, 0xEF, 0xAD, 0xDE]) ∧
    answer (exec (.setupIdt []) fresh32) = err .preconditionViolation := by decide

/-- V2.6-5. -/
theorem test_setup_gdt :
    after (fun t => (t.mem.len, t.regs.gdtr, t.regs.tr.base, t.mem.read 154 8))
        (exec .setupGdt (readyWith (constructRegs .a32) (List.replicate 10 0))) =
      some (162, ⟨114, 47, 0⟩, 10, [0x67, 0, 0x0A, 0, 0, 0x8B, 0, 0]) := by decide
/-- V2.5-13: a call gate in entry 1; the five fields a proof may rely on. -/
theorem test_load_seg_call_gate :
    after (fun t => (t.regs.cs.selector, t.regs.cs.type, t.regs.cs.s, t.regs.cs.dpl, t.regs.cs.p, t.draws))
        (exec (.loadSeg .cs 8) (tableState .a32 (List.replicate 8 0 ++ [0, 0x10, 0x10, 0, 0, 0xEC, 0x40, 0]))) =
      some (8, 0xC, 0, 3, 1, 1) := by decide
/-- V2.6-9. -/
theorem test_setup_paging_legacy :
    after (fun t => (t.mem.len, t.regs.cr3, t.regs.cr4, t.regs.cr0, t.mem.read 4092 4)) (exec .setupPaging fresh32) =
      some (4096, 0, 0x10, 0x80000000, [0x87, 0, 0xC0, 0xFF]) := by decide
/-- 45_mode_setup.md R228: `pml4 = 0`. -/
theorem test_setup_paging_long :
    after (fun t => (t.mem.len, t.regs.cr4, t.mem.read 0 8, t.mem.read 8184 8)) (exec .setupPaging fresh64) =
      some (8192, 0x30, [7, 0x10, 0, 0, 0, 0, 0, 0], [0x87, 0, 0, 0xC0, 0x7F, 0, 0, 0]) := by decide

/-! The latch (95_test_vectors.md 2.7). -/

/-- V2.7-1, V2.7-5: the status codes. -/
theorem test_latch :
    answer (exec .raw latched) = some ⟨.faulted, .nothing⟩ ∧ answer (exec .raw State.reset) = some ⟨.faulted, .nothing⟩ ∧
    answer (exec (.encTaskGate ⟨0x28, 5, 0, 1⟩) latched) = okBytes [0, 0, 0x28, 0, 0, 0x85, 0, 0] ∧
    [Status.ok, .failed .preconditionViolation, .failed .outOfBounds, .failed .unsupportedFeature, .faulted,
      .illegalCommand].map Status.code = [0, 1, 2, 3, 0xFE, 0xFF] := by decide
/-- V2.7-3: IllegalCommand precedes Faulted. -/
theorem test_illegal_precedes_faulted :
    answer (step { latched with port := [[0x08]] }) = some ⟨.illegalCommand, .nothing⟩ ∧
    answer (step { latched with port := [[0x01, 5, 1, 0]] }) = some ⟨.illegalCommand, .nothing⟩ ∧
    answer (step { latched with port := [[0x01, 5, 0]] }) = some ⟨.faulted, .nothing⟩ := by decide
/-- A table word placed in front of the port runs as the very next step. -/
theorem test_with_fetch_word :
    after (fun t => (t.response, t.constructed, t.port)) (step (State.reset.withFetchWord 8 0x00)) =
      some (okNothing, true, []) := by decide

/-! Witnesses: for every statement with hypotheses, a state and operands that meet all of them together, clause by clause
where a statement has several. -/

theorem witness_DecodeOfEncodeIsTheCommand :
    (Instr.rset (.rflags .iopl) 3).wellFormed = true ∧ (Instr.alloc 0 1).wellFormed = true := by decide
theorem witness_DecodedCommandIsWellTyped : ∃ b r i, decode b = some (i, r) := ⟨[0x06], [], .raw, by decide⟩
/-- A command with one frame, and the two frames of ALLOC(5, 1). -/
theorem witness_DecodedBytesAreTheEncoding :
    decode [0x06, 9] = some (.raw, [9]) ∧ decode (encode (.alloc 5 1) ++ [9]) = some (.alloc 5 1, [9]) ∧
    decode (Op.alloc.code :: (putNat 5 ++ 0 :: [9])) = some (.alloc 5 1, [9]) := by decide
theorem witness_OperationCodesAreTheTable :
    (∀ o : Op, o.code ≠ 0x08) ∧ (∀ o : Op, o.code ≠ 0xFF) ∧ Op.raw.code = Op.raw.code :=
  ⟨fun o => by cases o <;> decide, fun o => by cases o <;> decide, rfl⟩
theorem witness_UnassignedOperationIsIllegal :
    ∃ (s : State) (b : Byte) (operands : List Byte) (rest : List (List Byte)),
      (∀ o : Op, o.code ≠ b) ∧ s.port = (b :: operands) :: rest :=
  ⟨(latched).setPort [[0x3A, 1]], 0x3A, [1], [], fun o => by cases o <;> decide, rfl⟩
theorem witness_IllTypedOperandsAreIllegal : (Instr.setupIdt [[1, 2, 3, 4, 5, 6, 7]]).wellFormed = false := by decide
theorem witness_StepRunsTheDecodedCommand :
    ((fresh32.setPort [[0x04, 43]]).port = [0x04, 43] :: [] ∧ decodeFrame [0x04, 43] = some (.rget (.cr0 .pe))) ∧
    ((Instr.loadSeg .cs 8).wellFormed = true ∧
      (fresh32.setPort [encode (.loadSeg .cs 8), [0x06]]).port = encode (.loadSeg .cs 8) :: [[0x06]]) ∧
    fresh32.port = [] := by decide
theorem witness_EveryStepAnswersOneFrame : ∃ (s : State) (frame : List Byte) (rest : List (List Byte)),
    s.port = frame :: rest := ⟨latched.setPort [[0x06], [0x00, 0]], [0x06], [[0x00, 0]], rfl⟩

/-- The lengths DecSegReadsTheFields, WideSegmentFormExtendsTheNarrow, DecGateReadsTheFields, WideGateFormExtendsTheNarrow,
TaskGateEncodesAndDecodes, DecTss32ReadsEveryField, Tss64EncodesAndDecodes, DescriptorFormsAreInverse,
Pde32EncodesAndDecodes, WideEntryDecodersReadTheFields and EntryFormsAreInverse ask for. -/
theorem witness_descriptor_lengths :
    ([0x01, 0x23, 0x45, 0x67, 0x89, 0xAB, 0xCD, 0xEF] : List Byte).length = 8 ∧
    ([0x67, 0, 0x78, 0x56, 0x34, 0x89, 0, 0x12, 0, 0x80, 0xFF, 0xFF, 0xAA, 0xBB, 0xCC, 0xDD] : List Byte).length = 16 ∧
    (List.replicate 104 0xFF : List Byte).length = 104 ∧ ([0x87, 0, 0x40, 0] : List Byte).length = 4 := by decide
/-- Both sides of the equivalences of DescriptorFormsAreInverse and EntryFormsAreInverse are met. -/
theorem witness_inverse_boundaries :
    encodePml4e (decodePml4e [7, 0x10, 0, 0, 0, 0, 0, 0]) = [7, 0x10, 0, 0, 0, 0, 0, 0] ∧
    encodePml4e (decodePml4e [0x87, 0x10, 0, 0, 0, 0, 0, 0]) = [7, 0x10, 0, 0, 0, 0, 0, 0] ∧
    encodeGate (decodeGate [1, 2, 3, 4, 0, 0xEF, 7, 8]) = [1, 2, 3, 4, 0, 0xEF, 7, 8] ∧
    encodeGate (decodeGate [1, 2, 3, 4, 1, 0xFF, 7, 8]) = [1, 2, 3, 4, 0, 0xEF, 7, 8] := by decide

/-- A bounded state of three bytes. -/
def bounded (n : Nat) : State :=
  { ready [1, 0, 3] with cfg := { memMax := some n, realSetsSystemSegs := true } }

theorem witness_AllocExtendsTheArenaWithZeros :
    ((bounded 24).accepting = true ∧ (bounded 24).mem.wf = true ∧ 16 % 16 = 0 ∧ (bounded 24).mem.len ≤ 16 ∧
      16 < (bounded 24).mem.len + 16 ∧ ∀ m, (bounded 24).cfg.memMax = some m → 16 + 8 ≤ m) ∧
    ((bounded 23).accepting = true ∧ (bounded 23).cfg.memMax = some 23 ∧ 23 < 16 + 8) :=
  ⟨⟨by decide, by decide, by decide, by decide, by decide, fun _ h => by injection h with h; omega⟩, by decide⟩
theorem witness_MwriteStoresExactlyItsBytes :
    (bounded 9).accepting = true ∧ (bounded 9).mem.wf = true ∧ 1 + [0, 5].length ≤ (bounded 9).mem.len ∧
      (bounded 9).mem.len < 2 + [0, 5].length := by decide
theorem witness_MreadAnswersTheBytes :
    (bounded 9).accepting = true ∧ (bounded 9).mem.wf = true ∧ 0 + 3 ≤ (bounded 9).mem.len ∧
      (bounded 9).mem.len < 0 + 4 := by decide
theorem witness_ReadAfterWriteAnswersTheLatestBytes :
    (bounded 9).accepting = true ∧ (bounded 9).mem.wf = true ∧ 1 + [7].length ≤ (bounded 9).mem.len ∧
      (0 + 1 ≤ (bounded 9).mem.len ∧ 0 + 1 ≤ 1) ∧ (2 + 1 ≤ (bounded 9).mem.len ∧ 1 + [7].length ≤ 2) := by decide
/-- Also of RawImageHasTheWireLayout, ImageRoundTripIsLossless and DescAddrAddsTheMaskedSelector. -/
theorem witness_RgetAnswersTheFieldOfTheImage : g64.accepting = true ∧ g64.mem.wf = true := by decide
theorem witness_RsetWritesExactlyOneField :
    g64.accepting = true ∧ (3 : BitVec 64).toNat < 2 ^ (fieldPlace (.rflags .iopl)).width ∧
      (0xFFFF : BitVec 64).toNat < 2 ^ (fieldPlace (.tableLimit .idtr)).width := by decide
/-- Also of ImageRoundTripIsLossless, its second half. -/
theorem witness_LoadimgReplacesTheState :
    400 ≤ (List.replicate 400 0xFF : List Byte).length ∧ (List.replicate 399 0xFF : List Byte).length < 400 := by decide

/-- A code segment, an available and a busy task-state segment, a call gate, and a system type the loader refuses; the limit
ends the table, the arena ends after it. -/
def mixed : State :=
  tableState .a32 ([0xDE, 0xBC, 0x78, 0x56, 0x34, 0xDB, 0xDA, 0x12] ++ [0x67, 0, 0, 0, 0, 0x89, 0, 0] ++
    [0x67, 0, 0, 0, 0, 0x8B, 0, 0] ++ [0, 0x10, 0x10, 0, 0, 0xEC, 0x40, 0] ++ [0x17, 0, 0, 0x20, 0, 0x82, 0, 0])
/-- The same in long mode. -/
def mixed64 : State := mixed.setRegs (mixed.regs.fieldSet (.efer .lma) 1)

theorem witness_LoadSegFillsTheCacheFromTheDescriptor :
    [(mixed, (0 : BitVec 16)), (mixed, 0x08), (mixed, 0x13), (mixed64, 0x00), (mixed64, 0x10)].all (fun p =>
      let s := p.1
      let sel := p.2
      let a := s.regs.gdtr.base.toNat + sel.toNat / 8 * 8
      let d := fromLE (s.mem.read a 8)
      s.accepting && s.mem.wf && decide (sel.toNat / 2 ^ 2 % 2 = 0) && decide (sel.toNat + 7 ≤ s.regs.gdtr.limit.toNat) &&
        decide (a + 8 ≤ s.mem.len) &&
        decide (d / 2 ^ 44 % 2 = 1 ∨ d / 2 ^ 40 % 2 ^ 4 = 0b1011 ∨ d / 2 ^ 40 % 2 ^ 4 = 0b1001) &&
        decide (d / 2 ^ 44 % 2 = 0 → s.regs.efer.toNat / 2 ^ 10 % 2 = 1 → a + 16 ≤ s.mem.len)) = true := by decide
theorem witness_LoadSegOfACallGateDrawsTheOpenFields :
    [mixed, mixed64].all (fun s =>
      let a := s.regs.gdtr.base.toNat + (0x18 : BitVec 16).toNat / 8 * 8
      let d := fromLE (s.mem.read a 8)
      s.accepting && s.mem.wf && decide ((0x18 : BitVec 16).toNat + 7 ≤ s.regs.gdtr.limit.toNat) && decide (a + 8 ≤ s.mem.len) &&
        decide (d / 2 ^ 44 % 2 = 0) && decide (d / 2 ^ 40 % 2 ^ 4 = 0b1100) && decide (a + 16 ≤ s.mem.len)) = true := by
  decide
/-- One state and selector for each failing check, at its boundary. -/
theorem witness_LoadSegReportsTheFirstFailingCheck :
    mixed.accepting = true ∧ (4 : BitVec 16).toNat / 2 ^ 2 % 2 = 1 ∧
    ((0x21 : BitVec 16).toNat / 2 ^ 2 % 2 = 0 ∧ mixed.regs.gdtr.limit.toNat < (0x21 : BitVec 16).toNat + 7) ∧
    (let s := readyWith { constructRegs .a32 with gdtr := ⟨0, 7, 0⟩ } [1, 2, 3, 4, 5, 6, 7];
      s.accepting = true ∧ (0 : BitVec 16).toNat + 7 ≤ s.regs.gdtr.limit.toNat ∧ s.mem.len < 0 + 8) ∧
    ((0x20 : BitVec 16).toNat + 7 ≤ mixed.regs.gdtr.limit.toNat ∧ 0x20 + 8 ≤ mixed.mem.len ∧
      fromLE (mixed.mem.read 0x20 8) / 2 ^ 44 % 2 = 0 ∧
      fromLE (mixed.mem.read 0x20 8) / 2 ^ 40 % 2 ^ 4 ∉ [0b1100, 0b1011, 0b1001]) ∧
    (let s := (tableState .a64 [0, 0, 0, 0, 0, 0x8B, 0, 0, 1, 2, 3, 4, 5, 6, 7]).setRegs
        { constructRegs .a64 with gdtr := ⟨0, 7, 0⟩ };
      s.accepting = true ∧ 0 + 8 ≤ s.mem.len ∧ fromLE (s.mem.read 0 8) / 2 ^ 44 % 2 = 0 ∧
      fromLE (s.mem.read 0 8) / 2 ^ 40 % 2 ^ 4 ∈ [0b1100, 0b1011, 0b1001] ∧
      s.regs.efer.toNat / 2 ^ 10 % 2 = 1 ∧ s.mem.len < 0 + 16) := by decide

theorem witness_SetupRealFlattensTheCaches :
    fresh32.accepting = true ∧ fresh32.regs.efer.toNat / 2 ^ 10 % 2 = 0 ∧ fresh32.cfg.realSetsSystemSegs = false ∧
    (bounded 9).accepting = true ∧ (bounded 9).cfg.realSetsSystemSegs = true ∧
    fresh64.accepting = true ∧ fresh64.regs.efer.toNat / 2 ^ 10 % 2 = 1 := by decide
/-- With the arena's length just below the bound of each form. -/
theorem witness_SetupGdtBuildsTheCanonicalTable :
    (let s := { fresh32 with mem := { len := 2 ^ 32 - 1, cells := [] } };
      s.accepting = true ∧ s.mem.wf = true ∧ s.regs.gdtr.base = 0 ∧ s.regs.gdtr.limit = 0 ∧
      (false = true ↔ s.regs.efer.toNat / 2 ^ 10 % 2 = 1) ∧ s.mem.len + 104 < 2 ^ 64 ∧ s.mem.len < 2 ^ 32 ∧
      s.cfg.memMax = none) ∧
    (let s := { fresh64 with mem := { len := 2 ^ 64 - 105, cells := [] } };
      s.accepting = true ∧ s.mem.wf = true ∧ s.regs.gdtr.base = 0 ∧ s.regs.gdtr.limit = 0 ∧
      (true = true ↔ s.regs.efer.toNat / 2 ^ 10 % 2 = 1) ∧ s.mem.len + 104 < 2 ^ 64 ∧ s.cfg.memMax = none) := by decide
/-- Also of ProtectedThenPagedOnFreshStates. -/
theorem witness_SetupGdtOnFreshStates :
    ∃ s : State, s.cfg.memMax = some 12288 ∧ ∀ m, s.cfg.memMax = some m → 160 ≤ m ∧ 12288 ≤ m :=
  ⟨bounded 12288, rfl, fun _ h => by injection h with h; omega⟩
/-- The bytes of `k` descriptors of eight bytes. -/
theorem flatten_eights (k : Nat) : (List.replicate k (List.replicate 8 (1 : Byte))).flatten.length = k * 8 := by
  simp [List.length_flatten]
/-- The largest table is 8192 descriptors of eight bytes; then the two ways a table fails with OutOfBounds, each at the first
length that does. -/
theorem witness_SetupIdtInstallsTheTable :
    fresh64.accepting = true ∧ fresh64.mem.wf = true ∧ (∀ m, fresh64.cfg.memMax = some m → fresh64.mem.len + 65536 ≤ m) ∧
    (∀ d ∈ List.replicate 8192 (List.replicate 8 (1 : Byte)), d.length = 8 ∨ d.length = 16) ∧
    (List.replicate 8192 (List.replicate 8 (1 : Byte))).flatten.length = 65536 ∧
    (List.replicate 8193 (List.replicate 8 (1 : Byte))).flatten.length = 65544 ∧
    [List.replicate 8 (1 : Byte), List.replicate 16 2].flatten.length = 24 ∧ ([] : List (List Byte)).flatten.length = 0 ∧
    (let s := { fresh64 with mem := { len := 2 ^ 64, cells := [] } };
      s.accepting = true ∧ s.mem.wf = true ∧ 2 ^ 64 ≤ s.mem.len) ∧
    (bounded 26).accepting = true ∧ (bounded 26).mem.wf = true ∧
    ∃ m, (bounded 26).cfg.memMax = some m ∧ m < (bounded 26).mem.len + 24 :=
  ⟨by decide, by decide, fun _ h => (nomatch h), fun d h => by rw [List.eq_of_mem_replicate h]; decide, flatten_eights 8192,
    flatten_eights 8193, by decide, rfl, by decide, by decide, by decide, 26, rfl, by decide⟩
theorem witness_SetupPagingBuildsTheLegacyDirectory :
    let s := { fresh32 with mem := { len := 2 ^ 32 - 8191, cells := [] } }
    s.accepting = true ∧ s.mem.wf = true ∧ s.regs.cr0.toNat / 2 ^ 31 % 2 = 0 ∧ s.regs.efer.toNat / 2 ^ 10 % 2 = 0 ∧
      (2 ^ 32 - 4096) % 4096 = 0 ∧ s.mem.len ≤ 2 ^ 32 - 4096 ∧ 2 ^ 32 - 4096 < s.mem.len + 4096 ∧ s.cfg.memMax = none := by
  decide
theorem witness_SetupPagingBuildsTheLongModeTables :
    let s := { fresh64 with mem := { len := 2 ^ 52 - 8192, cells := [] } }
    s.accepting = true ∧ s.mem.wf = true ∧ s.regs.cr0.toNat / 2 ^ 31 % 2 = 0 ∧ s.regs.efer.toNat / 2 ^ 10 % 2 = 1 ∧
      (2 ^ 52 - 8192) % 4096 = 0 ∧ s.mem.len ≤ 2 ^ 52 - 8192 ∧ 2 ^ 52 - 8192 < s.mem.len + 4096 ∧
      2 ^ 52 - 8192 + 4096 < 2 ^ 52 ∧ s.cfg.memMax = none := by
  decide
/-- Both forms, with addresses at the ends of the three ranges. -/
theorem witness_SetupPagingMapsAddressesToThemselves :
    (fresh32.accepting = true ∧ fresh32.mem.wf = true ∧ after State.fault (exec .setupPaging fresh32) = some none ∧
      fresh32.regs.efer.toNat / 2 ^ 10 % 2 = 0) ∧
    (fresh64.accepting = true ∧ fresh64.mem.wf = true ∧ after State.fault (exec .setupPaging fresh64) = some none ∧
      fresh64.regs.efer.toNat / 2 ^ 10 % 2 = 1) ∧
    (0x7FFFFFFFFF : BitVec 64).toNat < 2 ^ 39 ∧ 2 ^ 39 ≤ (0x8000000000 : BitVec 64).toNat ∧
    (0x7FFFFFFFFFFF : BitVec 64).toNat < 2 ^ 47 ∧ 2 ^ 64 - 2 ^ 47 ≤ (0xFFFF800000000000 : BitVec 64).toNat := by decide
/-- An accepting state of `arch` whose arena has `len` bytes, all zero, and whose MEM_MAX is `memMax`. -/
def long (arch : Arch) (len : Nat) (memMax : Option Nat) : State :=
  { readyWith (constructRegs arch) [] with
    cfg := { memMax := memMax, realSetsSystemSegs := false }, mem := { len := len, cells := [] } }

/-- The clauses about SETUP_GDT: an installed table, each allocation one byte too long, and each offset at the first length
that does not fit; `long` and `fits` are determined by the state. -/
theorem witness_SetupFailuresKeepTheRegisters_gdt :
    (g32.accepting = true ∧ ¬ (g32.regs.gdtr.base = 0 ∧ g32.regs.gdtr.limit = 0)) ∧
    [long .a32 8 (some 111), long .a32 (2 ^ 32) none, long .a32 8 (some 159), long .a64 8 (some 167), long .a64 (2 ^ 64) none,
      long .a64 (2 ^ 64 - 104) none].all (fun s => s.accepting && s.regs.gdtr.base == 0 && s.regs.gdtr.limit == 0) = true ∧
    (long .a32 0 none).regs.efer.toNat / 2 ^ 10 % 2 = 0 ∧ (long .a64 0 none).regs.efer.toNat / 2 ^ 10 % 2 = 1 ∧
    111 < 8 + 104 ∧ (8 + 104 ≤ 159 ∧ 159 < 8 + 104 + 48) ∧ (8 + 104 ≤ 167 ∧ 167 < 8 + 104 + 56) ∧
    (2 ^ 64 - 104 < 2 ^ 64 ∧ 2 ^ 64 ≤ 2 ^ 64 - 104 + 104) := by decide
/-- The clauses about SETUP_PAGING: paging enabled, each allocation one byte too long, and each table at the first offset that
does not fit. -/
theorem witness_SetupFailuresKeepTheRegisters_paging :
    (let s := fresh32.setRegs (fresh32.regs.fieldSet (.cr0 .pg) 1);
      s.accepting = true ∧ s.regs.cr0.toNat / 2 ^ 31 % 2 = 1 ∧ s.mem.len ≤ 0 ∧ 0 < s.mem.len + 4096) ∧
    [(long .a32 8 (some 8191), 4096), (long .a32 (2 ^ 32 - 4095) none, 2 ^ 32), (long .a64 8 (some 8191), 4096),
      (long .a64 8 (some 12287), 4096), (long .a64 (2 ^ 52 - 8191) none, 2 ^ 52 - 4096)].all (fun p =>
        p.1.accepting && p.1.regs.cr0.toNat / 2 ^ 31 % 2 == 0 && p.2 % 4096 == 0 && decide (p.1.mem.len ≤ p.2) &&
          decide (p.2 < p.1.mem.len + 4096)) = true ∧
    8191 < 4096 + 4096 ∧ (4096 + 4096 ≤ 12287 ∧ 12287 < 4096 + 8192) ∧ 2 ^ 52 ≤ 2 ^ 52 - 4096 + 4096 := by decide

/-- Every clause of Walk32AnswersTheDirectoryEntry, its hypotheses the defining equations of `a` and `e`; the entries are at
offset 0, `cr3 = 0`. -/
theorem witness_Walk32AnswersTheDirectoryEntry :
    [((0x10 : BitVec 64), ([0x87, 0, 0xC0] : List Byte)), (0x10, [0x86, 0, 0xC0, 0xFF]), (0x10, [7, 0, 0xC0, 0xFF]),
      (0, [0x87, 0, 0xC0, 0xFF]), (0x10, [0x87, 0x10, 0xC0, 0xFF]), (0x10, [0x87, 0, 0xC0, 0xFF])].map
        (fun p => answer (exec (.walk32 0x003FFFFF) (readyWith { Regs.zero with cr4 := p.1 } p.2))) =
      [err .outOfBounds, some ⟨.ok, .walk (.notPresent .pd32)⟩, some ⟨.ok, .walk (.unsupported .pd32)⟩,
        some ⟨.ok, .walk (.unsupported .pd32)⟩, some ⟨.ok, .walk (.unsupported .pd32)⟩,
        some ⟨.ok, .walk (.mapped 0xFFFFFFFF .size4M)⟩] := by decide
/-- Every clause of Walk64FollowsTheFourLevels; the four tables overlap at offset 0 and the address selects entries 0, 1, 2
and 3, so the arenas below cut the walk off level by level. -/
theorem witness_Walk64FollowsTheFourLevels :
    let va : BitVec 64 := 0x0000000040403FFF
    let e : List Byte := [7, 0, 0, 0, 0, 0, 0, 0]
    let z : List Byte := [0, 0, 0, 0, 0, 0, 0, 0]
    let big : List Byte := [0x87, 0, 0, 0xC0, 0x7F, 0, 0, 0]
    let bad : List Byte := [0x87, 0x10, 0, 0, 0, 0, 0, 0]
    let page : List Byte := [0x87, 0x50, 0x34, 0x12, 0, 0, 0, 0x80]
    [z, bad, [7], z ++ z].map (fun m => answer (exec (.walk64 va) (ready m))) =
      [some ⟨.ok, .walk (.notPresent .pml4)⟩, some ⟨.ok, .walk (.unsupported .pml4)⟩, err .outOfBounds,
        some ⟨.ok, .walk (.notPresent .pml4)⟩] ∧
    [e, e ++ z, e ++ bad, e ++ big].map (fun m => answer (exec (.walk64 va) (ready m))) =
      [err .outOfBounds, some ⟨.ok, .walk (.notPresent .pdpt)⟩, some ⟨.ok, .walk (.unsupported .pdpt)⟩,
        some ⟨.ok, .walk (.mapped 0x7FC0403FFF .size1G)⟩] ∧
    [e ++ e, e ++ e ++ z, e ++ e ++ bad, e ++ e ++ big].map (fun m => answer (exec (.walk64 va) (ready m))) =
      [err .outOfBounds, some ⟨.ok, .walk (.notPresent .pd)⟩, some ⟨.ok, .walk (.unsupported .pd)⟩,
        some ⟨.ok, .walk (.mapped 0x7FC0003FFF .size2M)⟩] ∧
    [e ++ e ++ e, e ++ e ++ e ++ z, e ++ e ++ e ++ page].map (fun m => answer (exec (.walk64 va) (ready m))) =
      [err .outOfBounds, some ⟨.ok, .walk (.notPresent .pt)⟩, some ⟨.ok, .walk (.mapped 0x12345FFF .size4K)⟩] ∧
    [(0x00007FFFFFFFFFFF : BitVec 64), 0x0000800000000000, 0xFFFF7FFFFFFFFFFF, 0xFFFF800000000000].map
        (fun v => answer (exec (.walk64 v) (ready []))) =
      [err .outOfBounds, some ⟨.ok, .walk .nonCanonical⟩, some ⟨.ok, .walk .nonCanonical⟩, err .outOfBounds] := by decide

theorem witness_LatchRefusesStateCommandsOnly :
    latched.fault = some .outOfBounds ∧ (Instr.setupGdt.wellFormed = true ∧ Instr.setupGdt.op.isState = true) ∧
    ((Instr.construct .a64).wellFormed = true ∧ (Instr.construct .a64).op.startsOver = true) ∧
    ((Instr.decPde32 [1, 2, 3, 4]).wellFormed = true ∧ (Instr.decPde32 [1, 2, 3, 4]).op.isPure = true) := by decide
theorem witness_NothingRunsBeforeConstruct :
    (State.reset.constructed = false ∧ Instr.raw.wellFormed = true ∧ Instr.raw.op.isState = true) ∧
    ∃ t, exec (.construct .a32) State.reset = .next t := ⟨by decide, _, rfl⟩
/-- A failure entered, and the latch cleared. -/
theorem witness_FailureLatchesItsKindOnce :
    (answer (exec (.mread 0 1) fresh32) = err .outOfBounds ∧
      after State.fault (exec (.mread 0 1) fresh32) = some (some .outOfBounds) ∧ fresh32.fault = none) ∧
    after State.fault (exec (.construct .a32) latched) = some none ∧ latched.fault ≠ none := by decide
/-- A setup that fails after its allocations. -/
theorem witness_FailingCommandKeepsRegistersAndBytes :
    let s := { fresh32 with mem := { len := 2 ^ 32, cells := [(7, 1)] } }
    s.mem.wf = true ∧ answer (exec .setupGdt s) = err .outOfBounds ∧
      after (fun t => t.mem.len) (exec .setupGdt s) = some (2 ^ 32 + 104) := by decide
theorem witness_ReadingCommandsChangeNothing :
    (Instr.encTaskGate ⟨1, 2, 3, 1⟩).op.isPure = true ∧ Instr.raw.op ∈ [Op.mread, .rget, .raw, .descAddr, .walk32, .walk64] ∧
    (∃ t, exec (.encTaskGate ⟨1, 2, 3, 1⟩) latched = .next t) ∧ ∃ t, exec .raw g32 = .next t :=
  ⟨by decide, by decide, ⟨_, rfl⟩, _, rfl⟩
theorem witness_EveryStepKeepsTheArenaCanonical :
    (bounded 9).mem.wf = true ∧ ∃ t, step ((bounded 9).setPort [[0x02, 2, 1, 0]]) = .next t := ⟨by decide, _, rfl⟩
/-- A step that writes a register but runs neither LOADIMG nor CONSTRUCT, on a state whose fixed bits are as the spec fixes
them. -/
theorem witness_OnlyLoadimgMovesFixedBits :
    ∃ s t : State,
      (∀ (frame : List Byte) (rest : List (List Byte)) (i : Instr),
        s.port = frame :: rest → decodeFrame frame = some i → i.op.startsOver = false ∧ i.op ≠ .loadimg) ∧
      s.regs.fixedOk = true ∧ step s = .next t := by
  refine ⟨fresh32.setPort [[0x05, 32, 1, 0, 0, 0, 0, 0, 0, 0]], _, ?_, by decide, rfl⟩
  intro frame rest i hp hd
  cases hp
  have h : decodeFrame [0x05, 32, 1, 0, 0, 0, 0, 0, 0, 0] = some (.rset (.rflags .if_) 1) := by decide
  rw [h] at hd
  cases hd
  decide
/-- A write that touches one byte of three, and an allocation. -/
theorem witness_ArenaOnlyGrowsAndKeepsItsBytes :
    (bounded 9).mem.wf = true ∧ (Instr.mwrite 1 [5]).op.startsOver = false ∧ (Instr.mwrite 1 [5]).op ∉
      [Op.alloc, .setupGdt, .setupIdt, .setupPaging] ∧ 0 < (bounded 9).mem.len ∧ 0 < 1 ∧ 2 < (bounded 9).mem.len ∧
    1 + [5].length ≤ 2 ∧ (Instr.alloc 1 1).op.startsOver = false ∧
    after (fun t => t.mem.toBytes) (exec (.mwrite 1 [5]) (bounded 9)) = some [1, 5, 3] := by decide
/-- An RSET meets the premise of every register but its own. -/
theorem witness_RegistersChangeOnlyByTheirCommands :
    (Instr.rset (.cr0 .pe) 1).op.startsOver = false ∧ (∃ t, exec (.rset (.cr0 .pe) 1) fresh32 = .next t) ∧
    (∀ v, Instr.rset (.cr0 .pe) 1 ≠ .rset (.scalar .cr3) v) ∧ Instr.rset (.cr0 .pe) 1 ≠ .setupPaging ∧
    (∀ f v, Instr.rset (.cr0 .pe) 1 ≠ .rset (.efer f) v) ∧ (∀ n c v, Instr.rset (.cr0 .pe) 1 ≠ .rset (.seg n c) v) ∧
    (∀ t v, Instr.rset (.cr0 .pe) 1 ≠ .rset (.tableBase t) v) ∧ ∀ f v, Instr.raw ≠ .rset (.cr0 f) v :=
  ⟨by decide, ⟨_, rfl⟩, by simp, by simp, by simp, by simp, by simp, by simp⟩
theorem witness_AppendingADescriptorExtendsTheTable :
    let s := tableState .a32 table32
    s.accepting = true ∧ s.mem.wf = true ∧ (List.replicate 16 (9 : Byte)).length = 16 ∧
      s.regs.gdtr.base.toNat + s.regs.gdtr.limit.toNat + 1 = s.mem.len ∧ s.mem.len = 48 ∧
      s.regs.gdtr.limit.toNat + 16 = 63 ∧ (s.regs.gdtr.limit.toNat + 1) % 8 = 0 ∧ s.cfg.memMax = none := by decide

end Sys2Proof.Tests
end

section
/-! PROOFS. The command port: a step runs the command its oldest frame decodes to (10_state.md R21), and the frame of a
well-formed command decodes to it. -/

namespace Sys2Proof

/-- Every command survives its byte form. -/
theorem decode_encode : ∀ i : Instr, Laws.EncodingRoundTrip.Statement i
  | .construct arch => Laws.EncodingRoundTrip.construct arch
  | .alloc size alignment => Laws.EncodingRoundTrip.alloc size alignment
  | .mwrite addr bytes => Laws.EncodingRoundTrip.mwrite addr bytes
  | .mread addr size => Laws.EncodingRoundTrip.mread addr size
  | .rget field => Laws.EncodingRoundTrip.rget field
  | .rset field value => Laws.EncodingRoundTrip.rset field value
  | .raw => Laws.EncodingRoundTrip.raw
  | .loadimg image => Laws.EncodingRoundTrip.loadimg image
  | .loadSeg sreg selector => Laws.EncodingRoundTrip.loadSeg sreg selector
  | .setupReal => Laws.EncodingRoundTrip.setupReal
  | .setupGdt => Laws.EncodingRoundTrip.setupGdt
  | .setupIdt descriptors => Laws.EncodingRoundTrip.setupIdt descriptors
  | .setupPaging => Laws.EncodingRoundTrip.setupPaging
  | .descAddr selector => Laws.EncodingRoundTrip.descAddr selector
  | .walk32 va => Laws.EncodingRoundTrip.walk32 va
  | .walk64 va => Laws.EncodingRoundTrip.walk64 va
  | .encSeg v => Laws.EncodingRoundTrip.encSeg v
  | .decSeg bytes => Laws.EncodingRoundTrip.decSeg bytes
  | .encSeg64 v => Laws.EncodingRoundTrip.encSeg64 v
  | .decSeg64 bytes => Laws.EncodingRoundTrip.decSeg64 bytes
  | .encGate v => Laws.EncodingRoundTrip.encGate v
  | .decGate bytes => Laws.EncodingRoundTrip.decGate bytes
  | .encGate64 v => Laws.EncodingRoundTrip.encGate64 v
  | .decGate64 bytes => Laws.EncodingRoundTrip.decGate64 bytes
  | .encTaskGate v => Laws.EncodingRoundTrip.encTaskGate v
  | .decTaskGate bytes => Laws.EncodingRoundTrip.decTaskGate bytes
  | .encTss32 v => Laws.EncodingRoundTrip.encTss32 v
  | .decTss32 bytes => Laws.EncodingRoundTrip.decTss32 bytes
  | .encTss64 v => Laws.EncodingRoundTrip.encTss64 v
  | .decTss64 bytes => Laws.EncodingRoundTrip.decTss64 bytes
  | .encPde32 v => Laws.EncodingRoundTrip.encPde32 v
  | .decPde32 bytes => Laws.EncodingRoundTrip.decPde32 bytes
  | .encPml4e v => Laws.EncodingRoundTrip.encPml4e v
  | .decPml4e bytes => Laws.EncodingRoundTrip.decPml4e bytes
  | .encPdpte v => Laws.EncodingRoundTrip.encPdpte v
  | .decPdpte bytes => Laws.EncodingRoundTrip.decPdpte bytes
  | .encPde64 v => Laws.EncodingRoundTrip.encPde64 v
  | .decPde64 bytes => Laws.EncodingRoundTrip.decPde64 bytes
  | .encPte64 v => Laws.EncodingRoundTrip.encPte64 v
  | .decPte64 bytes => Laws.EncodingRoundTrip.decPte64 bytes

theorem decodeFrame_encode {i : Instr} (h : i.wellFormed = true) : decodeFrame (encode i) = some i :=
  decodeFrame_of_decode (decode_encode i [] h)

namespace Machine

theorem step_of_port_nil {s : State} (hp : s.port = []) : step s = .next s := by
  simp [step, State.takeFrame, hp, idle]

theorem step_of_decodeFrame_some {s : State} {frame : List Byte} {rest : List (List Byte)} {i : Instr}
    (hp : s.port = frame :: rest) (hd : decodeFrame frame = some i) : step s = exec i (s.setPort rest) := by
  simp [step, State.takeFrame, hp, hd]

theorem step_of_decodeFrame_none {s : State} {frame : List Byte} {rest : List (List Byte)}
    (hp : s.port = frame :: rest) (hd : decodeFrame frame = none) :
    step s = .next ((s.setPort rest).respond .illegalCommand .nothing) := by
  simp [step, State.takeFrame, hp, hd, illegal]

/-- What a step can do: wait, refuse a frame that is no command, or run the command the frame decodes to. -/
theorem step_next {s t : State} (h : step s = .next t) :
    (s.port = [] ∧ t = s) ∨
      ∃ frame rest, s.port = frame :: rest ∧
        ((decodeFrame frame = none ∧ t = (s.setPort rest).respond .illegalCommand .nothing) ∨
          ∃ i, decodeFrame frame = some i ∧ exec i (s.setPort rest) = .next t) := by
  cases hp : s.port with
  | nil =>
    rw [step_of_port_nil hp, Host.Outcome.next.injEq] at h
    exact .inl ⟨rfl, h.symm⟩
  | cons frame rest =>
    refine .inr ⟨frame, rest, rfl, ?_⟩
    cases hd : decodeFrame frame with
    | none =>
      rw [step_of_decodeFrame_none hp hd, Host.Outcome.next.injEq] at h
      exact .inl ⟨rfl, h.symm⟩
    | some i => exact .inr ⟨i, rfl, step_of_decodeFrame_some hp hd ▸ h⟩

/-- Settles O8: the step equations, one per form of the port, with the round trip of the byte form for an encoded command. -/
theorem stepRunsTheDecodedCommand : Obligations.StepRunsTheDecodedCommand :=
  ⟨fun _ _ _ _ hp hd => step_of_decodeFrame_some hp hd,
    fun _ _ _ hw hp => step_of_decodeFrame_some hp (decodeFrame_encode hw),
    fun _ hp => step_of_port_nil hp⟩

end Machine

end Sys2Proof
end

section
/-! PROOFS. Which registers a command names and what writes it may make, as relations between the state before and the state
after: the invariants of 10_state.md sections 5 and 6 are then inductions over those writes. -/

namespace Sys2Proof

/-- A register of the Register File by name (10_state.md R22 to R33). -/
inductive Register
  | scalar (n : Scalar)
  | rflags | cr0 | cr4 | efer
  | seg (n : Sreg)
  | table (t : TableReg)

/-- The register an addressable field lies in (R46). -/
def Field.register : Field → Register
  | .scalar n => .scalar n
  | .rflags _ => .rflags
  | .cr0 _ => .cr0
  | .cr4 _ => .cr4
  | .efer _ => .efer
  | .seg n _ => .seg n
  | .tableBase t => .table t
  | .tableLimit t => .table t

/-- The registers a command short of CONSTRUCT and LOADIMG may write (R37). -/
inductive Instr.Writes : Instr → Register → Prop
  | rset (f : Field) (v : BitVec 64) {k : Register} (hk : k = f.register) : Instr.Writes (.rset f v) k
  | loadSeg (n : Sreg) (selector : BitVec 16) : Instr.Writes (.loadSeg n selector) (.seg n)
  | setupReal_seg (n : Sreg) : Instr.Writes .setupReal (.seg n)
  | setupReal_cr0 : Instr.Writes .setupReal .cr0
  | setupGdt_seg (n : Sreg) : Instr.Writes .setupGdt (.seg n)
  | setupGdt_cr0 : Instr.Writes .setupGdt .cr0
  | setupGdt_gdtr : Instr.Writes .setupGdt (.table .gdtr)
  | setupIdt_idtr (descriptors : List (List Byte)) : Instr.Writes (.setupIdt descriptors) (.table .idtr)
  | setupPaging_cr0 : Instr.Writes .setupPaging .cr0
  | setupPaging_cr3 : Instr.Writes .setupPaging (.scalar .cr3)
  | setupPaging_cr4 : Instr.Writes .setupPaging .cr4

/-- The commands that may lengthen the arena (20_memory.md R51). -/
def Op.allocating : List Op := [.alloc, .setupGdt, .setupIdt, .setupPaging]

namespace Machine

/-- What a register holds: a cache record, a table pointer record or 64 bits. -/
def RegisterContents : Register → Type
  | .seg _ => SegCache
  | .table _ => TablePtr
  | .scalar _ | .rflags | .cr0 | .cr4 | .efer => BitVec 64

/-- A register by name, all of its bits. -/
def Regs.get (r : Regs) : (k : Register) → RegisterContents k
  | .scalar n => r.getScalar n
  | .rflags => r.rflags
  | .cr0 => r.cr0
  | .cr4 => r.cr4
  | .efer => r.efer
  | .seg n => r.getSeg n
  | .table t => r.getTable t

/-- Writing a plain scalar leaves every other register alone. -/
theorem Regs.get_setScalar_other (r : Regs) {n : Scalar} {k : Register} (v : BitVec 64) (h : k ≠ .scalar n) :
    (r.setScalar n v).get k = r.get k := by
  cases k with
  | scalar m => exact r.getScalar_setScalar_other v (by rintro rfl; exact h rfl)
  | rflags => exact r.setScalar_rflags n v
  | cr0 => exact r.setScalar_cr0 n v
  | cr4 => exact r.setScalar_cr4 n v
  | efer => exact r.setScalar_efer n v
  | seg m => exact r.setScalar_getSeg n v m
  | table t => exact r.setScalar_getTable n v t

/-- Writing a segment cache leaves every other register alone. -/
theorem Regs.get_setSeg_other (r : Regs) {n : Sreg} {k : Register} (c : SegCache) (h : k ≠ .seg n) :
    (r.setSeg n c).get k = r.get k := by
  cases k with
  | scalar m => exact r.setSeg_getScalar n c m
  | rflags => exact r.setSeg_rflags n c
  | cr0 => exact r.setSeg_cr0 n c
  | cr4 => exact r.setSeg_cr4 n c
  | efer => exact r.setSeg_efer n c
  | seg m => exact r.getSeg_setSeg_other c (by rintro rfl; exact h rfl)
  | table t => exact r.setSeg_getTable n c t

/-- Writing a table pointer leaves every other register alone. -/
theorem Regs.get_setTable_other (r : Regs) {t : TableReg} {k : Register} (p : TablePtr) (h : k ≠ .table t) :
    (r.setTable t p).get k = r.get k := by
  cases k with
  | scalar m => exact r.setTable_getScalar t p m
  | rflags => exact r.setTable_rflags t p
  | cr0 => exact r.setTable_cr0 t p
  | cr4 => exact r.setTable_cr4 t p
  | efer => exact r.setTable_efer t p
  | seg m => exact r.setTable_getSeg t p m
  | table u => exact r.getTable_setTable_other p (by rintro rfl; exact h rfl)

/-- A field write leaves every register but the field's own alone (41_regfile_serializer_ops.md R123). -/
theorem Regs.get_fieldSet_other (r : Regs) {f : Field} {k : Register} (v : BitVec 64) (h : k ≠ f.register) :
    (r.fieldSet f v).get k = r.get k := by
  cases f with
  | scalar n => exact r.get_setScalar_other v h
  | rflags f => cases k with
    | rflags => exact absurd rfl h
    | _ => rfl
  | cr0 f => cases k with
    | cr0 => exact absurd rfl h
    | _ => rfl
  | cr4 f => cases k with
    | cr4 => exact absurd rfl h
    | _ => rfl
  | efer f => cases k with
    | efer => exact absurd rfl h
    | _ => rfl
  | seg n c => exact r.get_setSeg_other _ h
  | tableBase t => exact r.get_setTable_other _ h
  | tableLimit t => exact r.get_setTable_other _ h

/-- A field write keeps the reserved bits of every segment cache (R34). -/
theorem Regs.fieldSet_rsvd (r : Regs) (f : Field) (v : BitVec 64) (n : Sreg) :
    ((r.fieldSet f v).getSeg n).rsvd = (r.getSeg n).rsvd := by
  have h := r.fixedBits_fieldSet f v
  simp only [Regs.fixedBits, FixedBits.mk.injEq] at h
  cases n <;> simp only [Regs.getSeg, h]

/-- `r'` comes from `r` by writes of fields and of whole segment caches, each in a register the command may write. -/
inductive Regs.WrittenBy (i : Instr) (r : Regs) : Regs → Prop
  | none : Regs.WrittenBy i r r
  | field {r' : Regs} (f : Field) (v : BitVec 64) (h : Regs.WrittenBy i r r') (hw : i.Writes f.register) :
      Regs.WrittenBy i r (r'.fieldSet f v)
  | cache {r' : Regs} (n : Sreg) (c : SegCache) (h : Regs.WrittenBy i r r') (hw : i.Writes (.seg n)) :
      Regs.WrittenBy i r (r'.loadCache n c)

/-- `m'` comes from `m` by growing, if the command allocates, and by writes inside the arena: above `m`'s length, or the write
an MWRITE names. -/
inductive Memory.WrittenBy (i : Instr) (m : Memory) : Memory → Prop
  | none : Memory.WrittenBy i m m
  | grow {m' : Memory} (n : Nat) (h : Memory.WrittenBy i m m') (hi : i.op ∈ Op.allocating) (hn : m'.len ≤ n) :
      Memory.WrittenBy i m (m'.grow n)
  | write {m' : Memory} (a : Nat) (v : List Byte) (h : Memory.WrittenBy i m m') (hb : a + v.length ≤ m'.len)
      (ha : m.len ≤ a ∨ i = .mwrite a v) : Memory.WrittenBy i m (m'.write a v)

/-- The Register File and the arena of `u` come from those of `s` by writes the command may make. -/
structure State.ReachedBy (i : Instr) (s u : State) : Prop where
  regs : s.regs.WrittenBy i u.regs
  mem : s.mem.WrittenBy i u.mem

/-! What the writes keep. -/

theorem Regs.WrittenBy.get_eq {i : Instr} {r r' : Regs} (h : r.WrittenBy i r') {k : Register} (hk : ¬ i.Writes k) :
    r'.get k = r.get k := by
  induction h with
  | none => rfl
  | field f v _ hw ih =>
    have hne : k ≠ f.register := by rintro rfl; exact hk hw
    exact (Regs.get_fieldSet_other _ v hne).trans ih
  | cache n c _ hw ih =>
    have hne : k ≠ .seg n := by rintro rfl; exact hk hw
    exact (Regs.get_setSeg_other _ _ hne).trans ih

theorem Regs.WrittenBy.outsideCaches_eq {i : Instr} {r r' : Regs} (h : r.WrittenBy i r') :
    r'.fixedBits.outsideCaches = r.fixedBits.outsideCaches := by
  induction h with
  | none => rfl
  | field f v _ _ ih => rw [Regs.fixedBits_fieldSet, ih]
  | cache n c _ _ ih => rw [Regs.fixedBits_loadCache, ih]

theorem Regs.WrittenBy.rsvd_eq_or_zero {i : Instr} {r r' : Regs} (h : r.WrittenBy i r') (n : Sreg) :
    (r'.getSeg n).rsvd = (r.getSeg n).rsvd ∨ (r'.getSeg n).rsvd = 0 := by
  induction h with
  | none => exact .inl rfl
  | field f v _ _ ih => rwa [Regs.fieldSet_rsvd]
  | cache m c _ _ ih =>
    rw [Regs.loadCache_rsvd]
    split
    · exact .inr rfl
    · exact ih

theorem Regs.WrittenBy.fixedOk {i : Instr} {r r' : Regs} (h : r.WrittenBy i r') (hr : r.fixedOk = true) :
    r'.fixedOk = true := by
  induction h with
  | none => exact hr
  | field f v _ _ ih => rwa [Regs.fixedOk, Regs.fixedBits_fieldSet]
  | cache n c _ _ ih => exact Regs.fixedOk_loadCache n c ih

theorem Memory.WrittenBy.len_le {i : Instr} {m m' : Memory} (h : m.WrittenBy i m') : m.len ≤ m'.len := by
  induction h with
  | none => exact Nat.le_refl _
  | grow n _ _ hn ih => exact Nat.le_trans ih hn
  | write a v _ _ _ ih => exact ih

theorem Memory.WrittenBy.len_eq {i : Instr} {m m' : Memory} (h : m.WrittenBy i m') (hi : i.op ∉ Op.allocating) :
    m'.len = m.len := by
  induction h with
  | none => rfl
  | grow n _ ha _ _ => exact absurd ha hi
  | write a v _ _ _ ih => exact ih

theorem Memory.WrittenBy.wf {i : Instr} {m m' : Memory} (h : m.WrittenBy i m') (hm : m.wf = true) : m'.wf = true := by
  induction h with
  | none => exact hm
  | grow n _ _ hn ih => exact Memory.wf_grow ih hn
  | write a v _ hb _ ih => exact Memory.wf_write ih hb

/-- A byte that existed keeps its value unless the command is an MWRITE whose range holds it. -/
theorem Memory.WrittenBy.byte_eq {i : Instr} {m m' : Memory} (h : m.WrittenBy i m') (hm : m.wf = true) {x : Nat}
    (hx : x < m.len) (ho : ∀ a v, i = .mwrite a v → x < a ∨ a + v.length ≤ x) : m'.byte x = m.byte x := by
  induction h with
  | none => rfl
  | grow n _ _ _ ih => exact ih
  | write a v h' _ ha ih =>
    have houtside : ¬ (a ≤ x ∧ x < a + v.length) := by
      rcases ha with ha | ha
      · omega
      · have := ho a v ha
        omega
    rw [Memory.byte_write (h'.wf hm), if_neg houtside, ih]

theorem Memory.WrittenBy.readByte_eq {i : Instr} {m m' : Memory} (h : m.WrittenBy i m') (hm : m.wf = true) {x : Nat}
    (hx : x < m.len) (ho : ∀ a v, i = .mwrite a v → x < a ∨ a + v.length ≤ x) : m'.readByte x = m.readByte x := by
  rw [Memory.readByte, Memory.readByte, if_pos hx, if_pos (Nat.lt_of_lt_of_le hx h.len_le), h.byte_eq hm hx ho]

/-! The writes of a state. -/

theorem State.ReachedBy.refl (i : Instr) (s : State) : s.ReachedBy i s := ⟨.none, .none⟩

theorem State.ReachedBy.setRegs {i : Instr} {s u : State} (h : s.ReachedBy i u) {r : Regs} (hr : s.regs.WrittenBy i r) :
    s.ReachedBy i (u.setRegs r) := ⟨hr, h.mem⟩

theorem State.ReachedBy.setMem {i : Instr} {s u : State} (h : s.ReachedBy i u) {m : Memory} (hm : s.mem.WrittenBy i m) :
    s.ReachedBy i (u.setMem m) := ⟨h.regs, hm⟩

theorem State.ReachedBy.countDraw {i : Instr} {s u : State} (h : s.ReachedBy i u) : s.ReachedBy i u.countDraw :=
  ⟨h.regs, h.mem⟩

theorem State.ReachedBy.fieldSet {i : Instr} {s u : State} (h : s.ReachedBy i u) (f : Field) (v : BitVec 64)
    (hw : i.Writes f.register) : s.ReachedBy i (u.setRegs (u.regs.fieldSet f v)) :=
  h.setRegs (h.regs.field f v hw)

theorem State.ReachedBy.loadCache {i : Instr} {s u : State} (h : s.ReachedBy i u) (n : Sreg) (c : SegCache)
    (hw : i.Writes (.seg n)) : s.ReachedBy i (u.setRegs (u.regs.loadCache n c)) :=
  h.setRegs (h.regs.cache n c hw)

theorem State.ReachedBy.installTable {i : Instr} {s u : State} (h : s.ReachedBy i u) (t : TableReg) (base n : Nat)
    (hw : i.Writes (.table t)) : s.ReachedBy i (u.installTable t base n) :=
  h.setRegs ((h.regs.field (.tableBase t) _ hw).field (.tableLimit t) _ hw)

theorem State.ReachedBy.respond {i : Instr} {s u : State} (h : s.ReachedBy i u) (st : Status) (r : Result) :
    s.ReachedBy i (u.respond st r) := ⟨h.regs, h.mem⟩

theorem State.ReachedBy.takeFailure {i : Instr} {s u : State} (h : s.ReachedBy i u) (k : FailKind) :
    s.ReachedBy i (u.takeFailure k) := ⟨h.regs, h.mem⟩

/-- Each cache of a list written with FLAT16, or left alone. -/
theorem Regs.WrittenBy.foldl_realSeg {i : Instr} {r r' : Regs} (h : r.WrittenBy i r') (hw : ∀ n, i.Writes (.seg n))
    (written : Bool) (l : List Sreg) : r.WrittenBy i (l.foldl (Regs.realSeg written) r') := by
  induction l generalizing r' with
  | nil => exact h
  | cons n t ih =>
    apply ih
    cases written
    · exact h
    · exact .cache n flat16 h (hw n)

/-- SETUP_REAL's writes of the caches, `ldtr` and `tr` among them or not (45_mode_setup.md R210). -/
theorem Regs.WrittenBy.realSegs {i : Instr} {r r' : Regs} (h : r.WrittenBy i r') (hw : ∀ n, i.Writes (.seg n))
    (system : Bool) : r.WrittenBy i (r'.realSegs system) :=
  (h.foldl_realSeg hw true _).foldl_realSeg hw system _

/-! Attempts. -/

/-- Whichever way it ends, the attempt reaches a state by writes the command may make; a value it completes with has `Q`. -/
inductive Attempt.Within {α : Type} (i : Instr) (s : State) (Q : α → Prop) : Attempt α → Prop
  | done {a : α} {u : State} (hu : s.ReachedBy i u) (ha : Q a) : Attempt.Within i s Q (.done a u)
  | failed {k : FailKind} {u : State} (hu : s.ReachedBy i u) : Attempt.Within i s Q (.failed k u)

theorem Attempt.Within.andThen {α β : Type} {i : Instr} {s : State} {Q : α → Prop} {R : β → Prop} {x : Attempt α}
    {k : α → State → Attempt β} (hx : x.Within i s Q) (hk : ∀ a u, s.ReachedBy i u → Q a → (k a u).Within i s R) :
    (x.andThen k).Within i s R := by
  cases hx with
  | done hu ha => exact hk _ _ hu ha
  | failed hu => exact .failed hu

theorem Attempt.within_of_state {α : Type} {i : Instr} {s u : State} {x : Attempt α} (hx : x.state = u)
    (hu : s.ReachedBy i u) : x.Within i s fun _ => True := by
  subst hx
  cases x with
  | done a u => exact .done hu trivial
  | failed f u => exact .failed hu

theorem assertThat_within {i : Instr} {s u : State} (hu : s.ReachedBy i u) (c : Bool) (k : FailKind) :
    (assertThat c k u).Within i s fun _ => True :=
  Attempt.within_of_state (assertThat_state c k u) hu

/-- What is allocated lies above the arena the command began with. -/
theorem alloc_within {i : Instr} {s u : State} (hu : s.ReachedBy i u) (hi : i.op ∈ Op.allocating) (size : Nat)
    {alignment : Nat} (ha : 1 ≤ alignment) : (alloc size alignment u).Within i s fun a => s.mem.len ≤ a := by
  obtain ⟨_, hle, _⟩ := alignUp_spec u.mem.len alignment ha
  rcases alloc_cases size alignment u with ⟨_, e⟩ | ⟨_, e⟩ <;> rw [e]
  · exact .done (hu.setMem (hu.mem.grow _ hi (by omega))) (Nat.le_trans hu.mem.len_le hle)
  · exact .failed hu

theorem memWrite_within {i : Instr} {s u : State} (hu : s.ReachedBy i u) (a : Nat) (v : List Byte)
    (ha : s.mem.len ≤ a ∨ i = .mwrite a v) : (memWrite a v u).Within i s fun _ => True := by
  rcases memWrite_cases a v u with ⟨hb, e⟩ | ⟨_, e⟩ <;> rw [e]
  · exact .done (hu.setMem (hu.mem.write a v hb ha)) trivial
  · exact .failed hu

theorem loadSeg_within {i : Instr} {s u : State} (hu : s.ReachedBy i u) {n : Sreg} (hw : i.Writes (.seg n))
    (selector : BitVec 16) : (loadSeg n selector u).Within i s fun _ => True := by
  rcases loadSeg_cases n selector u with ⟨k, e⟩ | ⟨c, e⟩ | ⟨c, e⟩ <;> rw [e]
  · exact .failed hu
  · exact .done (hu.loadCache n c hw) trivial
  · exact .done (hu.loadCache n c hw).countDraw trivial

theorem loadSegs_within {i : Instr} {s u : State} (hu : s.ReachedBy i u) (hw : ∀ n, i.Writes (.seg n))
    (l : List (Sreg × BitVec 16)) : (loadSegs l u).Within i s fun _ => True := by
  induction l generalizing u with
  | nil => exact .done hu trivial
  | cons x t ih => exact (loadSeg_within hu (hw x.1) x.2).andThen fun _ _ hu' _ => ih hu'

/-! The setups (45_mode_setup.md). -/

theorem setupReal_within (s : State) : (setupReal s).Within .setupReal s fun _ => True := by
  refine (assertThat_within (.refl _ s) _ _).andThen fun _ u hu _ => .done (hu.setRegs ?_) trivial
  exact (hu.regs.realSegs .setupReal_seg _).field (.cr0 .pe) 0 .setupReal_cr0

theorem setupGdt_within (s : State) : (setupGdt s).Within .setupGdt s fun _ => True := by
  have hi : Instr.setupGdt.op ∈ Op.allocating := by decide
  refine (assertThat_within (.refl _ s) _ _).andThen fun _ u hu _ => ?_
  refine (alloc_within hu hi 104 (Nat.le_refl 1)).andThen fun tss u hu _ => ?_
  refine (assertThat_within hu _ _).andThen fun _ u hu _ => ?_
  refine (alloc_within hu hi _ (Nat.le_refl 1)).andThen fun gdt u hu hgdt => ?_
  refine (assertThat_within hu _ _).andThen fun _ u hu _ => ?_
  refine (memWrite_within hu _ _ (.inl hgdt)).andThen fun _ u hu _ => ?_
  exact loadSegs_within ((hu.installTable .gdtr _ _ .setupGdt_gdtr).fieldSet (.cr0 .pe) _ .setupGdt_cr0) .setupGdt_seg _

theorem setupIdt_within (descriptors : List (List Byte)) (s : State) :
    (setupIdt descriptors s).Within (.setupIdt descriptors) s fun _ => True := by
  have hi : (Instr.setupIdt descriptors).op ∈ Op.allocating := by simp [Instr.op, Op.allocating]
  refine (assertThat_within (.refl _ s) _ _).andThen fun _ u hu _ => ?_
  refine (assertThat_within hu _ _).andThen fun _ u hu _ => ?_
  refine (alloc_within hu hi _ (Nat.le_refl 1)).andThen fun idt u hu hidt => ?_
  refine (memWrite_within hu _ _ (.inl hidt)).andThen fun _ u hu _ => ?_
  exact .done (hu.installTable .idtr _ _ (.setupIdt_idtr _)) trivial

theorem buildLegacy_within {s u : State} (hu : s.ReachedBy .setupPaging u) :
    (buildLegacy u).Within .setupPaging s fun _ => True := by
  have hi : Instr.setupPaging.op ∈ Op.allocating := by decide
  refine (alloc_within hu hi 4096 (alignment := Config.alignPt) (by decide)).andThen fun pd u hu hpd => ?_
  refine (assertThat_within hu _ _).andThen fun _ u hu _ => ?_
  refine (memWrite_within hu pd legacyDirectory (.inl hpd)).andThen fun _ u hu _ => ?_
  exact .done hu trivial

theorem buildLong_within {s u : State} (hu : s.ReachedBy .setupPaging u) :
    (buildLong u).Within .setupPaging s fun _ => True := by
  have hi : Instr.setupPaging.op ∈ Op.allocating := by decide
  refine (alloc_within hu hi 4096 (alignment := Config.alignPt) (by decide)).andThen fun pml4 u hu hpml4 => ?_
  refine (alloc_within hu hi 4096 (alignment := Config.alignPt) (by decide)).andThen fun pdpt u hu hpdpt => ?_
  refine (assertThat_within hu _ _).andThen fun _ u hu _ => ?_
  refine (memWrite_within hu pml4 _ (.inl hpml4)).andThen fun _ u hu _ => ?_
  refine (memWrite_within hu pdpt longDirectory (.inl hpdpt)).andThen fun _ u hu _ => ?_
  exact .done hu trivial

theorem buildTables_within {s u : State} (hu : s.ReachedBy .setupPaging u) :
    (buildTables u).Within .setupPaging s fun _ => True := by
  unfold buildTables
  split
  · exact (buildLong_within hu).andThen fun root u hu _ => .done (hu.fieldSet (.cr4 .pae) _ .setupPaging_cr4) trivial
  · exact buildLegacy_within hu

theorem setupPaging_within (s : State) : (setupPaging s).Within .setupPaging s fun _ => True := by
  refine (assertThat_within (.refl _ s) _ _).andThen fun _ u hu _ => ?_
  refine (buildTables_within hu).andThen fun root u hu _ => .done (hu.setRegs ?_) trivial
  have hcr3 := hu.regs.field (.scalar .cr3) (BitVec.ofNat 64 root) .setupPaging_cr3
  have hpse := hcr3.field (.cr4 .pse) 1 .setupPaging_cr4
  exact hpse.field (.cr0 .pg) 1 .setupPaging_cr0

/-! Commands. -/

/-- Every next state of the outcome is reached by writes the command may make. -/
def OutcomeWithin (i : Instr) (s : State) (o : Host.Outcome State Fault Refusal) : Prop :=
  ∀ t, o = .next t → s.ReachedBy i t

theorem complete_within (i : Instr) (s : State) (r : Result) : OutcomeWithin i s (complete r s) := by
  rintro t ⟨⟩
  exact (State.ReachedBy.refl i s).respond ..

theorem typed_within {i : Instr} {s : State} {ok : Bool} {o : Host.Outcome State Fault Refusal}
    (h : ok = true → OutcomeWithin i s o) : OutcomeWithin i s (typed ok s o) := by
  intro t ht
  rcases typed_next ht with ⟨hok, ho⟩ | ⟨_, rfl⟩
  · exact h hok t ho
  · exact (State.ReachedBy.refl i s).respond ..

theorem stateCommand_within {i : Instr} {s : State} {Q : Result → Prop} {body : State → Attempt Result}
    (h : (body s).Within i s Q) : OutcomeWithin i s (stateCommand s body) := by
  intro t ht
  rcases stateCommand_next ht with ⟨_, r, u, hb, rfl⟩ | ⟨_, k, u, hb, rfl⟩ | ⟨_, rfl⟩
  · rw [hb] at h
    cases h with
    | done hu => exact hu.respond ..
  · rw [hb] at h
    cases h with
    | failed hu => exact hu.takeFailure k
  · exact (State.ReachedBy.refl i s).respond ..

/-- A state command that answers what a part of it found, whose writes are the part's. -/
theorem stateCommand_andThen_within {α : Type} {i : Instr} {s : State} {Q : α → Prop} {part : State → Attempt α}
    {answer : α → Result} (h : (part s).Within i s Q) :
    OutcomeWithin i s (stateCommand s fun s => (part s).andThen fun a u => .done (answer a) u) :=
  stateCommand_within (Q := fun _ => True) (h.andThen fun _ _ hu _ => .done hu trivial)

/-- A state command that only reads. -/
theorem stateCommand_read_within (i : Instr) (s : State) (answer : State → Result) :
    OutcomeWithin i s (stateCommand s fun s => .done (answer s) s) :=
  stateCommand_within (Q := fun _ => True) (.done (.refl i s) trivial)

/-- Short of CONSTRUCT and LOADIMG, a command makes no writes but those of `Instr.Writes` and `Memory.WrittenBy`. -/
theorem exec_within {i : Instr} (hi : i.op.startsOver = false) (s : State) : OutcomeWithin i s (exec i s) := by
  cases i with
  | construct arch => cases hi
  | loadimg image => cases hi
  | alloc size alignment =>
    refine typed_within fun ha => ?_
    exact stateCommand_andThen_within (alloc_within (.refl _ s) (List.mem_cons_self ..) size (of_decide_eq_true ha))
  | mwrite addr bytes => exact stateCommand_andThen_within (memWrite_within (.refl _ s) addr bytes (.inr rfl))
  | mread addr size =>
    exact stateCommand_andThen_within (Attempt.within_of_state (memRead_state addr size s) (.refl _ s))
  | rget field => exact stateCommand_read_within _ s (fun s => .value (s.regs.fieldGet field))
  | rset field value =>
    refine typed_within fun _ => stateCommand_within (Q := fun _ => True) (.done ?_ trivial)
    exact (State.ReachedBy.refl _ s).fieldSet field value (.rset field value rfl)
  | raw => exact stateCommand_read_within _ s (fun s => .bytes s.image)
  | loadSeg sreg selector => exact stateCommand_andThen_within (loadSeg_within (.refl _ s) (.loadSeg ..) selector)
  | setupReal => exact stateCommand_andThen_within (setupReal_within s)
  | setupGdt => exact stateCommand_andThen_within (setupGdt_within s)
  | setupIdt descriptors => exact typed_within fun _ => stateCommand_andThen_within (setupIdt_within descriptors s)
  | setupPaging => exact stateCommand_andThen_within (setupPaging_within s)
  | descAddr selector =>
    exact stateCommand_read_within _ s (fun s => .addr (descAddr (s.regs.getTable .gdtr).base.toNat selector))
  | walk32 va => exact stateCommand_andThen_within (Attempt.within_of_state (walk32_state va s) (.refl _ s))
  | walk64 va => exact stateCommand_andThen_within (Attempt.within_of_state (walk64_state va s) (.refl _ s))
  | encSeg _ | encSeg64 _ | encGate _ | encGate64 _ | encTaskGate _ | encTss32 _ | encTss64 _ | encPde32 _ | encPml4e _
  | encPdpte _ | encPde64 _ | encPte64 _ => exact complete_within _ s _
  | decSeg _ | decSeg64 _ | decGate _ | decGate64 _ | decTaskGate _ | decTss32 _ | decTss64 _ | decPde32 _ | decPml4e _
  | decPdpte _ | decPde64 _ | decPte64 _ => exact typed_within fun _ => complete_within _ s _

theorem eq_construct_or_loadimg {i : Instr} (hi : i.op.startsOver = true) :
    (∃ arch, i = .construct arch) ∨ ∃ image, i = .loadimg image := by
  cases i with
  | construct arch => exact .inl ⟨arch, rfl⟩
  | loadimg image => exact .inr ⟨image, rfl⟩
  | _ => cases hi

theorem exec_construct_next {s t : State} {arch : Arch} (h : exec (.construct arch) s = .next t) :
    t.regs = constructRegs arch ∧ t.mem = Memory.empty := by
  cases h
  exact ⟨rfl, rfl⟩

/-- LOADIMG takes the arena from the image, or is refused and keeps it. -/
theorem exec_loadimg_mem {s t : State} {image : List Byte} (h : exec (.loadimg image) s = .next t) :
    t.mem = Memory.ofBytes (image.drop regFileSize) ∨ t.mem = s.mem := by
  rcases typed_next h with ⟨_, ht⟩ | ⟨_, rfl⟩
  · cases ht
    exact .inl rfl
  · exact .inr rfl

end Machine

end Sys2Proof
end

section
/-! PROOFS. The invariants of the state: the arena's canonical form, its bytes and length, the fixed and reserved bits, and
which commands write which registers (10_state.md sections 2 to 6). -/

namespace Sys2Proof.Machine

theorem exec_keeps_wf {s t : State} {i : Instr} (hs : s.mem.wf = true) (h : exec i s = .next t) : t.mem.wf = true := by
  cases hi : i.op.startsOver with
  | false => exact (exec_within hi s t h).mem.wf hs
  | true =>
    rcases eq_construct_or_loadimg hi with ⟨arch, rfl⟩ | ⟨image, rfl⟩
    · rw [(exec_construct_next h).2, Memory.wf_empty]
    · rcases exec_loadimg_mem h with hm | hm <;> rw [hm]
      · exact Memory.wf_ofBytes _
      · exact hs

/-- Settles O55, command by command through the writes it may make. -/
theorem everyStepKeepsTheArenaCanonical : Obligations.EveryStepKeepsTheArenaCanonical := by
  intro s t hs h
  rcases step_next h with ⟨_, rfl⟩ | ⟨frame, rest, _, ⟨_, rfl⟩ | ⟨i, _, he⟩⟩
  · exact hs
  · exact hs
  · exact exec_keeps_wf (s := s.setPort rest) hs he

theorem constructRegs_fixedOk (arch : Arch) : (constructRegs arch).fixedOk = true := by cases arch <;> decide

theorem exec_keeps_fixedOk {s t : State} {i : Instr} (hi : i.op ≠ .loadimg) (hs : s.regs.fixedOk = true)
    (h : exec i s = .next t) : t.regs.fixedOk = true := by
  cases ho : i.op.startsOver with
  | false => exact (exec_within ho s t h).regs.fixedOk hs
  | true =>
    rcases eq_construct_or_loadimg ho with ⟨arch, rfl⟩ | ⟨image, rfl⟩
    · rw [(exec_construct_next h).1, constructRegs_fixedOk]
    · exact absurd rfl hi

/-- Settles O57: no field write touches such a bit, and a cache written whole holds 0 in its reserved bits. -/
theorem onlyLoadimgMovesFixedBits : Obligations.OnlyLoadimgMovesFixedBits := by
  constructor
  · intro s t hport h
    rcases step_next h with ⟨_, rfl⟩ | ⟨frame, rest, hp, ⟨_, rfl⟩ | ⟨i, hd, he⟩⟩
    · exact ⟨rfl, fun _ => .inl rfl⟩
    · exact ⟨rfl, fun _ => .inl rfl⟩
    · have hw := (exec_within (hport frame rest i hp hd) (s.setPort rest) t he).regs
      exact ⟨hw.outsideCaches_eq, hw.rsvd_eq_or_zero⟩
  · intro s t hport hs h
    rcases step_next h with ⟨_, rfl⟩ | ⟨frame, rest, hp, ⟨_, rfl⟩ | ⟨i, hd, he⟩⟩
    · exact hs
    · exact hs
    · exact exec_keeps_fixedOk (s := s.setPort rest) (hport frame rest i hp hd) hs he

/-- Settles O58: short of CONSTRUCT and LOADIMG the arena only grows, and is written above its old length or by MWRITE. -/
theorem arenaOnlyGrowsAndKeepsItsBytes : Obligations.ArenaOnlyGrowsAndKeepsItsBytes := by
  intro s t i hs hi h
  have hw := (exec_within hi s t h).mem
  exact ⟨hw.len_le, hw.len_eq, fun x hx ho => hw.readByte_eq hs hx ho⟩

/-- Settles O59: a register keeps its contents unless the command is one of those `Instr.Writes` lists for it. -/
theorem registersChangeOnlyByTheirCommands : Obligations.RegistersChangeOnlyByTheirCommands := by
  intro s t i hi h
  have keeps : ∀ {k : Register}, ¬ i.Writes k → t.regs.get k = s.regs.get k := (exec_within hi s t h).regs.get_eq
  refine ⟨fun n hrset hpaging => keeps (k := .scalar n) ?_, fun hrset => keeps (k := .rflags) ?_,
    fun hrset => keeps (k := .efer) ?_, fun hrset hsetup => keeps (k := .cr0) ?_,
    fun hrset hpaging => keeps (k := .cr4) ?_, fun n hrset hload hsetup => keeps (k := .seg n) ?_,
    fun hbase hlimit hgdt => keeps (k := .table .gdtr) ?_, fun hbase hlimit hidt => keeps (k := .table .idtr) ?_⟩
  · intro hw
    cases hw with
    | rset f v hk => cases f <;> cases hk; exact hrset v rfl
    | setupPaging_cr3 => exact hpaging rfl rfl
  · intro hw
    cases hw with
    | rset f v hk => cases f <;> cases hk; exact hrset _ v rfl
  · intro hw
    cases hw with
    | rset f v hk => cases f <;> cases hk; exact hrset _ v rfl
  · intro hw
    cases hw with
    | rset f v hk => cases f <;> cases hk; exact hrset _ v rfl
    | setupReal_cr0 | setupGdt_cr0 | setupPaging_cr0 => exact hsetup (by simp)
  · intro hw
    cases hw with
    | rset f v hk => cases f <;> cases hk; exact hrset _ v rfl
    | setupPaging_cr4 => exact hpaging rfl
  · intro hw
    cases hw with
    | rset f v hk => cases f <;> cases hk; exact hrset _ v rfl
    | loadSeg n selector => exact hload selector rfl
    | setupReal_seg | setupGdt_seg => exact hsetup (by simp)
  · intro hw
    cases hw with
    | rset f v hk =>
      cases f <;> cases hk
      · exact hbase v rfl
      · exact hlimit v rfl
    | setupGdt_gdtr => exact hgdt rfl
  · intro hw
    cases hw with
    | rset f v hk =>
      cases f <;> cases hk
      · exact hbase v rfl
      · exact hlimit v rfl
    | setupIdt_idtr descriptors => exact hidt descriptors rfl

end Sys2Proof.Machine
end

section
/-! PROOFS. The arena commands: what ALLOC, MWRITE and MREAD answer on each side of their bounds, and the bytes of the arena
they leave (20_memory.md R51 to R53, R60). -/

namespace Sys2Proof.Machine

/-! Answers. -/

/-- In an accepting state the latch is not set, so a failure sets it to its own kind (60_exceptions.md R243). -/
theorem State.takeFailure_of_accepting {s : State} (h : s.accepting = true) (k : FailKind) :
    s.takeFailure k = s.failedWith k := by
  obtain ⟨_, hf⟩ := (accepting_iff s).1 h
  simp [State.takeFailure, State.failedWith, State.setFault, State.respond, State.setResponse, hf]

/-- A state command whose part completes answers what the part found. -/
theorem stateCommand_andThen_of_done {α : Type} {s u : State} {part : State → Attempt α} {a : α} (answer : α → Result)
    (h : s.accepting = true) (hp : part s = .done a u) :
    stateCommand s (fun s => (part s).andThen fun a u => .done (answer a) u) = .next (u.respond .ok (answer a)) := by
  rw [stateCommand_accepting h, hp, Attempt.andThen_done, finish_done]

/-- A state command whose part fails at once changes only the latch and the answer. -/
theorem stateCommand_andThen_of_failed {α : Type} {s : State} {part : State → Attempt α} {k : FailKind}
    (answer : α → Result) (h : s.accepting = true) (hp : part s = .failed k s) :
    stateCommand s (fun s => (part s).andThen fun a u => .done (answer a) u) = .next (s.failedWith k) := by
  rw [stateCommand_accepting h, hp, Attempt.andThen_failed, finish_failed, State.takeFailure_of_accepting h]

/-! The commands on each side of their bounds (40_arena_ops.md R110 to R112). -/

section Commands
variable {s : State} (h : s.accepting = true)
include h

theorem exec_alloc_of_admits {size alignment : Nat} (ha : 1 ≤ alignment)
    (hm : memAdmits s.cfg (alignUp s.mem.len alignment + size) = true) :
    exec (.alloc size alignment) s =
      .next ((s.setMem (s.mem.grow (alignUp s.mem.len alignment + size))).respond .ok
        (.addr (alignUp s.mem.len alignment))) := by
  obtain ⟨_, e⟩ := (alloc_cases size alignment s).resolve_right (by simp [hm])
  rw [exec, execAlloc, decide_eq_true ha, typed_true]
  exact stateCommand_andThen_of_done Result.addr h e

theorem exec_alloc_of_not_admits {size alignment : Nat} (ha : 1 ≤ alignment)
    (hm : memAdmits s.cfg (alignUp s.mem.len alignment + size) = false) :
    exec (.alloc size alignment) s = .next (s.failedWith .outOfBounds) := by
  obtain ⟨_, e⟩ := (alloc_cases size alignment s).resolve_left (by simp [hm])
  rw [exec, execAlloc, decide_eq_true ha, typed_true]
  exact stateCommand_andThen_of_failed Result.addr h e

theorem exec_mwrite_of_le {addr : Nat} {bytes : List Byte} (hb : addr + bytes.length ≤ s.mem.len) :
    exec (.mwrite addr bytes) s = .next ((s.setMem (s.mem.write addr bytes)).respond .ok .nothing) := by
  obtain ⟨_, e⟩ := (memWrite_cases addr bytes s).resolve_right (by omega)
  exact stateCommand_andThen_of_done (fun _ => Result.nothing) h e

theorem exec_mwrite_of_lt {addr : Nat} {bytes : List Byte} (hb : s.mem.len < addr + bytes.length) :
    exec (.mwrite addr bytes) s = .next (s.failedWith .outOfBounds) := by
  obtain ⟨_, e⟩ := (memWrite_cases addr bytes s).resolve_left (by omega)
  exact stateCommand_andThen_of_failed (fun _ => Result.nothing) h e

theorem exec_mread_of_le {addr size : Nat} (hb : addr + size ≤ s.mem.len) :
    exec (.mread addr size) s = .next (s.respond .ok (.bytes (s.mem.read addr size))) := by
  obtain ⟨_, e⟩ := (memRead_cases addr size s).resolve_right (by omega)
  exact stateCommand_andThen_of_done Result.bytes h e

theorem exec_mread_of_lt {addr size : Nat} (hb : s.mem.len < addr + size) :
    exec (.mread addr size) s = .next (s.failedWith .outOfBounds) := by
  obtain ⟨_, e⟩ := (memRead_cases addr size s).resolve_left (by omega)
  exact stateCommand_andThen_of_failed Result.bytes h e

/-- A read after an answered write finds the block accepting and reads the written arena (20_memory.md R60). -/
theorem exec_mread_after_write (a : Nat) (v : List Byte) (st : Status) (r : Result) {addr size : Nat}
    (hb : addr + size ≤ s.mem.len) :
    exec (.mread addr size) ((s.setMem (s.mem.write a v)).respond st r) =
      .next (((s.setMem (s.mem.write a v)).respond st r).respond .ok (.bytes ((s.mem.write a v).read addr size))) :=
  exec_mread_of_le (s := (s.setMem (s.mem.write a v)).respond st r) h hb

end Commands

/-! The bytes of the arena. -/

theorem Memory.readByte_of_lt {m : Memory} {x : Nat} (h : x < m.len) : m.readByte x = some (m.byte x) := if_pos h

/-- A byte that existed survives an allocation. -/
theorem Memory.readByte_grow_of_lt {m : Memory} {n x : Nat} (hn : m.len ≤ n) (hx : x < m.len) :
    (m.grow n).readByte x = m.readByte x := by
  have hx' : x < (m.grow n).len := Nat.lt_of_lt_of_le hx hn
  rw [Memory.readByte_of_lt hx', Memory.readByte_of_lt hx, Memory.byte_grow]

/-- A byte that an allocation adds is 0 (R51). -/
theorem Memory.readByte_grow_of_ge {m : Memory} (h : m.wf) {n x : Nat} (hx : m.len ≤ x) (hn : x < n) :
    (m.grow n).readByte x = some 0 := by
  have hx' : x < (m.grow n).len := hn
  rw [Memory.readByte_of_lt hx', Memory.byte_grow, Memory.byte_ge h hx]

/-- A byte of the range a write stores to. -/
theorem Memory.readByte_write_of_mem {m : Memory} (h : m.wf) {a i : Nat} {v : List Byte} (hb : a + v.length ≤ m.len)
    (hi : i < v.length) : (m.write a v).readByte (a + i) = v[i]? := by
  have hx : a + i < (m.write a v).len := by rw [Memory.write_len]; omega
  rw [Memory.readByte_of_lt hx, Memory.byte_write h, if_pos ⟨by omega, by omega⟩, Nat.add_sub_cancel_left,
    List.getD_eq_getElem _ _ hi, List.getElem?_eq_getElem hi]

/-- A byte outside that range, or past the arena (R53). -/
theorem Memory.readByte_write_of_not_mem {m : Memory} (h : m.wf) {a x : Nat} {v : List Byte}
    (hx : x < a ∨ a + v.length ≤ x) : (m.write a v).readByte x = m.readByte x := by
  have hbyte : (m.write a v).byte x = m.byte x := by rw [Memory.byte_write h, if_neg (by omega)]
  rw [Memory.readByte, Memory.readByte, Memory.write_len, hbyte]

/-- A multi-byte read, byte by byte (R52). -/
theorem Memory.read_eq_map {m : Memory} (h : m.wf) (a n : Nat) :
    m.read a n = (List.range n).map fun i => m.byte (a + i) := by
  apply bytes_ext (by simp)
  intro i hi
  have hi' : i < n := by simpa using hi
  rw [Memory.read_getD h a hi', List.getD_eq_getElem _ _ (by simpa using hi'), List.getElem_map, List.getElem_range]

/-! The obligations. -/

/-- Settles O25: the address is `alignUp`, and growing the arena keeps its bytes and adds zeros. -/
theorem allocExtendsTheArenaWithZeros : Obligations.AllocExtendsTheArenaWithZeros := by
  refine ⟨rfl, ?_, ?_, fun _ _ => rfl⟩
  · intro s size alignment addr ha hw h1 hmod hle hlt hmax
    have haddr := alignUp_eq hmod hle hlt
    have he := exec_alloc_of_admits ha h1 (size := size) (by rw [haddr]; exact memAdmits_of_le hmax)
    rw [haddr] at he
    exact ⟨s.mem.grow (addr + size), he, Memory.grow_len _ _,
      fun x hx => Memory.readByte_grow_of_lt (by omega) hx, fun x hx hx' => Memory.readByte_grow_of_ge hw hx hx'⟩
  · intro s size alignment addr m ha h1 hmod hle hlt hmax hm
    exact exec_alloc_of_not_admits ha h1 (by rw [alignUp_eq hmod hle hlt]; exact memAdmits_of_lt hmax hm)

/-- Settles O26: the arena after the write is `Memory.write`'s. -/
theorem mwriteStoresExactlyItsBytes : Obligations.MwriteStoresExactlyItsBytes := by
  refine ⟨rfl, fun s addr bytes ha hw => ⟨fun hb => ?_, exec_mwrite_of_lt ha⟩⟩
  exact ⟨s.mem.write addr bytes, exec_mwrite_of_le ha hb, Memory.write_len _ _ _,
    fun i hi => Memory.readByte_write_of_mem hw hb hi, fun x hx => Memory.readByte_write_of_not_mem hw hx⟩

/-- Settles O27: `Memory.read` answers the single bytes. -/
theorem mreadAnswersTheBytes : Obligations.MreadAnswersTheBytes := by
  refine ⟨rfl, fun s addr size ha hw => ⟨fun hb => ?_, exec_mread_of_lt ha⟩⟩
  rw [exec_mread_of_le ha hb, Memory.read_eq_map hw]

/-- Settles O28: the state after the write accepts the next command, and its arena is the one written. -/
theorem readAfterWriteAnswersTheLatestBytes : Obligations.ReadAfterWriteAnswersTheLatestBytes := by
  intro s addr bytes ha hw hb
  refine ⟨_, exec_mwrite_of_le ha hb, ?_, fun x n hx hd => ⟨_, exec_mread_of_le ha hx, ?_⟩⟩
  · rw [exec_mread_after_write ha _ _ _ _ hb, Memory.read_write_same hw hb]
  · rw [exec_mread_after_write ha _ _ _ _ hx, Memory.read_write_disjoint hw hb hd]

end Sys2Proof.Machine
end

section
/-! PROOFS. The converse of Sys2Proof/Laws/Decode.lean: every operand reader accepts no bytes but those its writer puts
(notes/assumptions/1.md to 3.md). -/

namespace Sys2Proof

/-- The reader accepts no image of a value but the one the writer puts. -/
def ReadsOnly {α : Type} (read : List Byte → Option (α × List Byte)) (put : α → List Byte) : Prop :=
  ∀ ⦃b : List Byte⦄ ⦃v : α⦄ ⦃r : List Byte⦄, read b = some (v, r) → b = put v ++ r

/-- An operand with such a reader, and what is read after it. -/
theorem ReadsOnly.bind_eq_some {α β : Type} {read : List Byte → Option (α × List Byte)} {put : α → List Byte}
    (hr : ReadsOnly read put) {b : List Byte} {f : α × List Byte → Option β} {y : β} (h : (read b >>= f) = some y) :
    ∃ v r, b = put v ++ r ∧ f (v, r) = some y := by
  obtain ⟨⟨v, r⟩, hv, hf⟩ := Option.bind_eq_some_iff.1 h
  exact ⟨v, r, hr hv, hf⟩

/-! Numbers and byte sequences. -/

theorem takeBytes_eq_some {n : Nat} {b x r : List Byte} (h : takeBytes n b = some (x, r)) : x.length = n ∧ b = x ++ r := by
  unfold takeBytes at h
  split at h
  · cases h
  · cases h
    exact ⟨List.length_take_of_le (by omega), (List.take_append_drop n b).symm⟩

theorem putBits_ofNat_fromLE {w : Nat} {x : List Byte} (hl : x.length = (w + 7) / 8) (hx : fromLE x < 2 ^ w) :
    putBits (BitVec.ofNat w (fromLE x)) = x := by
  rw [putBits, BitVec.toNat_ofNat, Nat.mod_eq_of_lt hx, ← hl, leBytes_fromLE]

theorem readBits_readsOnly (w : Nat) : ReadsOnly (readBits w) putBits := by
  intro b v r h
  unfold readBits at h
  split at h
  · cases h
  · next x r' hx =>
    obtain ⟨hl, rfl⟩ := takeBytes_eq_some hx
    split at h
    · next hlt =>
      cases h
      rw [putBits_ofNat_fromLE hl hlt]
    · cases h

/-- A `uN` operand of a record, and what is read after it. -/
theorem readBits_bind_eq_some {w : Nat} {α : Type} {b : List Byte} {f : BitVec w × List Byte → Option α} {a : α}
    (h : (readBits w b >>= f) = some a) : ∃ v r, b = putBits v ++ r ∧ f (v, r) = some a :=
  (readBits_readsOnly w).bind_eq_some h

/-- An operand of one byte. -/
theorem readByte_bind_eq_some {α : Type} {b : List Byte} {f : BitVec 8 × List Byte → Option α} {a : α}
    (h : (readBits 8 b >>= f) = some a) : ∃ v r, b = v :: r ∧ f (v, r) = some a := by
  obtain ⟨v, r, rfl, hf⟩ := readBits_bind_eq_some h
  exact ⟨v, r, by simp [putBits, leBytes], hf⟩

/-- A natural number has one sequence of groups, however much fuel its writer has. -/
theorem readNat_eq_some {b r : List Byte} {n fuel : Nat} (h : readNat b = some (n, r)) (hf : n < fuel) :
    b = putNatFuel fuel n ++ r := by
  induction b generalizing n fuel with
  | nil => cases h
  | cons x t ih =>
    obtain ⟨fuel, rfl⟩ := Nat.exists_eq_succ_of_ne_zero (Nat.ne_zero_of_lt hf)
    rw [readNat] at h
    split at h
    · next hx =>
      cases h
      simp [putNatFuel, hx]
    · next hx =>
      split at h
      · cases h
      · next v r' hv =>
        split at h
        · cases h
        · cases h
          have hdiv : (x.toNat - 128 + 128 * v) / 128 = v := by omega
          have hmod : 128 + (x.toNat - 128 + 128 * v) % 128 = x.toNat := by omega
          rw [putNatFuel, if_neg (by omega), hdiv, hmod, BitVec.ofNat_toNat, BitVec.setWidth_eq, List.cons_append,
            ← ih hv (by omega)]

theorem readNat_readsOnly : ReadsOnly readNat putNat := fun _ _ _ h => readNat_eq_some h (Nat.lt_succ_self _)

theorem readSeq_readsOnly : ReadsOnly readSeq putSeq := by
  intro b v r h
  unfold readSeq at h
  split at h
  · cases h
  · next n r' hn =>
    obtain ⟨hl, rfl⟩ := takeBytes_eq_some h
    rw [readNat_readsOnly hn, putSeq, hl, List.append_assoc]

theorem readDescriptors_eq_some {n : Nat} {b r : List Byte} {ds : List (List Byte)}
    (h : readDescriptors n b = some (ds, r)) :
    ds.length = n ∧ ds.all descriptorLengthOk = true ∧ b = ds.flatMap putSeq ++ r := by
  induction n generalizing b ds with
  | zero =>
    cases h
    exact ⟨rfl, rfl, rfl⟩
  | succ n ih =>
    rw [readDescriptors] at h
    split at h
    · cases h
    · next d r' hd =>
      split at h
      · next hok =>
        split at h
        · cases h
        · next ds' r'' hds =>
          cases h
          obtain ⟨hl, hall, rfl⟩ := ih hds
          exact ⟨by rw [List.length_cons, hl], by rw [List.all_cons, hok, hall]; rfl, by simp [readSeq_readsOnly hd]⟩
      · cases h

/-! Enumerations. -/

theorem readArch_readsOnly : ReadsOnly readArch putArch := by
  intro b a r h
  obtain ⟨v, r', rfl, hv⟩ := readByte_bind_eq_some h
  dsimp only at hv
  split at hv
  · next h0 =>
    cases hv
    rw [h0]; rfl
  · split at hv
    · next h1 =>
      cases hv
      rw [h1]; rfl
    · cases hv

/-- The alignment is at least 1, and it is written out or is an omitted 1 (30_encoding.md R91). -/
theorem readAlignment_eq_some {b r : List Byte} {n : Nat} (h : readAlignment b = some (n, r)) :
    1 ≤ n ∧ (b = 1 :: (putNat n ++ r) ∨ n = 1 ∧ b = 0 :: r) := by
  obtain ⟨v, r', rfl, hv⟩ := readByte_bind_eq_some h
  dsimp only at hv
  split at hv
  · next h0 =>
    cases hv
    exact ⟨Nat.le_refl 1, .inr ⟨rfl, by rw [h0]⟩⟩
  · split at hv
    · next h1 =>
      obtain ⟨m, r'', rfl, hn⟩ := readNat_readsOnly.bind_eq_some hv
      dsimp only at hn
      split at hn
      · next hle =>
        cases hn
        exact ⟨hle, .inl (by rw [h1])⟩
      · cases hn
    · cases hv

/-- In a list that names nothing twice, a name's place is the one it was found at. -/
theorem ofNat_idxOf_of_getElem? {α : Type} [DecidableEq α] {l : List α} (hl : l.Nodup) {v : Byte} {a : α}
    (h : l[v.toNat]? = some a) : BitVec.ofNat 8 (l.idxOf a) = v := by
  obtain ⟨hv, rfl⟩ := List.getElem?_eq_some_iff.1 h
  rw [hl.idxOf_getElem, BitVec.ofNat_toNat, BitVec.setWidth_eq]

theorem Sreg.nodup_all : Sreg.all.Nodup := by decide

/-- A field's place among the 171 names of R46, counted part by part. -/
def Field.place : Field → Nat
  | .scalar r => Scalar.all.idxOf r
  | .rflags f => 26 + RflagsField.all.idxOf f
  | .cr0 f => 43 + Cr0Field.all.idxOf f
  | .cr4 f => 54 + Cr4Field.all.idxOf f
  | .efer f => 75 + EferField.all.idxOf f
  | .seg r c => 79 + 11 * Sreg.all.idxOf r + SegComp.all.idxOf c
  | .tableBase .gdtr => 167
  | .tableLimit .gdtr => 168
  | .tableBase .idtr => 169
  | .tableLimit .idtr => 170

set_option maxRecDepth 4096 in
theorem Field.map_place_all : Field.all.map Field.place = List.range 171 := by decide

theorem Field.nodup_all : Field.all.Nodup :=
  .of_map Field.place (by rw [Field.map_place_all]; exact List.nodup_range)

theorem readSreg_readsOnly : ReadsOnly readSreg putSreg := by
  intro b a r h
  obtain ⟨v, r', rfl, hv⟩ := readByte_bind_eq_some h
  obtain ⟨s, hs, hsome⟩ := Option.bind_eq_some_iff.1 hv
  cases hsome
  rw [putSreg, ofNat_idxOf_of_getElem? Sreg.nodup_all hs, List.singleton_append]

theorem readField_readsOnly : ReadsOnly readField putField := by
  intro b a r h
  obtain ⟨v, r', rfl, hv⟩ := readByte_bind_eq_some h
  obtain ⟨f, hf, hsome⟩ := Option.bind_eq_some_iff.1 hv
  cases hsome
  rw [putField, ofNat_idxOf_of_getElem? Field.nodup_all hf, List.singleton_append]

/-! Records: each step peels off the next field, in the order of the reader. -/

theorem readSegFields_readsOnly (w : Nat) : ReadsOnly (readSegFields w) putSegFields := by
  intro b v r h
  unfold readSegFields at h
  repeat
    replace h := readBits_bind_eq_some h
    obtain ⟨_, _, rfl, h⟩ := h
  cases h
  simp only [putSegFields, List.append_assoc]

theorem readGateFields_readsOnly (w : Nat) : ReadsOnly (readGateFields w) putGateFields := by
  intro b v r h
  unfold readGateFields at h
  repeat
    replace h := readBits_bind_eq_some h
    obtain ⟨_, _, rfl, h⟩ := h
  cases h
  simp only [putGateFields, List.append_assoc]

theorem readTaskGateFields_readsOnly : ReadsOnly readTaskGateFields putTaskGateFields := by
  intro b v r h
  unfold readTaskGateFields at h
  repeat
    replace h := readBits_bind_eq_some h
    obtain ⟨_, _, rfl, h⟩ := h
  cases h
  simp only [putTaskGateFields, List.append_assoc]

theorem readTss32Fields_readsOnly : ReadsOnly readTss32Fields putTss32Fields := by
  intro b v r h
  unfold readTss32Fields at h
  repeat
    replace h := readBits_bind_eq_some h
    obtain ⟨_, _, rfl, h⟩ := h
  cases h
  simp only [putTss32Fields, List.append_assoc]

theorem readTss64Fields_readsOnly : ReadsOnly readTss64Fields putTss64Fields := by
  intro b v r h
  unfold readTss64Fields at h
  repeat
    replace h := readBits_bind_eq_some h
    obtain ⟨_, _, rfl, h⟩ := h
  cases h
  simp only [putTss64Fields, List.append_assoc]

theorem readPde32Fields_readsOnly : ReadsOnly readPde32Fields putPde32Fields := by
  intro b v r h
  unfold readPde32Fields at h
  repeat
    replace h := readBits_bind_eq_some h
    obtain ⟨_, _, rfl, h⟩ := h
  cases h
  simp only [putPde32Fields, List.append_assoc]

theorem readPml4eFields_readsOnly : ReadsOnly readPml4eFields putPml4eFields := by
  intro b v r h
  unfold readPml4eFields at h
  repeat
    replace h := readBits_bind_eq_some h
    obtain ⟨_, _, rfl, h⟩ := h
  cases h
  simp only [putPml4eFields, List.append_assoc]

theorem readDirEntryFields_readsOnly : ReadsOnly readDirEntryFields putDirEntryFields := by
  intro b v r h
  unfold readDirEntryFields at h
  repeat
    replace h := readBits_bind_eq_some h
    obtain ⟨_, _, rfl, h⟩ := h
  cases h
  simp only [putDirEntryFields, List.append_assoc]

theorem readPte64Fields_readsOnly : ReadsOnly readPte64Fields putPte64Fields := by
  intro b v r h
  unfold readPte64Fields at h
  repeat
    replace h := readBits_bind_eq_some h
    obtain ⟨_, _, rfl, h⟩ := h
  cases h
  simp only [putPte64Fields, List.append_assoc]

/-! Operand records. -/

/-- The bytes `b` are read as the operands of the command `i` of row `o`, with `r` left over: the operands have the types of R72
and are written as the encoder writes them, or are those of an ALLOC that omits its alignment (R91). -/
structure ReadAs (o : Op) (b : List Byte) (i : Instr) (r : List Byte) : Prop where
  op : i.op = o
  wellFormed : i.wellFormed = true
  bytes : b = encodeOperands i ++ r ∨ ∃ size, i = .alloc size 1 ∧ b = putNat size ++ 0 :: r

theorem readRecord_readAs {α : Type} {o : Op} {mk : α → Instr} {read : List Byte → Option (α × List Byte)}
    {put : α → List Byte} {b r : List Byte} {i : Instr} (hr : ReadsOnly read put)
    (hmk : ∀ v, (mk v).op = o ∧ (mk v).wellFormed = true ∧ encodeOperands (mk v) = put v)
    (h : readRecord mk (read b) = some (i, r)) : ReadAs o b i r := by
  unfold readRecord at h
  split at h
  · cases h
  · next v r' hv =>
    cases h
    obtain ⟨hop, hwf, henc⟩ := hmk v
    exact ⟨hop, hwf, .inl (by rw [henc, hr hv])⟩

theorem readFixed_readAs {o : Op} {n : Nat} {mk : List Byte → Instr} {b r : List Byte} {i : Instr}
    (hmk : ∀ x, (mk x).op = o ∧ (mk x).wellFormed = (x.length == n) ∧ encodeOperands (mk x) = x)
    (h : readFixed n mk b = some (i, r)) : ReadAs o b i r := by
  unfold readFixed at h
  split at h
  · cases h
  · next x r' hx =>
    cases h
    obtain ⟨hop, hwf, henc⟩ := hmk x
    obtain ⟨hl, rfl⟩ := takeBytes_eq_some hx
    exact ⟨hop, by rw [hwf, hl, beq_self_eq_true], .inl (by rw [henc])⟩

theorem decodeOperands_eq_some {o : Op} {b r : List Byte} {i : Instr} (h : decodeOperands o b = some (i, r)) :
    ReadAs o b i r := by
  cases o with
  | construct => exact readRecord_readAs readArch_readsOnly (fun _ => ⟨rfl, rfl, rfl⟩) h
  | alloc =>
    obtain ⟨size, r', rfl, h'⟩ := readNat_readsOnly.bind_eq_some h
    obtain ⟨⟨alignment, r''⟩, ha, hsome⟩ := Option.bind_eq_some_iff.1 h'
    cases hsome
    obtain ⟨h1, rfl | ⟨rfl, rfl⟩⟩ := readAlignment_eq_some ha
    · exact ⟨rfl, decide_eq_true h1, .inl (by simp [encodeOperands])⟩
    · exact ⟨rfl, rfl, .inr ⟨size, rfl, rfl⟩⟩
  | mwrite =>
    obtain ⟨addr, r', rfl, h'⟩ := readNat_readsOnly.bind_eq_some h
    obtain ⟨bytes, r'', rfl, hsome⟩ := readSeq_readsOnly.bind_eq_some h'
    cases hsome
    exact ⟨rfl, rfl, .inl (List.append_assoc ..).symm⟩
  | mread =>
    obtain ⟨addr, r', rfl, h'⟩ := readNat_readsOnly.bind_eq_some h
    obtain ⟨size, r'', rfl, hsome⟩ := readNat_readsOnly.bind_eq_some h'
    cases hsome
    exact ⟨rfl, rfl, .inl (List.append_assoc ..).symm⟩
  | rget => exact readRecord_readAs readField_readsOnly (fun _ => ⟨rfl, rfl, rfl⟩) h
  | rset =>
    obtain ⟨field, r', rfl, h'⟩ := readField_readsOnly.bind_eq_some h
    obtain ⟨value, r'', rfl, hif⟩ := readBits_bind_eq_some h'
    dsimp only at hif
    split at hif
    · next hlt =>
      cases hif
      exact ⟨rfl, decide_eq_true hlt, .inl (List.append_assoc ..).symm⟩
    · cases hif
  | loadimg =>
    obtain ⟨⟨regs, r'⟩, hregs, h'⟩ := Option.bind_eq_some_iff.1 h
    obtain ⟨mem, r'', rfl, hsome⟩ := readSeq_readsOnly.bind_eq_some h'
    cases hsome
    obtain ⟨hl, rfl⟩ := takeBytes_eq_some hregs
    refine ⟨rfl, decide_eq_true (by simp [hl]), .inl ?_⟩
    rw [encodeOperands, List.take_left' hl, List.drop_left' hl, List.append_assoc]
  | loadSeg =>
    obtain ⟨sreg, r', rfl, h'⟩ := readSreg_readsOnly.bind_eq_some h
    obtain ⟨selector, r'', rfl, hsome⟩ := readBits_bind_eq_some h'
    cases hsome
    exact ⟨rfl, rfl, .inl (List.append_assoc ..).symm⟩
  | setupIdt =>
    obtain ⟨n, r', rfl, h'⟩ := readNat_readsOnly.bind_eq_some h
    obtain ⟨⟨ds, r''⟩, hds, hsome⟩ := Option.bind_eq_some_iff.1 h'
    cases hsome
    obtain ⟨rfl, hall, rfl⟩ := readDescriptors_eq_some hds
    exact ⟨rfl, hall, .inl (List.append_assoc ..).symm⟩
  | raw | setupReal | setupGdt | setupPaging =>
    cases h
    exact ⟨rfl, rfl, .inl rfl⟩
  | descAddr | walk32 | walk64 => exact readRecord_readAs (readBits_readsOnly _) (fun _ => ⟨rfl, rfl, rfl⟩) h
  | encSeg | encSeg64 => exact readRecord_readAs (readSegFields_readsOnly _) (fun _ => ⟨rfl, rfl, rfl⟩) h
  | encGate | encGate64 => exact readRecord_readAs (readGateFields_readsOnly _) (fun _ => ⟨rfl, rfl, rfl⟩) h
  | encTaskGate => exact readRecord_readAs readTaskGateFields_readsOnly (fun _ => ⟨rfl, rfl, rfl⟩) h
  | encTss32 => exact readRecord_readAs readTss32Fields_readsOnly (fun _ => ⟨rfl, rfl, rfl⟩) h
  | encTss64 => exact readRecord_readAs readTss64Fields_readsOnly (fun _ => ⟨rfl, rfl, rfl⟩) h
  | encPde32 => exact readRecord_readAs readPde32Fields_readsOnly (fun _ => ⟨rfl, rfl, rfl⟩) h
  | encPml4e => exact readRecord_readAs readPml4eFields_readsOnly (fun _ => ⟨rfl, rfl, rfl⟩) h
  | encPdpte | encPde64 => exact readRecord_readAs readDirEntryFields_readsOnly (fun _ => ⟨rfl, rfl, rfl⟩) h
  | encPte64 => exact readRecord_readAs readPte64Fields_readsOnly (fun _ => ⟨rfl, rfl, rfl⟩) h
  | decSeg | decSeg64 | decGate | decGate64 | decTaskGate | decTss32 | decTss64 | decPde32 | decPml4e | decPdpte
  | decPde64 | decPte64 => exact readFixed_readAs (fun _ => ⟨rfl, rfl, rfl⟩) h

/-- What the decoder accepts is an operation code and operands read as those of its row. -/
theorem decode_eq_some {b r : List Byte} {i : Instr} (h : decode b = some (i, r)) :
    ∃ t, b = i.op.code :: t ∧ ReadAs i.op t i r := by
  cases b with
  | nil => cases h
  | cons x t =>
    rw [decode] at h
    split at h
    · cases h
    · next o ho =>
      have hread := decodeOperands_eq_some h
      obtain rfl := hread.op
      exact ⟨t, by rw [Op.code_of_ofCode ho], hread⟩

theorem Op.ofCode_eq_none {b : Byte} (h : ∀ o : Op, o.code ≠ b) : Op.ofCode b = none :=
  Option.eq_none_iff_forall_ne_some.2 fun o ho => h o (Op.code_of_ofCode ho)

theorem Op.code_injective : Function.Injective Op.code := by
  intro o o' h
  rw [← Option.some_inj, ← Op.ofCode_code o, ← Op.ofCode_code o', h]

theorem decodeFrame_unassigned {b : Byte} (h : ∀ o : Op, o.code ≠ b) (operands : List Byte) :
    decodeFrame (b :: operands) = none := by
  simp [decodeFrame, decode, Op.ofCode_eq_none h]

end Sys2Proof
end

section
/-! PROOFS. The byte form of the commands and the refusal of what is not a command (30_encoding.md R70 to R74). -/

namespace Sys2Proof.Machine

/-- A command begins with the check of R74 (b) on its operands; one with nothing to check passes it. -/
theorem exec_eq_typed (i : Instr) (s : State) : ∃ k, exec i s = typed i.wellFormed s k := by
  cases i <;> exact ⟨_, rfl⟩

theorem exec_of_not_wellFormed {i : Instr} (h : i.wellFormed = false) (s : State) :
    exec i s = .next (s.respond .illegalCommand .nothing) := by
  obtain ⟨k, hk⟩ := exec_eq_typed i s
  rw [hk, h, typed_false]

/-- Settles O1, by the round trip of each command. -/
theorem decodeOfEncodeIsTheCommand : Obligations.DecodeOfEncodeIsTheCommand :=
  fun i h => ⟨decodeFrame_encode h, fun rest => decode_encode i rest h⟩

/-- Settles O2: the decoder's readers check the types. -/
theorem decodedCommandIsWellTyped : Obligations.DecodedCommandIsWellTyped := by
  intro b r i h
  obtain ⟨t, rfl, hread⟩ := decode_eq_some h
  exact ⟨hread.wellFormed, rfl⟩

/-- Settles O3: every operand but ALLOC's alignment has one image. -/
theorem decodedBytesAreTheEncoding : Obligations.DecodedBytesAreTheEncoding := by
  intro b r i h
  obtain ⟨t, rfl, hread⟩ := decode_eq_some h
  rcases hread.bytes with rfl | ⟨size, rfl, rfl⟩
  · exact .inl rfl
  · exact .inr ⟨size, rfl, rfl⟩

/-- Settles O7: the check of the operands precedes that of the latch. -/
theorem illTypedOperandsAreIllegal : Obligations.IllTypedOperandsAreIllegal :=
  fun _ s h => exec_of_not_wellFormed h s

/-- Settles O4: a code selects its own row, so no two rows share one. -/
theorem operationCodesAreTheTable : Obligations.OperationCodesAreTheTable :=
  ⟨by decide, fun _ _ h => Op.code_injective h, fun _ h => Op.ofCode_eq_none h⟩

/-- Settles O5, by running the decoder. -/
theorem sampleFramesDecode : Obligations.SampleFramesDecode := by
  unfold Obligations.SampleFramesDecode
  decide

/-- Settles O6: the frame decodes to no command. -/
theorem unassignedOperationIsIllegal : Obligations.UnassignedOperationIsIllegal :=
  fun _ _ operands _ h hp => step_of_decodeFrame_none hp (decodeFrame_unassigned h operands)

end Sys2Proof.Machine
end

section
/-! PROOFS. The commands that write no state: an encoder or decoder answers a fixed result, and a reading command is a state
command whose body leaves the state as it finds it (42_descriptor_encoders.md R130, 43_pte_encoders_and_walk.md R180). -/

namespace Sys2Proof

/-- The state commands that only read (R112, R121, R124, R176, R181, R183). -/
def Op.reading : List Op := [.mread, .rget, .raw, .descAddr, .walk32, .walk64]

namespace Machine

/-- A well-typed pure command completes with a result that is the same in every state. -/
theorem exec_of_isPure {i : Instr} (hi : i.op.isPure = true) :
    ∃ r, ∀ s, exec i s = typed i.wellFormed s (complete r s) := by
  cases i with
  | construct _ | loadimg _ | alloc _ _ | mwrite _ _ | mread _ _ | rget _ | rset _ _ | raw | loadSeg _ _ | setupReal
  | setupGdt | setupIdt _ | setupPaging | descAddr _ | walk32 _ | walk64 _ => cases hi
  | encSeg _ | encSeg64 _ | encGate _ | encGate64 _ | encTaskGate _ | encTss32 _ | encTss64 _ | encPde32 _ | encPml4e _
  | encPdpte _ | encPde64 _ | encPte64 _
  | decSeg _ | decSeg64 _ | decGate _ | decGate64 _ | decTaskGate _ | decTss32 _ | decTss64 _ | decPde32 _ | decPml4e _
  | decPdpte _ | decPde64 _ | decPte64 _ => exact ⟨_, fun _ => rfl⟩

/-- A pure command does nothing but answer. -/
theorem exec_isPure_next {i : Instr} {s t : State} (hi : i.op.isPure = true) (h : exec i s = .next t) :
    ∃ st r, t = s.respond st r := by
  obtain ⟨r, hr⟩ := exec_of_isPure hi
  rw [hr s] at h
  rcases typed_next h with ⟨_, hc⟩ | ⟨_, rfl⟩
  · cases hc
    exact ⟨_, _, rfl⟩
  · exact ⟨_, _, rfl⟩

/-- A reading command is a state command whose body reaches the state it started from. -/
theorem exec_of_reading {i : Instr} (hi : i.op ∈ Op.reading) (s : State) :
    ∃ body, exec i s = stateCommand s body ∧ (body s).state = s := by
  cases i with
  | rget field =>
    rw [exec, execRget]
    exact ⟨_, rfl, Attempt.state_done _ _⟩
  | raw =>
    rw [exec, execRaw]
    exact ⟨_, rfl, Attempt.state_done _ _⟩
  | descAddr selector =>
    rw [exec, execDescAddr]
    exact ⟨_, rfl, Attempt.state_done _ _⟩
  | mread addr size =>
    rw [exec, execMread]
    exact ⟨_, rfl, (Attempt.andThen_state _ _ fun _ _ => rfl).trans (memRead_state addr size s)⟩
  | walk32 va =>
    rw [exec, execWalk32]
    exact ⟨_, rfl, (Attempt.andThen_state _ _ fun _ _ => rfl).trans (walk32_state va s)⟩
  | walk64 va =>
    rw [exec, execWalk64]
    exact ⟨_, rfl, (Attempt.andThen_state _ _ fun _ _ => rfl).trans (walk64_state va s)⟩
  | _ => simp [Op.reading, Instr.op] at hi

/-- A state command whose body reaches the state it started from answers, or takes a failure of that state. -/
theorem stateCommand_next_of_state_eq {s t : State} {body : State → Attempt Result} (hb : (body s).state = s)
    (h : stateCommand s body = .next t) : (∃ st r, t = s.respond st r) ∨ ∃ k, t = s.takeFailure k := by
  rcases stateCommand_next h with ⟨_, r, u, hu, rfl⟩ | ⟨_, k, u, hu, rfl⟩ | ⟨_, rfl⟩
  · rw [hu, Attempt.state_done] at hb
    exact .inl ⟨_, r, by rw [hb]⟩
  · rw [hu, Attempt.state_failed] at hb
    exact .inr ⟨k, by rw [hb]⟩
  · exact .inl ⟨_, _, rfl⟩

/-- Settles O54: such a command answers, or takes a failure, in the state it found. -/
theorem readingCommandsChangeNothing : Obligations.ReadingCommandsChangeNothing := by
  intro s t i hi h
  have hnext : (∃ st r, t = s.respond st r) ∨ ∃ k, t = s.takeFailure k := by
    rcases hi with hp | hr
    · exact .inl (exec_isPure_next hp h)
    · obtain ⟨body, he, hb⟩ := exec_of_reading hr s
      exact stateCommand_next_of_state_eq hb (he ▸ h)
  constructor
  · rcases hnext with ⟨st, r, rfl⟩ | ⟨k, rfl⟩ <;> rfl
  · intro hp
    obtain ⟨st, r, rfl⟩ := exec_isPure_next hp h
    exact s.respond_fault st r

end Machine

end Sys2Proof
end

section
/-! PROOFS. The Register File and the serializer (10_state.md R31, R46; 41_regfile_serializer_ops.md R121 to R126). A register's
or a field's place in the image is read off the parser, which gives the registers back from their image
(`Regs.parse_image`). -/

namespace Sys2Proof

/-- The value of `r[lo+w-1 : lo]`. -/
theorem getBitsAt_toNat (r : BitVec 64) (lo : Nat) {w : Nat} (hw : w ≤ 64) :
    (getBitsAt r lo w).toNat = r.toNat / 2 ^ lo % 2 ^ w := by
  have hm : (bitMask 0 w).toNat = 2 ^ w - 1 := by
    have hle : 2 ^ w ≤ 2 ^ 64 := Nat.pow_le_pow_right (by omega) hw
    rw [bitMask, BitVec.shiftLeft_zero, BitVec.toNat_ofNat, Nat.mod_eq_of_lt (by omega)]
  rw [getBitsAt, BitVec.toNat_and, hm, Nat.and_two_pow_sub_one_eq_mod, BitVec.toNat_ushiftRight,
    Nat.shiftRight_eq_div_pow]

namespace Machine

/-! The commands. -/

section Commands
variable {s : State} (h : s.accepting = true)
include h

theorem exec_raw_of_accepting : exec .raw s = .next (s.respond .ok (.bytes s.image)) := by
  rw [exec, execRaw, stateCommand_accepting h, finish_done]

theorem exec_rget_of_accepting (f : Field) : exec (.rget f) s = .next (s.respond .ok (.value (s.regs.fieldGet f))) := by
  rw [exec, execRget, stateCommand_accepting h, finish_done]

theorem exec_rset_of_lt {f : Field} {v : BitVec 64} (hv : v.toNat < 2 ^ f.width) :
    exec (.rset f v) s = .next ((s.setRegs (s.regs.fieldSet f v)).respond .ok .nothing) := by
  rw [exec, execRset, decide_eq_true hv, typed_true, stateCommand_accepting h, finish_done]

/-- Starting over from the state's own registers and arena changes nothing. -/
theorem State.startOver_self_of_accepting : s.startOver s.regs s.mem = s := by
  obtain ⟨hc, hf⟩ := (accepting_iff s).1 h
  cases s
  cases hc
  cases hf
  rfl

end Commands

theorem exec_loadimg_of_le {image : List Byte} (hl : 400 ≤ image.length) (s : State) :
    exec (.loadimg image) s =
      .next ((s.startOver (Regs.parse (slice image 0 400)) (Memory.ofBytes (image.drop 400))).respond .ok .nothing) := by
  rw [exec, execLoadimg, regFileSize, decide_eq_true hl, typed_true, complete]

theorem exec_loadimg_of_lt {image : List Byte} (hl : image.length < 400) (s : State) :
    exec (.loadimg image) s = .next (s.respond .illegalCommand .nothing) :=
  exec_of_not_wellFormed (i := .loadimg image) (decide_eq_false (Nat.not_le.2 hl)) s

theorem State.accepting_startOver_respond (s : State) (r : Regs) (m : Memory) (st : Status) (x : Result) :
    ((s.startOver r m).respond st x).accepting = true := rfl

/-! The arena in the image. -/

/-- The arena's bytes are its single bytes, and none past its length. -/
theorem Memory.getElem?_toBytes {m : Memory} (h : m.wf) (x : Nat) : m.toBytes[x]? = m.readByte x := by
  rw [Memory.toBytes, Memory.read_eq_map h, List.getElem?_map, Memory.readByte]
  by_cases hx : x < m.len
  · rw [List.getElem?_range hx, if_pos hx, Option.map_some, Nat.zero_add]
  · rw [List.getElem?_eq_none (by simpa using hx), if_neg hx, Option.map_none]

theorem Memory.readByte_ofBytes (b : List Byte) (x : Nat) : (Memory.ofBytes b).readByte x = b[x]? := by
  rw [← Memory.getElem?_toBytes (Memory.wf_ofBytes b), Memory.toBytes_ofBytes]

@[simp] theorem Memory.toBytes_length (m : Memory) : m.toBytes.length = m.len := m.read_length 0 m.len

@[simp] theorem State.image_length (s : State) : s.image.length = 400 + s.mem.len := by simp [State.image]

theorem State.slice_image_regs (s : State) : slice s.image 0 400 = s.regs.image := by
  rw [State.image, slice_append_left (by simp), slice_self s.regs.image_length]

theorem State.drop_image (s : State) : s.image.drop 400 = s.mem.toBytes := List.drop_left' s.regs.image_length

/-- A slice of the image that lies in the Register File. -/
theorem State.slice_image {s : State} {i n : Nat} (hi : i + n ≤ 400) : slice s.image i n = slice s.regs.image i n :=
  slice_append_left (by rw [Regs.image_length]; exact hi)

/-! The registers in the image (R31). -/

theorem scalarOffset_inside (n : Scalar) : scalarOffset n + 8 ≤ 400 := by cases n <;> decide
theorem sregOffset_inside (n : Sreg) : sregOffset n + 16 ≤ 400 := by cases n <;> decide
theorem tableOffset_inside (t : TableReg) : tableOffset t + 16 ≤ 400 := by cases t <;> decide

theorem Regs.getScalar_parse (b : List Byte) (n : Scalar) : (Regs.parse b).getScalar n = leAt 64 b (scalarOffset n) 8 := by
  cases n <;> rfl

theorem Regs.getSeg_parse (b : List Byte) (n : Sreg) : (Regs.parse b).getSeg n = SegCache.parse b (sregOffset n) := by
  cases n <;> rfl

theorem Regs.getTable_parse (b : List Byte) (t : TableReg) :
    (Regs.parse b).getTable t = TablePtr.parse b (tableOffset t) := by
  cases t <;> rfl

theorem Regs.rflags_parse (b : List Byte) : (Regs.parse b).rflags = leAt 64 b 0x088 8 := rfl
theorem Regs.cr0_parse (b : List Byte) : (Regs.parse b).cr0 = leAt 64 b 0x130 8 := rfl
theorem Regs.cr4_parse (b : List Byte) : (Regs.parse b).cr4 = leAt 64 b 0x148 8 := rfl
theorem Regs.efer_parse (b : List Byte) : (Regs.parse b).efer = leAt 64 b 0x188 8 := rfl

/-- A 64-bit register lies in the image where the parser reads it. -/
theorem State.slice_image_of_parse {s : State} {i : Nat} (hi : i + 8 ≤ 400) {v : BitVec 64}
    (hv : leAt 64 s.regs.image i 8 = v) : slice s.image i 8 = leBytes 8 v.toNat := by
  rw [State.slice_image hi, ← leBits_leAt64 (by rw [Regs.image_length]; exact hi), hv, leBits]

theorem State.slice_image_scalar (s : State) (n : Scalar) :
    slice s.image (scalarOffset n) 8 = leBytes 8 (s.regs.getScalar n).toNat :=
  State.slice_image_of_parse (scalarOffset_inside n) (by rw [← Regs.getScalar_parse, Regs.parse_image])

theorem State.slice_image_rflags (s : State) : slice s.image 0x088 8 = leBytes 8 s.regs.rflags.toNat :=
  State.slice_image_of_parse (by decide) (by rw [← Regs.rflags_parse, Regs.parse_image])

theorem State.slice_image_cr0 (s : State) : slice s.image 0x130 8 = leBytes 8 s.regs.cr0.toNat :=
  State.slice_image_of_parse (by decide) (by rw [← Regs.cr0_parse, Regs.parse_image])

theorem State.slice_image_cr4 (s : State) : slice s.image 0x148 8 = leBytes 8 s.regs.cr4.toNat :=
  State.slice_image_of_parse (by decide) (by rw [← Regs.cr4_parse, Regs.parse_image])

theorem State.slice_image_efer (s : State) : slice s.image 0x188 8 = leBytes 8 s.regs.efer.toNat :=
  State.slice_image_of_parse (by decide) (by rw [← Regs.efer_parse, Regs.parse_image])

theorem State.slice_image_seg (s : State) (n : Sreg) : slice s.image (sregOffset n) 16 = (s.regs.getSeg n).image := by
  have hi := sregOffset_inside n
  rw [State.slice_image hi, ← SegCache.image_parse (by rw [Regs.image_length]; exact hi), ← Regs.getSeg_parse,
    Regs.parse_image]

theorem State.slice_image_table (s : State) (t : TableReg) :
    slice s.image (tableOffset t) 16 = (s.regs.getTable t).image := by
  have hi := tableOffset_inside t
  rw [State.slice_image hi, ← TablePtr.image_parse (by rw [Regs.image_length]; exact hi), ← Regs.getTable_parse,
    Regs.parse_image]

/-- The word `attr` as a number, field by field (R25). -/
theorem SegCache.attr_toNat (c : SegCache) :
    c.attr.toNat = c.type.toNat + c.s.toNat * 2 ^ 4 + c.dpl.toNat * 2 ^ 5 + c.p.toNat * 2 ^ 7 + c.rsvd.toNat * 2 ^ 8 +
      c.avl.toNat * 2 ^ 12 + c.l.toNat * 2 ^ 13 + c.db.toNat * 2 ^ 14 + c.g.toNat * 2 ^ 15 := by
  simp only [SegCache.attr, toNat_append_add]
  omega

/-! The fields in the image (R46). -/

/-- The number a place of the image holds. -/
def FieldPlace.read (p : FieldPlace) (b : List Byte) : Nat :=
  fromLE (slice b p.offset p.bytes) / 2 ^ p.lo % 2 ^ p.width

/-- A place of whole bytes holds the number read from them. -/
theorem FieldPlace.read_whole {b : List Byte} {i n w : Nat} (hw : w = 8 * n) (hi : i + n ≤ b.length) :
    (FieldPlace.mk i n 0 w).read b = (leAt w b i n).toNat := by
  rw [FieldPlace.read, Nat.pow_zero, Nat.div_one, ← toNat_leAt hw hi, Nat.mod_eq_of_lt (BitVec.isLt _)]

/-- A place inside a 64-bit register holds the register's bits. -/
theorem FieldPlace.read_bits {b : List Byte} {i lo w : Nat} (hw : w ≤ 64) (hi : i + 8 ≤ b.length) :
    (FieldPlace.mk i 8 lo w).read b = (getBitsAt (leAt 64 b i 8) lo w).toNat := by
  rw [FieldPlace.read, getBitsAt_toNat _ _ hw, toNat_leAt rfl hi]

/-- A place inside the 16-bit word `attr` holds bits of the word (R25). -/
theorem FieldPlace.read_attr {b : List Byte} {i : Nat} (hi : i + 2 ≤ b.length) (high low : Nat) (hw : high - low < 64) :
    (FieldPlace.mk i 2 low (high - low + 1)).read b = (((leAt 16 b i 2).extractLsb high low).setWidth 64).toNat := by
  rw [FieldPlace.read, BitVec.toNat_setWidth_of_le hw, toNat_extractLsb, toNat_leAt rfl hi]

/-- The parser gives each component of a segment cache record the number at its place (R25). -/
theorem SegCache.get_parse {b : List Byte} {i : Nat} (hi : i + 16 ≤ b.length) (c : SegComp) :
    ((SegCache.parse b i).get c).toNat = (compPlace i c).read b := by
  have hattr : i + 14 + 2 ≤ b.length := by omega
  cases c with
  | base => exact (FieldPlace.read_whole rfl (by omega)).symm
  | limit => exact (BitVec.toNat_setWidth_of_le (by decide)).trans (FieldPlace.read_whole rfl (by omega)).symm
  | selector => exact (BitVec.toNat_setWidth_of_le (by decide)).trans (FieldPlace.read_whole rfl (by omega)).symm
  | type => exact (FieldPlace.read_attr hattr 3 0 (by decide)).symm
  | s => exact (FieldPlace.read_attr hattr 4 4 (by decide)).symm
  | dpl => exact (FieldPlace.read_attr hattr 6 5 (by decide)).symm
  | p => exact (FieldPlace.read_attr hattr 7 7 (by decide)).symm
  | avl => exact (FieldPlace.read_attr hattr 12 12 (by decide)).symm
  | l => exact (FieldPlace.read_attr hattr 13 13 (by decide)).symm
  | db => exact (FieldPlace.read_attr hattr 14 14 (by decide)).symm
  | g => exact (FieldPlace.read_attr hattr 15 15 (by decide)).symm

theorem rflagsPlace_eq (f : RflagsField) : rflagsPlace f = (f.lo, f.width) := by cases f <;> rfl
theorem cr0Place_eq (f : Cr0Field) : cr0Place f = f.lo := by cases f <;> rfl
theorem cr4Place_eq (f : Cr4Field) : cr4Place f = f.lo := by cases f <;> rfl
theorem eferPlace_eq (f : EferField) : eferPlace f = f.lo := by cases f <;> rfl

/-- The width of a field's place is the width of RSET's operand. -/
theorem fieldPlace_width (f : Field) : (fieldPlace f).width = f.width := by
  cases f with
  | rflags f => exact congrArg Prod.snd (rflagsPlace_eq f)
  | seg n c => cases c <;> rfl
  | _ => rfl

/-- The parser gives each field the number at its place. -/
theorem Regs.fieldGet_parse {b : List Byte} (hb : b.length = 400) (f : Field) :
    ((Regs.parse b).fieldGet f).toNat = (fieldPlace f).read b := by
  cases f with
  | scalar n =>
    have hi := scalarOffset_inside n
    rw [Regs.fieldGet, Regs.getScalar_parse, fieldPlace, FieldPlace.read_whole rfl (by omega)]
  | rflags f =>
    have hw := f.inside
    rw [Regs.fieldGet, Regs.rflags_parse, fieldPlace, rflagsPlace_eq, FieldPlace.read_bits (by omega) (by omega)]
  | cr0 f =>
    rw [Regs.fieldGet, Regs.cr0_parse, fieldPlace, cr0Place_eq, FieldPlace.read_bits (by omega) (by omega)]
  | cr4 f =>
    rw [Regs.fieldGet, Regs.cr4_parse, fieldPlace, cr4Place_eq, FieldPlace.read_bits (by omega) (by omega)]
  | efer f =>
    rw [Regs.fieldGet, Regs.efer_parse, fieldPlace, eferPlace_eq, FieldPlace.read_bits (by omega) (by omega)]
  | seg n c =>
    have hi := sregOffset_inside n
    rw [Regs.fieldGet, Regs.getSeg_parse, SegCache.get_parse (by omega), fieldPlace]
  | tableBase t =>
    have hi := tableOffset_inside t
    rw [Regs.fieldGet, Regs.getTable_parse, fieldPlace, FieldPlace.read_whole rfl (by omega), TablePtr.parse]
  | tableLimit t =>
    have hi := tableOffset_inside t
    rw [Regs.fieldGet, Regs.getTable_parse, fieldPlace, FieldPlace.read_whole rfl (by omega),
      BitVec.toNat_setWidth_of_le (by decide), TablePtr.parse]

theorem compPlace_inside (o : Nat) (c : SegComp) : (compPlace o c).offset + (compPlace o c).bytes ≤ o + 16 := by
  cases c <;> simp [compPlace]

theorem fieldPlace_inside (f : Field) : (fieldPlace f).offset + (fieldPlace f).bytes ≤ 400 := by
  cases f with
  | scalar n => exact scalarOffset_inside n
  | seg n c => exact (compPlace_inside _ c).trans (sregOffset_inside n)
  | tableBase t => cases t <;> decide
  | tableLimit t => cases t <;> decide
  | rflags _ | cr0 _ | cr4 _ | efer _ => simp [fieldPlace]

/-- The image RAW answers holds each field at its place. -/
theorem State.fieldGet_eq_read_image (s : State) (f : Field) : (s.regs.fieldGet f).toNat = (fieldPlace f).read s.image := by
  have hp := Regs.fieldGet_parse s.regs.image_length f
  rwa [Regs.parse_image, FieldPlace.read, ← State.slice_image (fieldPlace_inside f)] at hp

/-! The obligations. -/

/-- Settles O33: the parser inverts the image of the registers, and so does the arena built from its bytes. -/
theorem imageRoundTripIsLossless : Obligations.ImageRoundTripIsLossless := by
  refine ⟨fun s ha hw => ⟨s.image, exec_raw_of_accepting ha, ?_⟩, fun s b hb => ⟨_, exec_loadimg_of_le hb s, ?_⟩⟩
  · rw [exec_loadimg_of_le (by simp), State.slice_image_regs, State.drop_image, Regs.parse_image,
      Memory.ofBytes_toBytes hw, State.startOver_self_of_accepting ha]
  · have himage : (Regs.parse (slice b 0 400)).image ++ (Memory.ofBytes (b.drop 400)).toBytes = b := by
      rw [Regs.image_parse (by simpa using hb), Memory.toBytes_ofBytes, slice, List.drop_zero, List.take_append_drop]
    rw [exec_raw_of_accepting (State.accepting_startOver_respond ..), State.image, State.respond_regs, State.respond_mem,
      State.startOver_regs, State.startOver_mem, himage]

/-- Settles O29: the parser reads each field from its place, and reads the image back to the registers. -/
theorem rgetAnswersTheFieldOfTheImage : Obligations.RgetAnswersTheFieldOfTheImage :=
  ⟨rfl, fun s f ha =>
    ⟨s.image, s.regs.fieldGet f, exec_raw_of_accepting ha, exec_rget_of_accepting ha f, s.fieldGet_eq_read_image f⟩⟩

/-- Settles O30: `Regs.fieldSet` writes the named field, no two fields overlap, and none holds a fixed bit. -/
theorem rsetWritesExactlyOneField : Obligations.RsetWritesExactlyOneField := by
  refine ⟨rfl, fun s f v ha hv => ?_⟩
  rw [fieldPlace_width] at hv
  exact ⟨s.regs.fieldSet f v, exec_rset_of_lt ha hv, Regs.fieldGet_fieldSet _ f v hv,
    fun g hg => Regs.fieldGet_fieldSet_other _ v hg, Regs.fixedBits_fieldSet _ f v⟩

/-- Settles O31, register by register. -/
theorem rawImageHasTheWireLayout : Obligations.RawImageHasTheWireLayout := by
  refine ⟨rfl, fun s ha hw => ⟨s.image, exec_raw_of_accepting ha, s.image_length, fun x _ => ?_, s.slice_image_scalar,
    s.slice_image_rflags, s.slice_image_cr0, s.slice_image_cr4, s.slice_image_efer, fun n => ?_, s.slice_image_table⟩⟩
  · rw [← List.getElem?_drop, State.drop_image, Memory.getElem?_toBytes hw]
  · rw [State.slice_image_seg, ← SegCache.attr_toNat]
    rfl

/-- Settles O32: the registers parsed from 400 bytes have them as their image; a shorter image is ill-typed. -/
theorem loadimgReplacesTheState : Obligations.LoadimgReplacesTheState := by
  refine ⟨rfl, fun s image => ⟨fun hl => ?_, fun hl => exec_loadimg_of_lt hl s⟩⟩
  refine ⟨Regs.parse (slice image 0 400), Memory.ofBytes (image.drop 400), exec_loadimg_of_le hl s, ?_, ?_,
    Memory.wf_ofBytes _, fun x _ => ?_⟩
  · rw [Regs.image_parse (by simpa using hl), slice, List.drop_zero]
  · rw [Memory.ofBytes_len, List.length_drop]
  · rw [Memory.readByte_ofBytes, List.getElem?_drop]

end Machine

end Sys2Proof
end

section
/-! PROOFS. What the descriptor formats rest on: the number of a part of a byte sequence, byte sequences cut into adjacent
parts, and the halves of a 64-bit value. -/

namespace Sys2Proof

/-! Numbers of byte sequences. -/

theorem fromLE_cons_div (x : Byte) (t : List Byte) : fromLE (x :: t) / 256 = fromLE t := by
  have hx := x.isLt
  rw [fromLE]
  omega

theorem fromLE_cons_mod (x : Byte) (t : List Byte) : fromLE (x :: t) % 256 = x.toNat := by
  have hx := x.isLt
  rw [fromLE]
  omega

theorem fromLE_drop (b : List Byte) (i : Nat) : fromLE (b.drop i) = fromLE b / 256 ^ i := by
  induction i generalizing b with
  | zero => simp
  | succ i ih =>
    cases b with
    | nil => simp [fromLE]
    | cons x t => rw [List.drop_succ_cons, ih, Nat.pow_succ', ← Nat.div_div_eq_div_mul, fromLE_cons_div]

theorem fromLE_take (b : List Byte) (n : Nat) : fromLE (b.take n) = fromLE b % 256 ^ n := by
  induction n generalizing b with
  | zero => simp [fromLE, Nat.mod_one]
  | succ n ih =>
    cases b with
    | nil => simp [fromLE]
    | cons x t => rw [List.take_succ_cons, fromLE, ih, Nat.pow_succ', Nat.mod_mul, fromLE_cons_div, fromLE_cons_mod]

theorem fromLE_slice (b : List Byte) (i n : Nat) : fromLE (slice b i n) = fromLE b / 256 ^ i % 256 ^ n := by
  rw [slice, fromLE_take, fromLE_drop]

/-- Byte sequences of one length are told apart by their numbers. -/
theorem fromLE_inj {a b : List Byte} (h : a.length = b.length) : fromLE a = fromLE b ↔ a = b :=
  ⟨fun e => by rw [← leBytes_fromLE a, h, e, leBytes_fromLE], congrArg fromLE⟩

theorem leBits_setWidth {w w' : Nat} (h : w ≤ w') (n : Nat) (v : BitVec w) : leBits n (v.setWidth w') = leBits n v := by
  rw [leBits, BitVec.toNat_setWidth_of_le h, leBits]

theorem leBytes_zero (n : Nat) : leBytes n 0 = zeroBytes n := by
  induction n with
  | zero => rfl
  | succ n ih => rw [leBytes, Nat.zero_div, ih]; rfl

/-- A byte sequence is a value's image exactly when its number is the value. -/
theorem eq_leBits_iff {w n : Nat} {c : List Byte} (hw : w ≤ 8 * n) (hc : c.length = n) (v : BitVec w) :
    c = leBits n v ↔ fromLE c = v.toNat := by
  have hv : v.toNat < 256 ^ n :=
    calc v.toNat < 2 ^ w := v.isLt
      _ ≤ 2 ^ (8 * n) := Nat.pow_le_pow_right (by omega) hw
      _ = 256 ^ n := Nat.pow_mul 2 8 n
  rw [← fromLE_inj (by rw [hc, leBits_length]), leBits, fromLE_leBytes, Nat.mod_eq_of_lt hv]

theorem eq_zeroBytes_iff {n : Nat} {c : List Byte} (hc : c.length = n) : c = zeroBytes n ↔ fromLE c = 0 := by
  rw [← leBytes_zero]
  exact eq_leBits_iff (w := 0) (Nat.zero_le _) hc 0

/-- A field holds a value exactly when its bytes are the value's image. -/
theorem leAt_eq_iff {w n i : Nat} {b : List Byte} (hw : w = 8 * n) (h : i + n ≤ b.length) (v : BitVec w) :
    leAt w b i n = v ↔ slice b i n = leBits n v := by
  rw [eq_leBits_iff hw.le (by rw [slice_length]; omega), ← toNat_leAt hw h, BitVec.toNat_inj]

/-- The image of a field's value is the bytes it was read from. -/
theorem leBytes_toNat_leAt {w n i : Nat} {b : List Byte} (hw : w = 8 * n) (h : i + n ≤ b.length) :
    leBytes n (leAt w b i n).toNat = slice b i n := leBits_leAt hw h

/-- A range of zero bytes, by its number. -/
theorem slice_eq_zeroBytes_iff {n i : Nat} {b : List Byte} (h : i + n ≤ b.length) :
    slice b i n = zeroBytes n ↔ fromLE (slice b i n) = 0 :=
  eq_zeroBytes_iff (by rw [slice_length]; omega)

/-- A sequence from index `i` on is one part and the rest exactly when both stand there. -/
theorem append_eq_drop_iff (x t b : List Byte) (i : Nat) :
    x ++ t = b.drop i ↔ slice b i x.length = x ∧ t = b.drop (i + x.length) := by
  rw [← List.drop_drop, slice]
  constructor
  · intro h
    simp [← h]
  · rintro ⟨hx, rfl⟩
    exact (congrArg (· ++ _) hx.symm).trans (List.take_append_drop ..)

/-- The rest of a sequence is its last slice. -/
theorem drop_eq_slice {b : List Byte} {i n : Nat} (h : b.length = i + n) : b.drop i = slice b i n :=
  (List.take_of_length_le (by rw [List.length_drop]; omega)).symm

/-! The halves of a 64-bit value. -/

theorem append_eq_iff_halves (x y : BitVec 32) (v : BitVec 64) :
    x ++ y = v ↔ x = v.extractLsb 63 32 ∧ y = v.extractLsb 31 0 := by
  have hx := x.isLt
  have hy := y.isLt
  have hv := v.isLt
  simp only [← BitVec.toNat_inj, toNat_append_add, toNat_extractLsb]
  omega

theorem extractLsb_low (v : BitVec 64) : v.extractLsb 31 0 = BitVec.ofNat 32 v.toNat := by
  apply BitVec.eq_of_toNat_eq
  rw [toNat_extractLsb, BitVec.toNat_ofNat, Nat.pow_zero, Nat.div_one]

theorem toNat_extractLsb_high (v : BitVec 64) : (v.extractLsb 63 32).toNat = v.toNat / 2 ^ 32 := by
  have hv := v.isLt
  rw [toNat_extractLsb]
  omega

theorem append_eq_ofNat (x y : BitVec 32) : x ++ y = BitVec.ofNat 64 (y.toNat + 2 ^ 32 * x.toNat) := by
  have hx := x.isLt
  have hy := y.isLt
  apply BitVec.eq_of_toNat_eq
  rw [toNat_append_add, BitVec.toNat_ofNat]
  omega

end Sys2Proof
end

section
/-! PROOFS. The descriptor and task-state formats (30_encoding.md R75 to R82) and their commands (42_descriptor_encoders.md
R130 to R148). An encoder answers some bytes exactly when they decode to its operands and their reserved bits are 0 (the
`encode..._eq_iff` lemmas); both directions of R147 follow from that. -/

namespace Sys2Proof.Machine

/-! The numbers the encoders build (R131, R136, R141) and the fields in them. -/

theorem segWord_toNat (v : SegFields 32) :
    (segWord v).toNat = v.limit.toNat % 2 ^ 16 + v.base.toNat % 2 ^ 16 * 2 ^ 16 +
      v.base.toNat / 2 ^ 16 % 2 ^ 8 * 2 ^ 32 + v.type.toNat * 2 ^ 40 + v.s.toNat * 2 ^ 44 + v.dpl.toNat * 2 ^ 45 +
      v.p.toNat * 2 ^ 47 + v.limit.toNat / 2 ^ 16 * 2 ^ 48 + v.avl.toNat * 2 ^ 52 + v.l.toNat * 2 ^ 53 +
      v.db.toNat * 2 ^ 54 + v.g.toNat * 2 ^ 55 + v.base.toNat / 2 ^ 24 * 2 ^ 56 := by
  have hbase := v.base.isLt
  have hlimit := v.limit.isLt
  simp only [segWord, toNat_append_add, toNat_extractLsb]
  omega

theorem gateWord_toNat (v : GateFields 32) :
    (gateWord v).toNat = v.offset.toNat % 2 ^ 16 + v.selector.toNat * 2 ^ 16 + v.type.toNat * 2 ^ 40 +
      v.dpl.toNat * 2 ^ 45 + v.p.toNat * 2 ^ 47 + v.offset.toNat / 2 ^ 16 * 2 ^ 48 := by
  have hoffset := v.offset.isLt
  simp only [gateWord, toNat_append_add, toNat_extractLsb, BitVec.toNat_ofNat]
  omega

/-- Each field is a slice of one operand of the concatenation, except for the base and the limit, which are put together. -/
theorem segOfWord_segWord (v : SegFields 32) : segOfWord (segWord v) = v := by
  have hbase := v.base.isLt
  have hlimit := v.limit.isLt
  cases v
  simp (disch := omega) only [segOfWord, segWord, segBase32, segLimit, descType, descS, descDpl, descP,
    BitVec.extractLsb, BitVec.extractLsb'_append_eq_of_le, BitVec.extractLsb'_append_eq_of_add_le]
  simp only [SegFields.mk.injEq, ← BitVec.toNat_inj, toNat_append_add, BitVec.extractLsb'_toNat,
    Nat.shiftRight_eq_div_pow]
  omega

theorem segWord_segOfWord (d : BitVec 64) : segWord (segOfWord d) = d := by
  have hd := d.isLt
  apply BitVec.eq_of_toNat_eq
  simp only [segWord_toNat, segOfWord, segBase32_toNat, segLimit_toNat, descType_toNat, descS_toNat, descDpl_toNat,
    descP_toNat, toNat_extractLsb]
  omega

/-- Each field is one operand of the concatenation, except for the offset, which is put together. -/
theorem gateOfWord_gateWord (v : GateFields 32) : gateOfWord (gateWord v) = v := by
  have hoffset := v.offset.isLt
  cases v
  simp (disch := omega) only [gateOfWord, gateWord, gateOffset32, descType, descDpl, descP, BitVec.extractLsb,
    BitVec.extractLsb'_append_eq_of_le, BitVec.extractLsb'_append_eq_of_add_le]
  simp only [GateFields.mk.injEq, ← BitVec.toNat_inj, toNat_append_add, BitVec.extractLsb'_toNat,
    Nat.shiftRight_eq_div_pow]
  omega

theorem gateWord_gateOfWord_eq_iff (d : BitVec 64) :
    gateWord (gateOfWord d) = d ↔ d.toNat / 2 ^ 32 % 2 ^ 8 = 0 ∧ d.toNat / 2 ^ 44 % 2 = 0 := by
  have hd := d.isLt
  simp only [← BitVec.toNat_inj, gateWord_toNat, gateOfWord, gateOffset32_toNat, descType_toNat, descDpl_toNat,
    descP_toNat, toNat_extractLsb]
  omega

/-! The 8-byte forms. -/

@[simp] theorem encodeSeg_length (v : SegFields 32) : (encodeSeg v).length = 8 := leBits_length ..
@[simp] theorem encodeGate_length (v : GateFields 32) : (encodeGate v).length = 8 := leBits_length ..
@[simp] theorem encodeTaskGate_length (v : TaskGateFields) : (encodeTaskGate v).length = 8 := leBits_length ..

/-- The bytes after the eighth are not looked at. -/
theorem word64_take (b : List Byte) : word64 (b.take 8) = word64 b := by
  simp only [word64, leAt, slice, List.drop_zero, List.take_take, Nat.min_self]

theorem word64_toNat_eq_mod (b : List Byte) : (word64 b).toNat = fromLE b % 2 ^ 64 := by
  rw [word64, leAt, BitVec.toNat_ofNat, fromLE_slice]
  omega

theorem leBits_eq_iff_word64 {b : List Byte} (hb : b.length = 8) (d : BitVec 64) : leBits 8 d = b ↔ word64 b = d := by
  rw [word64, leAt_eq_iff (n := 8) rfl (by omega), slice_self hb, eq_comm]

theorem encodeSeg_eq_iff {b : List Byte} (hb : b.length = 8) (v : SegFields 32) :
    encodeSeg v = b ↔ decodeSeg b = v := by
  rw [encodeSeg, leBits_eq_iff_word64 hb, decodeSeg]
  exact ⟨fun h => by rw [h, segOfWord_segWord], fun h => by rw [← h, segWord_segOfWord]⟩

/-- The reserved bits 39:32 and 44 of a gate are 0 (R78). -/
def GateReservedZero (b : List Byte) : Prop := fromLE (slice b 4 1) = 0 ∧ fromLE b / 2 ^ 44 % 2 = 0

theorem gateReservedZero_iff_word64 (b : List Byte) :
    GateReservedZero b ↔ (word64 b).toNat / 2 ^ 32 % 2 ^ 8 = 0 ∧ (word64 b).toNat / 2 ^ 44 % 2 = 0 := by
  rw [GateReservedZero, fromLE_slice, word64_toNat_eq_mod]
  omega

theorem gateReservedZero_iff_slices (b : List Byte) :
    GateReservedZero b ↔ fromLE (slice b 4 1) = 0 ∧ fromLE (slice b 5 1) / 2 ^ 4 % 2 = 0 := by
  rw [GateReservedZero, fromLE_slice b 5 1]
  omega

theorem gateReservedZero_take (b : List Byte) : GateReservedZero (b.take 8) ↔ GateReservedZero b := by
  rw [gateReservedZero_iff_word64, word64_take, ← gateReservedZero_iff_word64]

theorem encodeGate_eq_iff {b : List Byte} (hb : b.length = 8) (v : GateFields 32) :
    encodeGate v = b ↔ decodeGate b = v ∧ GateReservedZero b := by
  rw [encodeGate, leBits_eq_iff_word64 hb, decodeGate, gateReservedZero_iff_word64, ← gateWord_gateOfWord_eq_iff]
  constructor
  · intro h
    rw [h, gateOfWord_gateWord]
    exact ⟨rfl, rfl⟩
  · rintro ⟨rfl, h⟩
    exact h.symm

/-- The gate a task gate is encoded as: its fields with a zero offset (R141). -/
def gateOfTaskGate (v : TaskGateFields) : GateFields 32 := ⟨0, v.selector, v.type, v.dpl, v.p⟩

theorem taskGateWord_toNat (v : TaskGateFields) :
    (taskGateWord v).toNat = v.selector.toNat * 2 ^ 16 + v.type.toNat * 2 ^ 40 + v.dpl.toNat * 2 ^ 45 +
      v.p.toNat * 2 ^ 47 := by
  simp only [taskGateWord, toNat_append_add, BitVec.toNat_ofNat]
  omega

theorem taskGateWord_eq_gateWord (v : TaskGateFields) : taskGateWord v = gateWord (gateOfTaskGate v) := by
  apply BitVec.eq_of_toNat_eq
  rw [taskGateWord_toNat, gateWord_toNat]
  simp [gateOfTaskGate]

theorem encodeTaskGate_eq_encodeGate (v : TaskGateFields) : encodeTaskGate v = encodeGate (gateOfTaskGate v) := by
  rw [encodeTaskGate, taskGateWord_eq_gateWord, encodeGate]

theorem decodeGate_eq_gateOfTaskGate_iff (b : List Byte) (v : TaskGateFields) :
    decodeGate b = gateOfTaskGate v ↔ decodeTaskGate b = v ∧ (decodeGate b).offset = 0 := by
  cases v
  simp only [decodeGate, gateOfWord, gateOfTaskGate, decodeTaskGate, GateFields.mk.injEq, TaskGateFields.mk.injEq]
  tauto

theorem decodeGate_offset_eq_zero_iff (b : List Byte) :
    (decodeGate b).offset = 0 ↔ fromLE (slice b 0 2) = 0 ∧ fromLE (slice b 6 2) = 0 := by
  rw [← BitVec.toNat_inj, decodeGate, gateOfWord, gateOffset32_toNat, word64_toNat_eq_mod, fromLE_slice, fromLE_slice,
    show (0 : BitVec 32).toNat = 0 from rfl]
  omega

theorem encodeTaskGate_eq_iff {b : List Byte} (hb : b.length = 8) (v : TaskGateFields) :
    encodeTaskGate v = b ↔
      decodeTaskGate b = v ∧
        fromLE (slice b 0 2) = 0 ∧ fromLE (slice b 4 1) = 0 ∧ fromLE b / 2 ^ 44 % 2 = 0 ∧ fromLE (slice b 6 2) = 0 := by
  rw [encodeTaskGate_eq_encodeGate, encodeGate_eq_iff hb, decodeGate_eq_gateOfTaskGate_iff,
    decodeGate_offset_eq_zero_iff, GateReservedZero]
  tauto

/-! The 16-byte forms: an 8-byte form, an extension word and a reserved word (R77, R79). -/

@[simp] theorem encodeSeg64_length (v : SegFields 64) : (encodeSeg64 v).length = 16 := by simp [encodeSeg64]
@[simp] theorem encodeGate64_length (v : GateFields 64) : (encodeGate64 v).length = 16 := by simp [encodeGate64]

/-- The three parts of a 16-byte form, each where it stands in the bytes. -/
theorem wideForm_eq_iff {lo b : List Byte} (hlo : lo.length = 8) (hb : b.length = 16) (x : BitVec 32) :
    lo ++ leBits 4 x ++ zeroBytes 4 = b ↔ lo = b.take 8 ∧ extWord b = x ∧ fromLE (slice b 12 4) = 0 := by
  have hcut : lo ++ leBits 4 x ++ zeroBytes 4 = b.drop 0 ↔
      slice b 0 8 = lo ∧ slice b 8 4 = leBits 4 x ∧ zeroBytes 4 = b.drop 12 := by
    rw [List.append_assoc, append_eq_drop_iff, append_eq_drop_iff, hlo, leBits_length]
  rw [← eq_zeroBytes_iff (n := 4) (by simp [hb]), extWord, leAt_eq_iff (n := 4) rfl (by omega),
    ← drop_eq_slice (i := 12) hb]
  exact hcut.trans (and_congr eq_comm (and_congr Iff.rfl eq_comm))

theorem segWithBase_eq_iff (f : SegFields 32) (x : BitVec 32) (v : SegFields 64) :
    segWithBase f (x ++ f.base) = v ↔
      segWithBase v (v.base.extractLsb 31 0 : BitVec 32) = f ∧ x = v.base.extractLsb 63 32 := by
  cases f
  cases v
  simp only [segWithBase, SegFields.mk.injEq, append_eq_iff_halves]
  tauto

theorem gateWithOffset_eq_iff (f : GateFields 32) (x : BitVec 32) (v : GateFields 64) :
    gateWithOffset f (x ++ f.offset) = v ↔
      gateWithOffset v (v.offset.extractLsb 31 0 : BitVec 32) = f ∧ x = v.offset.extractLsb 63 32 := by
  cases f
  cases v
  simp only [gateWithOffset, GateFields.mk.injEq, append_eq_iff_halves]
  tauto

theorem decodeSeg_take (b : List Byte) : decodeSeg (b.take 8) = decodeSeg b := by rw [decodeSeg, word64_take, decodeSeg]

theorem decodeGate_take (b : List Byte) : decodeGate (b.take 8) = decodeGate b := by
  rw [decodeGate, word64_take, decodeGate]

theorem decodeSeg64_eq (b : List Byte) :
    decodeSeg64 b = segWithBase (decodeSeg b) (extWord b ++ (decodeSeg b).base) := rfl

theorem decodeGate64_eq (b : List Byte) :
    decodeGate64 b = gateWithOffset (decodeGate b) (extWord b ++ (decodeGate b).offset) := rfl

theorem encodeSeg64_eq_iff {b : List Byte} (hb : b.length = 16) (v : SegFields 64) :
    encodeSeg64 v = b ↔ decodeSeg64 b = v ∧ fromLE (slice b 12 4) = 0 := by
  rw [encodeSeg64, wideForm_eq_iff (encodeSeg_length _) hb,
    encodeSeg_eq_iff (by rw [List.length_take]; omega), decodeSeg_take, decodeSeg64_eq, segWithBase_eq_iff,
    eq_comm (a := decodeSeg b), and_assoc]

theorem encodeGate64_eq_iff {b : List Byte} (hb : b.length = 16) (v : GateFields 64) :
    encodeGate64 v = b ↔
      decodeGate64 b = v ∧
        fromLE (slice b 4 1) = 0 ∧ fromLE (slice b 5 1) / 2 ^ 4 % 2 = 0 ∧ fromLE (slice b 12 4) = 0 := by
  rw [encodeGate64, wideForm_eq_iff (encodeGate_length _) hb,
    encodeGate_eq_iff (by rw [List.length_take]; omega), decodeGate_take, decodeGate64_eq, gateWithOffset_eq_iff,
    eq_comm (a := decodeGate b), gateReservedZero_take, gateReservedZero_iff_slices]
  tauto

/-! Task-state segments (R81, R82). -/

@[simp] theorem encodeTss32_length (v : Tss32Fields) : (encodeTss32 v).length = 104 := by
  unfold encodeTss32
  simp only [List.length_append]
  simp only [leBits_length, zeroBytes_length]

@[simp] theorem encodeTss64_length (v : Tss64Fields) : (encodeTss64 v).length = 104 := by
  unfold encodeTss64
  simp only [List.length_append]
  simp only [leBits_length, zeroBytes_length]

/-- The offsets of the reserved two-byte ranges of the 32-bit task-state segment (R81). -/
def tss32Reserved : List Nat := [2, 10, 18, 26, 74, 78, 82, 86, 90, 94, 98]

theorem tss32Reserved_inside : ∀ o ∈ tss32Reserved, o + 2 ≤ 104 := by decide

/-- The flag `t` in a two-byte field whose other bits are 0. -/
theorem slice_eq_leBits_flag_iff {b : List Byte} {i : Nat} (h : i + 2 ≤ b.length) (t : BitVec 1) :
    slice b i 2 = leBits 2 t ↔ leAt 1 b i 1 = t ∧ fromLE (slice b i 2) < 2 := by
  have ht := t.isLt
  rw [eq_leBits_iff (by omega) (by rw [slice_length]; omega), ← BitVec.toNat_inj, leAt, BitVec.toNat_ofNat,
    fromLE_slice, fromLE_slice]
  omega

/-- Cut at the offsets of R81, both sides say what stands in each range. -/
theorem encodeTss32_eq_iff {b : List Byte} (hb : b.length = 104) (v : Tss32Fields) :
    encodeTss32 v = b ↔
      decodeTss32 b = v ∧ (∀ o ∈ tss32Reserved, fromLE (slice b o 2) = 0) ∧ fromLE (slice b 100 2) < 2 := by
  unfold encodeTss32
  conv_lhs => rw [← b.drop_zero]
  simp only [List.append_assoc, append_eq_drop_iff, leBits_length, zeroBytes_length, Nat.reduceAdd,
    drop_eq_slice (i := 102) (n := 2) hb]
  cases v
  simp (disch := omega) only [leBits_setWidth, slice_eq_zeroBytes_iff, slice_eq_leBits_flag_iff,
    decodeTss32, Tss32Fields.mk.injEq, leAt_eq_iff, tss32Reserved, List.forall_mem_cons, List.not_mem_nil,
    IsEmpty.forall_iff, implies_true]
  constructor <;> (intro h; simp only [h, and_self])

/-- Cut at the offsets of R82, both sides say what stands in each range. -/
theorem encodeTss64_eq_iff {b : List Byte} (hb : b.length = 104) (v : Tss64Fields) :
    encodeTss64 v = b ↔
      decodeTss64 b = v ∧ fromLE (slice b 0 4) = 0 ∧ fromLE (slice b 28 8) = 0 ∧ fromLE (slice b 92 10) = 0 := by
  have hz : zeroBytes 8 ++ zeroBytes 2 = zeroBytes 10 := rfl
  unfold encodeTss64
  conv_lhs => rw [← b.drop_zero, List.append_assoc _ (zeroBytes 8) (zeroBytes 2), hz]
  simp only [List.append_assoc, append_eq_drop_iff, leBits_length, zeroBytes_length, Nat.reduceAdd,
    drop_eq_slice (i := 102) (n := 2) hb]
  cases v
  simp (disch := omega) only [slice_eq_zeroBytes_iff, decodeTss64, Tss64Fields.mk.injEq, leAt_eq_iff]
  constructor <;> (intro h; simp only [h, and_self])

/-! The commands. -/

theorem next_bytes_eq_iff {s : State} {a b : List Byte} :
    (.next (s.respond .ok (.bytes a)) : Host.Outcome State Fault Refusal) = .next (s.respond .ok (.bytes b)) ↔ a = b := by
  constructor
  · intro h
    have hr : (s.respond .ok (.bytes a)).response = (s.respond .ok (.bytes b)).response :=
      congrArg State.response (Host.Outcome.next.inj h)
    simpa using hr
  · rintro rfl
    rfl

/-- A well-typed pure command answers its result. -/
theorem typed_of_length {b : List Byte} {n : Nat} (hb : b.length = n) (r : Result) (s : State) :
    typed (b.length == n) s (complete r s) = .next (s.respond .ok r) := by
  rw [hb, beq_self_eq_true, typed_true, complete]

/-- A format of `size` bytes: its two commands, how the decoder answers, what the two compute, and when the reserved bits of
some bytes are 0. -/
structure Format (F : Type) where
  size : Nat
  encoder : F → Instr
  decoder : List Byte → Instr
  answer : F → Result
  encode : F → List Byte
  decode : List Byte → F
  reservedZero : List Byte → Prop

/-- The commands of a format answer what it computes, and it encodes to exactly the bytes that decode to the operands and have
their reserved bits 0. -/
structure Format.Lawful {F : Type} (f : Format F) : Prop where
  exec_encoder (v : F) (s : State) : exec (f.encoder v) s = .next (s.respond .ok (.bytes (f.encode v)))
  exec_decoder {b : List Byte} (hb : b.length = f.size) (s : State) :
    exec (f.decoder b) s = .next (s.respond .ok (f.answer (f.decode b)))
  encode_length (v : F) : (f.encode v).length = f.size
  encode_eq_iff {b : List Byte} (hb : b.length = f.size) (v : F) : f.encode v = b ↔ f.decode b = v ∧ f.reservedZero b

/-- Decoding what was encoded gives the operands back. -/
theorem Format.Lawful.decoder_encoder {F : Type} {f : Format F} (hf : f.Lawful) (v : F) (s : State) :
    ∃ b, exec (f.encoder v) s = .next (s.respond .ok (.bytes b)) ∧
      exec (f.decoder b) s = .next (s.respond .ok (f.answer v)) := by
  have hl := hf.encode_length v
  obtain ⟨hd, -⟩ := (hf.encode_eq_iff hl v).1 rfl
  exact ⟨f.encode v, hf.exec_encoder v s, by rw [hf.exec_decoder hl, hd]⟩

/-- Encoding what was decoded gives the bytes back exactly when their reserved bits are 0. -/
theorem Format.Lawful.encoder_decoder {F : Type} {f : Format F} (hf : f.Lawful) (b : List Byte) (s : State)
    (hb : b.length = f.size) :
    ∃ v, exec (f.decoder b) s = .next (s.respond .ok (f.answer v)) ∧
      (exec (f.encoder v) s = .next (s.respond .ok (.bytes b)) ↔ f.reservedZero b) := by
  refine ⟨f.decode b, hf.exec_decoder hb s, ?_⟩
  rw [hf.exec_encoder, next_bytes_eq_iff, hf.encode_eq_iff hb, eq_self, true_and]

/-- ENC_SEG and DEC_SEG: no bit is reserved (R75). -/
def segFormat : Format (SegFields 32) := ⟨8, .encSeg, .decSeg, .seg, encodeSeg, decodeSeg, fun _ => True⟩

/-- ENC_SEG64 and DEC_SEG64 (R77). -/
def segFormat64 : Format (SegFields 64) :=
  ⟨16, .encSeg64, .decSeg64, .seg64, encodeSeg64, decodeSeg64, fun b => fromLE (slice b 12 4) = 0⟩

/-- ENC_GATE and DEC_GATE (R78). -/
def gateFormat : Format (GateFields 32) := ⟨8, .encGate, .decGate, .gate, encodeGate, decodeGate, GateReservedZero⟩

/-- ENC_GATE64 and DEC_GATE64 (R79). -/
def gateFormat64 : Format (GateFields 64) :=
  ⟨16, .encGate64, .decGate64, .gate64, encodeGate64, decodeGate64, fun b =>
    fromLE (slice b 4 1) = 0 ∧ fromLE (slice b 5 1) / 2 ^ 4 % 2 = 0 ∧ fromLE (slice b 12 4) = 0⟩

/-- ENC_TASKGATE and DEC_TASKGATE (R80). -/
def taskGateFormat : Format TaskGateFields :=
  ⟨8, .encTaskGate, .decTaskGate, .taskGate, encodeTaskGate, decodeTaskGate, fun b =>
    fromLE (slice b 0 2) = 0 ∧ fromLE (slice b 4 1) = 0 ∧ fromLE b / 2 ^ 44 % 2 = 0 ∧ fromLE (slice b 6 2) = 0⟩

/-- ENC_TSS32 and DEC_TSS32 (R81). -/
def tssFormat32 : Format Tss32Fields :=
  ⟨104, .encTss32, .decTss32, .tss32, encodeTss32, decodeTss32, fun b =>
    (∀ o ∈ tss32Reserved, fromLE (slice b o 2) = 0) ∧ fromLE (slice b 100 2) < 2⟩

/-- ENC_TSS64 and DEC_TSS64 (R82). -/
def tssFormat64 : Format Tss64Fields :=
  ⟨104, .encTss64, .decTss64, .tss64, encodeTss64, decodeTss64, fun b =>
    fromLE (slice b 0 4) = 0 ∧ fromLE (slice b 28 8) = 0 ∧ fromLE (slice b 92 10) = 0⟩

theorem segFormat_lawful : segFormat.Lawful :=
  ⟨fun _ _ => rfl, fun hb => typed_of_length hb _, encodeSeg_length,
    fun hb v => (encodeSeg_eq_iff hb v).trans (and_iff_left trivial).symm⟩

theorem segFormat64_lawful : segFormat64.Lawful :=
  ⟨fun _ _ => rfl, fun hb => typed_of_length hb _, encodeSeg64_length, encodeSeg64_eq_iff⟩

theorem gateFormat_lawful : gateFormat.Lawful :=
  ⟨fun _ _ => rfl, fun hb => typed_of_length hb _, encodeGate_length, encodeGate_eq_iff⟩

theorem gateFormat64_lawful : gateFormat64.Lawful :=
  ⟨fun _ _ => rfl, fun hb => typed_of_length hb _, encodeGate64_length, encodeGate64_eq_iff⟩

theorem taskGateFormat_lawful : taskGateFormat.Lawful :=
  ⟨fun _ _ => rfl, fun hb => typed_of_length hb _, encodeTaskGate_length, encodeTaskGate_eq_iff⟩

theorem tssFormat32_lawful : tssFormat32.Lawful :=
  ⟨fun _ _ => rfl, fun hb => typed_of_length hb _, encodeTss32_length, encodeTss32_eq_iff⟩

theorem tssFormat64_lawful : tssFormat64.Lawful :=
  ⟨fun _ _ => rfl, fun hb => typed_of_length hb _, encodeTss64_length, encodeTss64_eq_iff⟩

/-! The obligations. -/

/-- Settles O20: the two directions of a lawful format, for the seven formats. -/
theorem descriptorFormsAreInverse : Obligations.DescriptorFormsAreInverse := by
  refine ⟨segFormat_lawful.decoder_encoder, segFormat64_lawful.decoder_encoder, gateFormat_lawful.decoder_encoder,
    gateFormat64_lawful.decoder_encoder, taskGateFormat_lawful.decoder_encoder, tssFormat32_lawful.decoder_encoder,
    tssFormat64_lawful.decoder_encoder, fun b s hb => ?_, segFormat64_lawful.encoder_decoder,
    gateFormat_lawful.encoder_decoder, gateFormat64_lawful.encoder_decoder, taskGateFormat_lawful.encoder_decoder,
    tssFormat32_lawful.encoder_decoder, tssFormat64_lawful.encoder_decoder⟩
  obtain ⟨v, hd, he⟩ := segFormat_lawful.encoder_decoder b s hb
  exact ⟨v, hd, he.2 trivial⟩

/-- Settles O10: the number `segWord` builds. -/
theorem encSegBuildsTheDescriptor : Obligations.EncSegBuildsTheDescriptor := by
  intro v s
  rw [← segWord_toNat]
  exact ⟨rfl, segFormat_lawful.exec_encoder v s⟩

/-- Settles O11: the fields of the number the eight bytes hold. -/
theorem decSegReadsTheFields : Obligations.DecSegReadsTheFields := by
  intro b s hb
  have hback : encodeSeg (decodeSeg b) = b := (encodeSeg_eq_iff hb _).2 rfl
  refine ⟨decodeSeg b, rfl, segFormat_lawful.exec_decoder hb s, ?_⟩
  rw [← word64_toNat hb]
  exact ⟨segBase32_toNat _, segLimit_toNat _, descType_toNat _, descS_toNat _, descDpl_toNat _, descP_toNat _,
    toNat_extractLsb _ 52 52, toNat_extractLsb _ 53 53, toNat_extractLsb _ 54 54, toNat_extractLsb _ 55 55,
    next_bytes_eq_iff.2 hback⟩

/-- Settles O12: the halves of the base are the narrow form's base and the extension word. -/
theorem wideSegmentFormExtendsTheNarrow : Obligations.WideSegmentFormExtendsTheNarrow := by
  constructor
  · intro v s
    refine ⟨encodeSeg (segWithBase v (BitVec.ofNat 32 v.base.toNat)), rfl, rfl, encodeSeg_length _, ?_⟩
    rw [← extractLsb_low, ← toNat_extractLsb_high]
    rfl
  · intro b s hb
    have hlo : (b.take 8).length = 8 := List.length_take_of_le (by omega)
    refine ⟨decodeSeg (b.take 8), rfl, segFormat_lawful.exec_decoder hlo s, ?_⟩
    rw [decodeSeg_take, ← toNat_leAt (w := 32) rfl (by omega), ← append_eq_ofNat]
    exact segFormat64_lawful.exec_decoder hb s

/-- Settles O13: the number `gateWord` builds. -/
theorem encGateBuildsTheGate : Obligations.EncGateBuildsTheGate := by
  intro v s
  rw [← gateWord_toNat]
  exact ⟨rfl, gateFormat_lawful.exec_encoder v s⟩

/-- Settles O14: the fields of the number the eight bytes hold. -/
theorem decGateReadsTheFields : Obligations.DecGateReadsTheFields := by
  intro b s hb
  refine ⟨decodeGate b, rfl, gateFormat_lawful.exec_decoder hb s, ?_⟩
  rw [← word64_toNat hb]
  exact ⟨gateOffset32_toNat _, toNat_extractLsb _ 31 16, descType_toNat _, descDpl_toNat _, descP_toNat _⟩

/-- Settles O15: the halves of the offset are the narrow form's offset and the extension word. -/
theorem wideGateFormExtendsTheNarrow : Obligations.WideGateFormExtendsTheNarrow := by
  constructor
  · intro v s
    refine ⟨encodeGate (gateWithOffset v (BitVec.ofNat 32 v.offset.toNat)), rfl, rfl, encodeGate_length _, ?_⟩
    rw [← extractLsb_low, ← toNat_extractLsb_high]
    rfl
  · intro b s hb
    have hlo : (b.take 8).length = 8 := List.length_take_of_le (by omega)
    refine ⟨decodeGate (b.take 8), rfl, gateFormat_lawful.exec_decoder hlo s, ?_⟩
    rw [decodeGate_take, ← toNat_leAt (w := 32) rfl (by omega), ← append_eq_ofNat]
    exact gateFormat64_lawful.exec_decoder hb s

/-- Settles O16: a task gate is encoded as the gate with its fields and a zero offset. -/
theorem taskGateEncodesAndDecodes : Obligations.TaskGateEncodesAndDecodes := by
  constructor
  · intro v s
    rw [← taskGateWord_toNat]
    refine ⟨rfl, taskGateFormat_lawful.exec_encoder v s, ?_⟩
    exact (taskGateFormat_lawful.exec_encoder v s).trans (next_bytes_eq_iff.2 (encodeTaskGate_eq_encodeGate v))
  · intro b s hb
    refine ⟨decodeTaskGate b, rfl, taskGateFormat_lawful.exec_decoder hb s, ?_⟩
    rw [← word64_toNat hb]
    exact ⟨toNat_extractLsb _ 31 16, descType_toNat _, descDpl_toNat _, descP_toNat _⟩

/-- Settles O17: the bytes decode to the operands, so each field's image stands where the decoder reads it. -/
theorem encTss32PlacesEveryField : Obligations.EncTss32PlacesEveryField := by
  intro v s
  have hl := encodeTss32_length v
  refine ⟨encodeTss32 v, rfl, rfl, hl, ?_⟩
  generalize hb : encodeTss32 v = b at hl ⊢
  obtain ⟨rfl, hzero, ht⟩ := (encodeTss32_eq_iff hl v).1 hb
  have hflag : slice b 100 2 = leBytes 2 (leAt 1 b 100 1).toNat :=
    (slice_eq_leBits_flag_iff (by omega) _).2 ⟨rfl, ht⟩
  simp (disch := omega) only [decodeTss32, leBytes_toNat_leAt, ← hflag, true_and]
  exact fun o ho => (slice_eq_zeroBytes_iff ((tss32Reserved_inside o ho).trans hl.ge)).2 (hzero o ho)

/-- Settles O18, field by field. -/
theorem decTss32ReadsEveryField : Obligations.DecTss32ReadsEveryField := by
  intro b s hb
  refine ⟨decodeTss32 b, rfl, tssFormat32_lawful.exec_decoder hb s, ?_⟩
  have hflag : (leAt 1 b 100 1).toNat = fromLE (slice b 100 1) % 2 := BitVec.toNat_ofNat ..
  simp (disch := omega) only [decodeTss32, toNat_leAt, hflag, and_self]

/-- Settles O19: the bytes decode to the operands, and the decoder reads each field at its offset. -/
theorem tss64EncodesAndDecodes : Obligations.Tss64EncodesAndDecodes := by
  constructor
  · intro v s
    have hl := encodeTss64_length v
    refine ⟨encodeTss64 v, rfl, rfl, hl, ?_⟩
    generalize hb : encodeTss64 v = b at hl ⊢
    obtain ⟨rfl, h0, h28, h92⟩ := (encodeTss64_eq_iff hl v).1 hb
    simp (disch := omega) only [decodeTss64, leBytes_toNat_leAt, true_and]
    rw [← slice_eq_zeroBytes_iff (by omega)] at h0 h28 h92
    exact ⟨h0, h28, h92⟩
  · intro b s hb
    refine ⟨decodeTss64 b, rfl, tssFormat64_lawful.exec_decoder hb s, ?_⟩
    simp (disch := omega) only [decodeTss64, toNat_leAt, and_self]

end Sys2Proof.Machine
end

section
/-! PROOFS. The page-table entry formats (30_encoding.md R85 to R89) and their commands (43_pte_encoders_and_walk.md R161 to
R171). A top-level and a fourth-level entry are second-level entries whose bit 7 has another meaning, so the 8-byte layout is
inverted once; the commands then answer what a lawful `Format` says. -/

namespace Sys2Proof.Machine

/-! The 32-bit entry. -/

theorem leBits_eq_iff_leAt {w n : Nat} {b : List Byte} (hw : w = 8 * n) (hb : b.length = n) (v : BitVec w) :
    leBits n v = b ↔ leAt w b 0 n = v := by
  rw [leAt_eq_iff hw (by omega), slice_self hb, eq_comm]

theorem pde32Word_toNat (v : Pde32Fields) :
    (pde32Word v).toNat = v.p.toNat + v.rw.toNat * 2 + v.us.toNat * 2 ^ 2 + v.pwt.toNat * 2 ^ 3 + v.pcd.toNat * 2 ^ 4 +
      v.a.toNat * 2 ^ 5 + v.d.toNat * 2 ^ 6 + v.ps.toNat * 2 ^ 7 + v.g.toNat * 2 ^ 8 + v.avl.toNat * 2 ^ 9 +
      v.pfn.toNat * 2 ^ 12 := by
  simp only [pde32Word, toNat_append_add]
  omega

/-- Each field is one operand of the concatenation. -/
theorem pde32OfWord_pde32Word (v : Pde32Fields) : pde32OfWord (pde32Word v) = v := by
  cases v
  simp (disch := omega) only [pde32OfWord, pde32Word, BitVec.extractLsb, BitVec.extractLsb'_append_eq_of_le,
    BitVec.extractLsb'_append_eq_of_add_le]
  simp only [Pde32Fields.mk.injEq, ← BitVec.toNat_inj, BitVec.extractLsb'_toNat, Nat.shiftRight_eq_div_pow]
  omega

theorem pde32Word_pde32OfWord (e : BitVec 32) : pde32Word (pde32OfWord e) = e := by
  have he := e.isLt
  apply BitVec.eq_of_toNat_eq
  simp only [pde32Word_toNat, pde32OfWord, toNat_extractLsb]
  omega

@[simp] theorem encodePde32_length (v : Pde32Fields) : (encodePde32 v).length = 4 := leBits_length ..

theorem encodePde32_eq_iff {b : List Byte} (hb : b.length = 4) (v : Pde32Fields) :
    encodePde32 v = b ↔ decodePde32 b = v := by
  rw [encodePde32, leBits_eq_iff_leAt rfl hb, decodePde32]
  exact ⟨fun h => by rw [h, pde32OfWord_pde32Word], fun h => by rw [← h, pde32Word_pde32OfWord]⟩

/-! The 8-byte entries. -/

theorem entry64Word_toNat (p rw us pwt pcd a d b7 g : BitVec 1) (avl : BitVec 3) (pfn : BitVec 40) (avlHi : BitVec 11)
    (nx : BitVec 1) :
    (entry64Word p rw us pwt pcd a d b7 g avl pfn avlHi nx).toNat =
      p.toNat + rw.toNat * 2 + us.toNat * 2 ^ 2 + pwt.toNat * 2 ^ 3 + pcd.toNat * 2 ^ 4 + a.toNat * 2 ^ 5 +
        d.toNat * 2 ^ 6 + b7.toNat * 2 ^ 7 + g.toNat * 2 ^ 8 + avl.toNat * 2 ^ 9 + pfn.toNat * 2 ^ 12 +
        avlHi.toNat * 2 ^ 52 + nx.toNat * 2 ^ 63 := by
  simp only [entry64Word, toNat_append_add]
  omega

theorem entryWord_toNat {b : List Byte} (hb : b.length = 8) : (entryWord b).toNat = fromLE b := by
  rw [entryWord, toNat_leAt (w := 64) rfl (by omega), slice_self hb]

/-- The number of a second- or third-level entry (R165, R167). -/
def dirEntryWord (v : DirEntryFields) : BitVec 64 :=
  entry64Word v.p v.rw v.us v.pwt v.pcd v.a v.d v.ps v.g v.avl v.pfn v.avlHi v.nx

theorem encodeDirEntry_eq (v : DirEntryFields) : encodeDirEntry v = leBits 8 (dirEntryWord v) := rfl

/-- Each field is one operand of the concatenation. -/
theorem decodeDirEntry_of_entryWord {b : List Byte} {v : DirEntryFields} (h : entryWord b = dirEntryWord v) :
    decodeDirEntry b = v := by
  cases v
  simp (disch := omega) only [decodeDirEntry, h, dirEntryWord, entry64Word, BitVec.extractLsb,
    BitVec.extractLsb'_append_eq_of_le, BitVec.extractLsb'_append_eq_of_add_le]
  simp only [DirEntryFields.mk.injEq, ← BitVec.toNat_inj, BitVec.extractLsb'_toNat, Nat.shiftRight_eq_div_pow]
  omega

theorem dirEntryWord_decodeDirEntry (b : List Byte) : dirEntryWord (decodeDirEntry b) = entryWord b := by
  have hb := (entryWord b).isLt
  apply BitVec.eq_of_toNat_eq
  simp only [dirEntryWord, entry64Word_toNat, decodeDirEntry, toNat_extractLsb]
  omega

theorem encodeDirEntry_eq_iff {b : List Byte} (hb : b.length = 8) (v : DirEntryFields) :
    encodeDirEntry v = b ↔ decodeDirEntry b = v := by
  rw [encodeDirEntry_eq, leBits_eq_iff_leAt rfl hb, ← entryWord]
  exact ⟨decodeDirEntry_of_entryWord, fun h => by rw [← h, dirEntryWord_decodeDirEntry]⟩

/-- A top-level entry has the layout of a second-level entry with bit 7 clear (R163). -/
def dirEntryOfPml4e (v : Pml4eFields) : DirEntryFields :=
  ⟨v.p, v.rw, v.us, v.pwt, v.pcd, v.a, v.d, 0, v.g, v.avl, v.pfn, v.avlHi, v.nx⟩

/-- A fourth-level entry has the layout of a second-level entry with `pat` as bit 7 (R169). -/
def dirEntryOfPte64 (v : Pte64Fields) : DirEntryFields :=
  ⟨v.p, v.rw, v.us, v.pwt, v.pcd, v.a, v.d, v.pat, v.g, v.avl, v.pfn, v.avlHi, v.nx⟩

theorem encodePml4e_eq (v : Pml4eFields) : encodePml4e v = encodeDirEntry (dirEntryOfPml4e v) := rfl

theorem encodePte64_eq (v : Pte64Fields) : encodePte64 v = encodeDirEntry (dirEntryOfPte64 v) := rfl

theorem decodeDirEntry_eq_dirEntryOfPml4e_iff (b : List Byte) (v : Pml4eFields) :
    decodeDirEntry b = dirEntryOfPml4e v ↔ decodePml4e b = v ∧ (decodeDirEntry b).ps = 0 := by
  cases v
  simp only [decodeDirEntry, dirEntryOfPml4e, decodePml4e, DirEntryFields.mk.injEq, Pml4eFields.mk.injEq]
  tauto

theorem decodeDirEntry_eq_dirEntryOfPte64_iff (b : List Byte) (v : Pte64Fields) :
    decodeDirEntry b = dirEntryOfPte64 v ↔ decodePte64 b = v := by
  cases v
  simp only [decodeDirEntry, dirEntryOfPte64, decodePte64, DirEntryFields.mk.injEq, Pte64Fields.mk.injEq]

/-- Bit `i` of an entry is its number's. -/
theorem entryWord_bit_eq_zero_iff {b : List Byte} (hb : b.length = 8) (i : Nat) :
    (entryWord b).extractLsb i i = 0 ↔ fromLE b / 2 ^ i % 2 = 0 := by
  rw [← BitVec.toNat_inj, toNat_extractLsb, entryWord_toNat hb, Nat.sub_self]
  rfl

@[simp] theorem encodeDirEntry_length (v : DirEntryFields) : (encodeDirEntry v).length = 8 := leBits_length ..
@[simp] theorem encodePml4e_length (v : Pml4eFields) : (encodePml4e v).length = 8 := leBits_length ..
@[simp] theorem encodePte64_length (v : Pte64Fields) : (encodePte64 v).length = 8 := leBits_length ..

theorem encodePml4e_eq_iff {b : List Byte} (hb : b.length = 8) (v : Pml4eFields) :
    encodePml4e v = b ↔ decodePml4e b = v ∧ fromLE b / 2 ^ 7 % 2 = 0 := by
  rw [encodePml4e_eq, encodeDirEntry_eq_iff hb, decodeDirEntry_eq_dirEntryOfPml4e_iff, ← entryWord_bit_eq_zero_iff hb 7]
  rfl

theorem encodePte64_eq_iff {b : List Byte} (hb : b.length = 8) (v : Pte64Fields) :
    encodePte64 v = b ↔ decodePte64 b = v := by
  rw [encodePte64_eq, encodeDirEntry_eq_iff hb, decodeDirEntry_eq_dirEntryOfPte64_iff]

/-! The commands. -/

/-- ENC_PDE32 and DEC_PDE32: no bit is reserved (R85). -/
def pde32Format : Format Pde32Fields := ⟨4, .encPde32, .decPde32, .pde32, encodePde32, decodePde32, fun _ => True⟩

/-- ENC_PML4E and DEC_PML4E: bit 7 is reserved (R87). -/
def pml4eFormat : Format Pml4eFields :=
  ⟨8, .encPml4e, .decPml4e, .pml4e, encodePml4e, decodePml4e, fun b => fromLE b / 2 ^ 7 % 2 = 0⟩

/-- ENC_PDPTE and DEC_PDPTE: no bit is reserved (R88). -/
def pdpteFormat : Format DirEntryFields :=
  ⟨8, .encPdpte, .decPdpte, .dirEntry, encodePdpte, decodePdpte, fun _ => True⟩

/-- ENC_PDE64 and DEC_PDE64: no bit is reserved (R88). -/
def pde64Format : Format DirEntryFields :=
  ⟨8, .encPde64, .decPde64, .dirEntry, encodePde64, decodePde64, fun _ => True⟩

/-- ENC_PTE64 and DEC_PTE64: no bit is reserved (R89). -/
def pte64Format : Format Pte64Fields := ⟨8, .encPte64, .decPte64, .pte64, encodePte64, decodePte64, fun _ => True⟩

theorem pde32Format_lawful : pde32Format.Lawful :=
  ⟨fun _ _ => rfl, fun hb => typed_of_length hb _, encodePde32_length,
    fun hb v => (encodePde32_eq_iff hb v).trans (and_iff_left trivial).symm⟩

theorem pml4eFormat_lawful : pml4eFormat.Lawful :=
  ⟨fun _ _ => rfl, fun hb => typed_of_length hb _, encodePml4e_length, encodePml4e_eq_iff⟩

theorem pdpteFormat_lawful : pdpteFormat.Lawful :=
  ⟨fun _ _ => rfl, fun hb => typed_of_length hb _, encodeDirEntry_length,
    fun hb v => (encodeDirEntry_eq_iff hb v).trans (and_iff_left trivial).symm⟩

theorem pde64Format_lawful : pde64Format.Lawful :=
  ⟨fun _ _ => rfl, fun hb => typed_of_length hb _, encodeDirEntry_length,
    fun hb v => (encodeDirEntry_eq_iff hb v).trans (and_iff_left trivial).symm⟩

theorem pte64Format_lawful : pte64Format.Lawful :=
  ⟨fun _ _ => rfl, fun hb => typed_of_length hb _, encodePte64_length,
    fun hb v => (encodePte64_eq_iff hb v).trans (and_iff_left trivial).symm⟩

/-- Where no bit is reserved, encoding what was decoded gives the bytes back. -/
theorem Format.Lawful.encoder_decoder_of_unreserved {F : Type} {f : Format F} (hf : f.Lawful)
    (hz : ∀ b, f.reservedZero b) (b : List Byte) (s : State) (hb : b.length = f.size) :
    ∃ v, exec (f.decoder b) s = .next (s.respond .ok (f.answer v)) ∧
      exec (f.encoder v) s = .next (s.respond .ok (.bytes b)) := by
  obtain ⟨v, hd, he⟩ := hf.encoder_decoder b s hb
  exact ⟨v, hd, he.2 (hz b)⟩

/-! The obligations. -/

/-- Settles O24: the two directions of a lawful format, for the five formats. -/
theorem entryFormsAreInverse : Obligations.EntryFormsAreInverse :=
  ⟨pde32Format_lawful.decoder_encoder, pml4eFormat_lawful.decoder_encoder, pdpteFormat_lawful.decoder_encoder,
    pde64Format_lawful.decoder_encoder, pte64Format_lawful.decoder_encoder,
    pde32Format_lawful.encoder_decoder_of_unreserved fun _ => trivial, pml4eFormat_lawful.encoder_decoder,
    pdpteFormat_lawful.encoder_decoder_of_unreserved fun _ => trivial,
    pde64Format_lawful.encoder_decoder_of_unreserved fun _ => trivial,
    pte64Format_lawful.encoder_decoder_of_unreserved fun _ => trivial⟩

/-- Settles O21: the number `pde32Word` builds, and the fields of the number the four bytes hold. -/
theorem pde32EncodesAndDecodes : Obligations.Pde32EncodesAndDecodes := by
  constructor
  · intro v s
    rw [← pde32Word_toNat]
    exact ⟨rfl, pde32Format_lawful.exec_encoder v s⟩
  · intro b s hb
    have hword : (leAt 32 b 0 4).toNat = fromLE b := by
      rw [toNat_leAt (w := 32) rfl (by omega), slice_self hb]
    have hlt := (leAt 32 b 0 4).isLt
    have hback : encodePde32 (decodePde32 b) = b := (encodePde32_eq_iff hb _).2 rfl
    refine ⟨decodePde32 b, rfl, pde32Format_lawful.exec_decoder hb s, ?_⟩
    have hencode : exec (.encPde32 (decodePde32 b)) s = .next (s.respond .ok (.bytes b)) := next_bytes_eq_iff.2 hback
    rw [hencode, eq_self, and_true, ← hword]
    simp only [decodePde32, pde32OfWord, toNat_extractLsb, true_and]
    omega

/-- Settles O22: the number `entry64Word` builds, with bit 7 as each encoder has it. -/
theorem wideEntryEncodersBuildTheEntry : Obligations.WideEntryEncodersBuildTheEntry := by
  refine ⟨fun v s => ⟨rfl, ?_⟩, fun v s => ⟨rfl, rfl, ?_, rfl⟩, fun v s => ⟨rfl, ?_⟩⟩
  · refine (pml4eFormat_lawful.exec_encoder v s).trans ?_
    simp only [pml4eFormat, encodePml4e, leBits, entry64Word_toNat, BitVec.toNat_ofNat, Nat.zero_mod, Nat.zero_mul,
      Nat.add_zero]
  · rw [← entry64Word_toNat]
    exact pdpteFormat_lawful.exec_encoder v s
  · rw [← entry64Word_toNat]
    exact pte64Format_lawful.exec_encoder v s

/-- Settles O23: the fields of the number the eight bytes hold. -/
theorem wideEntryDecodersReadTheFields : Obligations.WideEntryDecodersReadTheFields := by
  intro b s hb
  have hlt := (entryWord b).isLt
  have hback : encodePdpte (decodePdpte b) = b := (encodeDirEntry_eq_iff hb _).2 rfl
  rw [← entryWord_toNat hb]
  refine ⟨rfl, rfl, rfl, rfl, ⟨decodePml4e b, pml4eFormat_lawful.exec_decoder hb s, ?_⟩,
    ⟨decodePdpte b, pdpteFormat_lawful.exec_decoder hb s, pde64Format_lawful.exec_decoder hb s,
      next_bytes_eq_iff.2 hback, ?_⟩,
    ⟨decodePte64 b, pte64Format_lawful.exec_decoder hb s, ?_⟩⟩
  · simp only [decodePml4e, toNat_extractLsb, true_and]
    omega
  · simp only [decodePdpte, decodeDirEntry, toNat_extractLsb, true_and]
    omega
  · simp only [decodePte64, toNat_extractLsb, true_and]
    omega

end Sys2Proof.Machine
end

section
/-! PROOFS. Table addresses and the page walks (43_pte_encoders_and_walk.md R175 to R183). Each level of a walk is one lemma:
what it answers, by the number of the entry it reads. -/

namespace Sys2Proof.Machine

/-! Bits of a value. -/

theorem extractLsb_eq_zero_iff {w : Nat} (x : BitVec w) (hi lo : Nat) :
    x.extractLsb hi lo = 0 ↔ x.toNat / 2 ^ lo % 2 ^ (hi - lo + 1) = 0 := by
  rw [← BitVec.toNat_inj, toNat_extractLsb, BitVec.ofNat_eq_ofNat, BitVec.toNat_ofNat, Nat.zero_mod]

theorem extractLsb_bit_eq_one_iff {w : Nat} (x : BitVec w) (i : Nat) :
    x.extractLsb i i = 1 ↔ x.toNat / 2 ^ i % 2 = 1 := by
  rw [← BitVec.toNat_inj, toNat_extractLsb, Nat.sub_self]
  rfl

theorem extractLsb_eq_ofNat {w : Nat} (x : BitVec w) (hi lo : Nat) :
    x.extractLsb hi lo = BitVec.ofNat (hi - lo + 1) (x.toNat / 2 ^ lo) := by
  rw [← BitVec.toNat_inj, toNat_extractLsb, BitVec.toNat_ofNat]

/-- The mask of R175 (a) clears the low three bits. -/
theorem toNat_and_fff8 (x : BitVec 16) : (x &&& 0xFFF8#16).toNat = x.toNat / 8 * 8 := by
  have hshift : x &&& 0xFFF8#16 = (x >>> 3) <<< 3 := by
    ext i hi
    interval_cases i <;> simp
  have hx := x.isLt
  rw [hshift, BitVec.toNat_shiftLeft, BitVec.toNat_ushiftRight, Nat.shiftLeft_eq, Nat.shiftRight_eq_div_pow]
  omega

/-- An address is not canonical exactly between the two halves (R182). -/
theorem canonical_eq_false_iff (va : BitVec 64) :
    canonical va = false ↔ 2 ^ 47 ≤ va.toNat ∧ va.toNat < 2 ^ 64 - 2 ^ 47 := by
  have hsign : ∀ b : BitVec 1, (b.signExtend 16).toNat = b.toNat * 0xFFFF := by decide
  have hva := va.isLt
  have hhigh : va.toNat / 2 ^ 48 = va.toNat / 2 ^ 47 / 2 := by omega
  have hbounds : 2 ^ 47 ≤ va.toNat ∧ va.toNat < 2 ^ 64 - 2 ^ 47 ↔
      1 ≤ va.toNat / 2 ^ 47 ∧ va.toNat / 2 ^ 47 < 2 ^ 17 - 1 := by omega
  rw [canonical, beq_eq_false_iff_ne, ne_eq, ← BitVec.toNat_inj, hsign, toNat_extractLsb, toNat_extractLsb, hhigh, hbounds]
  omega

/-! Addresses of entries (R175 (d)). -/

theorem descAddr_eq (base : Nat) (selector : BitVec 16) : descAddr base selector = base + selector.toNat / 8 * 8 := by
  rw [descAddr, toNat_and_fff8]

theorem pde32Addr_eq (cr3 : BitVec 64) (va : BitVec 32) :
    pde32Addr cr3 va = cr3.toNat / 2 ^ 12 % 2 ^ 20 * 4096 + 4 * (va.toNat / 2 ^ 22) := by
  have hva := va.isLt
  rw [pde32Addr, root32, tableAddr, toNat_extractLsb, toNat_extractLsb]
  omega

theorem pml4eAddr_eq (cr3 va : BitVec 64) :
    pml4eAddr cr3 va = cr3.toNat / 2 ^ 12 % 2 ^ 40 * 4096 + 8 * (va.toNat / 2 ^ 39 % 2 ^ 9) := by
  rw [pml4eAddr, root64, tableAddr, toNat_extractLsb, toNat_extractLsb]

theorem pdpteAddr_eq (n : Nat) (va : BitVec 64) :
    pdpteAddr (BitVec.ofNat 40 n) va = n % 2 ^ 40 * 4096 + 8 * (va.toNat / 2 ^ 30 % 2 ^ 9) := by
  rw [pdpteAddr, tableAddr, toNat_extractLsb, BitVec.toNat_ofNat]

theorem pde64Addr_eq (n : Nat) (va : BitVec 64) :
    pde64Addr (BitVec.ofNat 40 n) va = n % 2 ^ 40 * 4096 + 8 * (va.toNat / 2 ^ 21 % 2 ^ 9) := by
  rw [pde64Addr, tableAddr, toNat_extractLsb, BitVec.toNat_ofNat]

theorem pte64Addr_eq (n : Nat) (va : BitVec 64) :
    pte64Addr (BitVec.ofNat 40 n) va = n % 2 ^ 40 * 4096 + 8 * (va.toNat / 2 ^ 12 % 2 ^ 9) := by
  rw [pte64Addr, tableAddr, toNat_extractLsb, BitVec.toNat_ofNat]

/-! The levels. `a` is the address of the entry read and `e` the entry's number. -/

/-- A part of a command that begins with a read. -/
theorem memRead_andThen {α : Type} (a n : Nat) (s : State) (k : List Byte → State → Attempt α) :
    (memRead a n s).andThen k = if s.mem.len < a + n then .failed .outOfBounds s else k (s.mem.read a n) s := by
  rcases memRead_cases a n s with ⟨hle, h⟩ | ⟨hlt, h⟩ <;> rw [h]
  · rw [if_neg (by omega), Attempt.andThen_done]
  · rw [if_pos hlt, Attempt.andThen_failed]

theorem entryWord_pfn_eq (b : List Byte) :
    (entryWord b).extractLsb 51 12 = BitVec.ofNat 40 ((entryWord b).toNat / 2 ^ 12) := extractLsb_eq_ofNat _ 51 12

theorem pse_eq_false_iff (r : Regs) : (r.fieldGet (.cr4 .pse) == 1) = false ↔ r.cr4.toNat / 2 ^ 4 % 2 = 0 := by
  have hbit : (r.fieldGet (.cr4 .pse)).toNat = r.cr4.toNat / 2 ^ 4 % 2 := getBitsAt_toNat _ 4 (by omega)
  rw [beq_eq_false_iff_ne, ne_eq, ← BitVec.toNat_inj, hbit, show (1 : BitVec 64).toNat = 1 from rfl]
  omega

/-- The directory entry of WALK32 (R181). -/
theorem walk32_eq {s : State} {va : BitVec 32} {a e : Nat}
    (ha : a = s.regs.cr3.toNat / 2 ^ 12 % 2 ^ 20 * 4096 + 4 * (va.toNat / 2 ^ 22)) (he : e = fromLE (s.mem.read a 4)) :
    walk32 va s =
      if s.mem.len < a + 4 then .failed .outOfBounds s
      else .done
        (if e % 2 = 0 then .notPresent .pd32
        else if e / 2 ^ 7 % 2 = 0 then .unsupported .pd32
        else if s.regs.cr4.toNat / 2 ^ 4 % 2 = 0 then .unsupported .pd32
        else if e / 2 ^ 12 % 2 ^ 10 ≠ 0 then .unsupported .pd32
        else .mapped (e / 2 ^ 22 * 2 ^ 22 + va.toNat % 2 ^ 22) .size4M) s := by
  have hword : (leAt 32 (s.mem.read a 4) 0 4).toNat = e := by
    rw [toNat_leAt (w := 32) rfl (by simp), slice_self (by simp), he]
  have hlt : e < 2 ^ 32 := hword ▸ BitVec.isLt _
  have hlow : e / 2 ^ 12 % 2 ^ 20 % 2 ^ 10 = e / 2 ^ 12 % 2 ^ 10 := by omega
  have hpage : e / 2 ^ 12 % 2 ^ 20 / 2 ^ 10 % 2 ^ 10 = e / 2 ^ 22 := by omega
  rw [walk32, memRead_andThen, pde32Addr_eq, ← ha]
  simp only [walk32Entry, decodePde32, pde32OfWord, extractLsb_eq_zero_iff, toNat_append_add, toNat_extractLsb, hword,
    pse_eq_false_iff, ne_eq]
  simp only [Nat.reduceSub, Nat.reduceAdd, Nat.pow_zero, Nat.div_one, Nat.pow_one, hlow, hpage]

theorem entryWord_read_toNat (m : Memory) (a : Nat) : (entryWord (m.read a 8)).toNat = fromLE (m.read a 8) :=
  entryWord_toNat (m.read_length a 8)

/-- The fourth level of WALK64 (R183). -/
theorem walkPt_eq {s : State} {va : BitVec 64} {n a e : Nat}
    (ha : a = n % 2 ^ 40 * 4096 + 8 * (va.toNat / 2 ^ 12 % 2 ^ 9)) (he : e = fromLE (s.mem.read a 8)) :
    walkPt va (BitVec.ofNat 40 n) s =
      if s.mem.len < a + 8 then .failed .outOfBounds s
      else if e % 2 = 0 then .done (.notPresent .pt) s
      else .done (.mapped (e / 2 ^ 12 % 2 ^ 40 * 2 ^ 12 + va.toNat % 2 ^ 12) .size4K) s := by
  rw [walkPt, memRead_andThen, pte64Addr_eq, ← ha]
  simp only [decodePte64, extractLsb_eq_zero_iff, toNat_append_add, toNat_extractLsb, entryWord_read_toNat, ← he]
  simp only [Nat.reduceSub, Nat.reduceAdd, Nat.pow_zero, Nat.div_one, Nat.pow_one]

/-- The third level of WALK64 (R183). -/
theorem walkPd_eq {s : State} {va : BitVec 64} {n a e : Nat}
    (ha : a = n % 2 ^ 40 * 4096 + 8 * (va.toNat / 2 ^ 21 % 2 ^ 9)) (he : e = fromLE (s.mem.read a 8)) :
    walkPd va (BitVec.ofNat 40 n) s =
      if s.mem.len < a + 8 then .failed .outOfBounds s
      else if e % 2 = 0 then .done (.notPresent .pd) s
      else if e / 2 ^ 7 % 2 = 1 then
        if e / 2 ^ 12 % 2 ^ 9 ≠ 0 then .done (.unsupported .pd) s
        else .done (.mapped (e / 2 ^ 21 % 2 ^ 31 * 2 ^ 21 + va.toNat % 2 ^ 21) .size2M) s
      else walkPt va (BitVec.ofNat 40 (e / 2 ^ 12)) s := by
  have hlow : e / 2 ^ 12 % 2 ^ 40 % 2 ^ 9 = e / 2 ^ 12 % 2 ^ 9 := by omega
  have hpage : e / 2 ^ 12 % 2 ^ 40 / 2 ^ 9 % 2 ^ 31 = e / 2 ^ 21 % 2 ^ 31 := by omega
  rw [walkPd, memRead_andThen, pde64Addr_eq, ← ha]
  simp only [decodePde64, decodeDirEntry, extractLsb_eq_zero_iff, extractLsb_bit_eq_one_iff, toNat_append_add,
    toNat_extractLsb, entryWord_pfn_eq, entryWord_read_toNat, ← he, BitVec.toNat_ofNat,
    ne_eq]
  simp only [Nat.reduceSub, Nat.reduceAdd, Nat.pow_zero, Nat.div_one, Nat.pow_one, hlow, hpage]

/-- The second level of WALK64 (R183). -/
theorem walkPdpt_eq {s : State} {va : BitVec 64} {n a e : Nat}
    (ha : a = n % 2 ^ 40 * 4096 + 8 * (va.toNat / 2 ^ 30 % 2 ^ 9)) (he : e = fromLE (s.mem.read a 8)) :
    walkPdpt va (BitVec.ofNat 40 n) s =
      if s.mem.len < a + 8 then .failed .outOfBounds s
      else if e % 2 = 0 then .done (.notPresent .pdpt) s
      else if e / 2 ^ 7 % 2 = 1 then
        if e / 2 ^ 12 % 2 ^ 18 ≠ 0 then .done (.unsupported .pdpt) s
        else .done (.mapped (e / 2 ^ 30 % 2 ^ 22 * 2 ^ 30 + va.toNat % 2 ^ 30) .size1G) s
      else walkPd va (BitVec.ofNat 40 (e / 2 ^ 12)) s := by
  have hlow : e / 2 ^ 12 % 2 ^ 40 % 2 ^ 18 = e / 2 ^ 12 % 2 ^ 18 := by omega
  have hpage : e / 2 ^ 12 % 2 ^ 40 / 2 ^ 18 % 2 ^ 22 = e / 2 ^ 30 % 2 ^ 22 := by omega
  rw [walkPdpt, memRead_andThen, pdpteAddr_eq, ← ha]
  simp only [decodePdpte, decodeDirEntry, extractLsb_eq_zero_iff, extractLsb_bit_eq_one_iff, toNat_append_add,
    toNat_extractLsb, entryWord_pfn_eq, entryWord_read_toNat, ← he, BitVec.toNat_ofNat,
    ne_eq]
  simp only [Nat.reduceSub, Nat.reduceAdd, Nat.pow_zero, Nat.div_one, Nat.pow_one, hlow, hpage]

/-- The check of the address and the first level of WALK64 (R183). -/
theorem walk64_eq {s : State} {va : BitVec 64} {a e : Nat}
    (ha : a = s.regs.cr3.toNat / 2 ^ 12 % 2 ^ 40 * 4096 + 8 * (va.toNat / 2 ^ 39 % 2 ^ 9))
    (he : e = fromLE (s.mem.read a 8)) :
    walk64 va s =
      if 2 ^ 47 ≤ va.toNat ∧ va.toNat < 2 ^ 64 - 2 ^ 47 then .done .nonCanonical s
      else if s.mem.len < a + 8 then .failed .outOfBounds s
      else if e % 2 = 0 then .done (.notPresent .pml4) s
      else if e / 2 ^ 7 % 2 = 1 then .done (.unsupported .pml4) s
      else walkPdpt va (BitVec.ofNat 40 (e / 2 ^ 12)) s := by
  rw [walk64, memRead_andThen, pml4eAddr_eq, ← ha]
  simp only [canonical_eq_false_iff, decodePml4e, extractLsb_eq_zero_iff, extractLsb_bit_eq_one_iff, entryWord_pfn_eq,
    entryWord_read_toNat, ← he, Nat.reduceSub, Nat.reduceAdd, Nat.pow_zero, Nat.div_one, Nat.pow_one]

/-! The commands. -/

/-- The state in which a walk leaves the block: its answer, or its failure. -/
def Attempt.walkState : Attempt WalkResult → State
  | .done w s => s.respond .ok (.walk w)
  | .failed k s => s.takeFailure k

theorem Attempt.walkState_done (w : WalkResult) (s : State) :
    (Attempt.done w s).walkState = s.respond .ok (.walk w) := rfl

theorem Attempt.walkState_failed (k : FailKind) (s : State) :
    (Attempt.failed k s).walkState = s.takeFailure k := rfl

section Commands
variable {s : State} (h : s.accepting = true)
include h

theorem exec_descAddr_of_accepting (selector : BitVec 16) :
    exec (.descAddr selector) s =
      .next (s.respond .ok (.addr (s.regs.gdtr.base.toNat + selector.toNat / 8 * 8))) := by
  rw [exec, execDescAddr, stateCommand_accepting h, finish_done, descAddr_eq, Regs.getTable]

theorem exec_walk32_of_accepting (va : BitVec 32) : exec (.walk32 va) s = .next (walk32 va s).walkState := by
  rw [exec, execWalk32, stateCommand_accepting h]
  cases walk32 va s <;> rfl

theorem exec_walk64_of_accepting (va : BitVec 64) : exec (.walk64 va) s = .next (walk64 va s).walkState := by
  rw [exec, execWalk64, stateCommand_accepting h]
  cases walk64 va s <;> rfl

end Commands

/-! The obligations. -/

/-- Settles O47: the mask clears the low three bits. -/
theorem descAddrAddsTheMaskedSelector : Obligations.DescAddrAddsTheMaskedSelector :=
  fun _ selector hs => ⟨rfl, exec_descAddr_of_accepting hs selector⟩

/-- Settles O48: the one level of WALK32. -/
theorem walk32AnswersTheDirectoryEntry : Obligations.Walk32AnswersTheDirectoryEntry := by
  intro s va a e hs ha he
  refine ⟨rfl, ?_⟩
  rw [exec_walk32_of_accepting hs, walk32_eq ha he]
  simp only [apply_ite Attempt.walkState, Attempt.walkState_done, Attempt.walkState_failed,
    State.takeFailure_of_accepting hs]

/-- Settles O49: the four levels of WALK64, each going on to the next. -/
theorem walk64FollowsTheFourLevels : Obligations.Walk64FollowsTheFourLevels := by
  intro s va a4 e4 a3 e3 a2 e2 a1 e1 hs ha4 he4 ha3 he3 ha2 he2 ha1 he1
  refine ⟨rfl, ?_⟩
  rw [exec_walk64_of_accepting hs, walk64_eq ha4 he4, walkPdpt_eq ha3 he3, walkPd_eq ha2 he2, walkPt_eq ha1 he1]
  simp only [apply_ite Attempt.walkState, Attempt.walkState_done, Attempt.walkState_failed,
    State.takeFailure_of_accepting hs]

end Sys2Proof.Machine
end

section
/-! PROOFS. The identity map (43_pte_encoders_and_walk.md R184): what a completed SETUP_PAGING has written (45_mode_setup.md
R226 to R228), and the walks through it. -/

namespace Sys2Proof

/-- Entries of one length, one after the other: the slice at the place of the `i`-th is the `i`-th. -/
theorem slice_flatMap {α : Type} {f : α → List Byte} {n : Nat} (hf : ∀ x, (f x).length = n) {l : List α} {i : Nat}
    (hi : i < l.length) : slice (l.flatMap f) (n * i) n = f l[i] := by
  induction l generalizing i with
  | nil => cases hi
  | cons x t ih =>
    rw [List.flatMap_cons]
    cases i with
    | zero =>
      rw [Nat.mul_zero, slice_append_left (by rw [hf, Nat.zero_add]), slice_self (hf x), List.getElem_cons_zero]
    | succ i =>
      rw [slice_append_right (by rw [hf]; exact Nat.le_mul_of_pos_right n i.succ_pos), hf, Nat.mul_succ,
        Nat.add_sub_cancel, ih (Nat.lt_of_succ_lt_succ hi), List.getElem_cons_succ]

namespace Machine

/-! Reads of an arena that was grown and written. -/

/-- Reading a part of what was just written. -/
theorem Memory.read_write_inside {m : Memory} (h : m.wf) {a i n : Nat} {v : List Byte} (hb : a + v.length ≤ m.len)
    (hi : i + n ≤ v.length) : (m.write a v).read (a + i) n = slice v i n := by
  apply bytes_ext (by rw [Memory.read_length, slice_length]; omega)
  intro j hj
  rw [Memory.read_length] at hj
  rw [Memory.read_getD (Memory.wf_write h hb) _ hj, Memory.byte_write h, if_pos ⟨by omega, by omega⟩, slice,
    List.getD_eq_getElem?_getD, List.getD_eq_getElem?_getD, List.getElem?_take_of_lt hj, List.getElem?_drop,
    show a + i + j - a = i + j by omega]

/-- What an allocation adds reads as zeros (20_memory.md R51). -/
theorem Memory.read_grow_of_ge {m : Memory} (h : m.wf) {len a n : Nat} (hlen : m.len ≤ len) (ha : m.len ≤ a) :
    (m.grow len).read a n = zeroBytes n := by
  rw [Memory.read_eq_map (Memory.wf_grow h hlen), zeroBytes, List.eq_replicate_iff]
  refine ⟨by simp, fun b hb => ?_⟩
  obtain ⟨i, _, rfl⟩ := List.mem_map.1 hb
  exact Memory.byte_ge h (by omega)

/-! Parts of a setup that complete. -/

theorem assertThat_eq_done {c : Bool} {k : FailKind} {s u : State} (h : assertThat c k s = .done () u) :
    c = true ∧ u = s := by
  cases c
  · cases h
  · cases h
    exact ⟨rfl, rfl⟩

theorem alloc_eq_done {size alignment a : Nat} {s u : State} (h : alloc size alignment s = .done a u) :
    a = alignUp s.mem.len alignment ∧ u = s.setMem (s.mem.grow (a + size)) := by
  rcases alloc_cases size alignment s with ⟨_, e⟩ | ⟨_, e⟩ <;> rw [e] at h <;> cases h
  exact ⟨rfl, rfl⟩

theorem memWrite_eq_done {a : Nat} {v : List Byte} {s u : State} (h : memWrite a v s = .done () u) :
    a + v.length ≤ s.mem.len ∧ u = s.setMem (s.mem.write a v) := by
  rcases memWrite_cases a v s with ⟨hb, e⟩ | ⟨_, e⟩ <;> rw [e] at h <;> cases h
  exact ⟨hb, rfl⟩

/-- What BuildLegacy has done when it completes (R227). -/
theorem buildLegacy_eq_done {s u : State} {pd : Nat} (h : buildLegacy s = .done pd u) :
    pd = alignUp s.mem.len 4096 ∧ pd < 2 ^ 32 ∧ u = s.setMem ((s.mem.grow (pd + 4096)).write pd legacyDirectory) := by
  obtain ⟨pd', s1, halloc, h⟩ := Attempt.andThen_eq_done.1 h
  obtain ⟨_, s2, hassert, h⟩ := Attempt.andThen_eq_done.1 h
  obtain ⟨_, s3, hwrite, h⟩ := Attempt.andThen_eq_done.1 h
  obtain ⟨hpd, rfl⟩ := alloc_eq_done halloc
  obtain ⟨hlt, rfl⟩ := assertThat_eq_done hassert
  obtain ⟨_, rfl⟩ := memWrite_eq_done hwrite
  cases h
  exact ⟨hpd, of_decide_eq_true hlt, rfl⟩

/-- What BuildLong has done when it completes (R228): the second table is allocated right after the first. -/
theorem buildLong_eq_done {s u : State} {top : Nat} (h : buildLong s = .done top u) :
    top = alignUp s.mem.len 4096 ∧ top + 4096 < 2 ^ 52 ∧
      u = s.setMem (((s.mem.grow (top + 8192)).write top (encodePml4e (topEntry (top + 4096)))).write (top + 4096)
        longDirectory) := by
  obtain ⟨top', s1, halloc, h⟩ := Attempt.andThen_eq_done.1 h
  obtain ⟨pdpt, s2, halloc', h⟩ := Attempt.andThen_eq_done.1 h
  obtain ⟨_, s3, hassert, h⟩ := Attempt.andThen_eq_done.1 h
  obtain ⟨_, s4, hwrite, h⟩ := Attempt.andThen_eq_done.1 h
  obtain ⟨_, s5, hwrite', h⟩ := Attempt.andThen_eq_done.1 h
  obtain ⟨htop, rfl⟩ := alloc_eq_done halloc
  obtain ⟨hpdpt, rfl⟩ := alloc_eq_done halloc'
  obtain ⟨hlt, rfl⟩ := assertThat_eq_done hassert
  obtain ⟨_, rfl⟩ := memWrite_eq_done hwrite
  obtain ⟨_, rfl⟩ := memWrite_eq_done hwrite'
  cases h
  obtain ⟨hmod, _, _⟩ := alignUp_spec s.mem.len 4096 (by decide)
  have hnext : pdpt = top + 4096 := by
    rw [hpdpt]
    exact alignUp_eq (by rw [htop]; simp [hmod, Config.alignPt]) (Nat.le_refl _) (Nat.lt_add_of_pos_right (by decide))
  subst hnext
  rw [Bool.and_eq_true, decide_eq_true_eq, decide_eq_true_eq] at hlt
  exact ⟨htop, hlt.2, rfl⟩

/-! The tables as numbers. -/

theorem encodePde32_legacyEntry {i : Nat} (hi : i < 1024) :
    encodePde32 (legacyEntry i) = leBytes 4 (i * 2 ^ 22 + 0x87) := by
  have hword : (pde32Word (legacyEntry i)).toNat = i * 2 ^ 22 + 0x87 := by
    simp only [pde32Word_toNat, legacyEntry, BitVec.ofNat_eq_ofNat, BitVec.toNat_ofNat]
    omega
  rw [encodePde32, leBits, hword]

theorem encodePml4e_topEntry {pdpt : Nat} (hmod : pdpt % 4096 = 0) (hlt : pdpt < 2 ^ 52) :
    encodePml4e (topEntry pdpt) = leBytes 8 (pdpt + 7) := by
  have hword : (dirEntryWord (dirEntryOfPml4e (topEntry pdpt))).toNat = pdpt + 7 := by
    simp only [dirEntryWord, entry64Word_toNat, dirEntryOfPml4e, topEntry, pfnOf, BitVec.ofNat_eq_ofNat,
      BitVec.toNat_ofNat]
    omega
  rw [encodePml4e_eq, encodeDirEntry_eq, leBits, hword]

theorem encodePdpte_longEntry {i : Nat} (hi : i < 512) : encodePdpte (longEntry i) = leBytes 8 (i * 2 ^ 30 + 0x87) := by
  have hword : (dirEntryWord (longEntry i)).toNat = i * 2 ^ 30 + 0x87 := by
    simp only [dirEntryWord, entry64Word_toNat, longEntry, BitVec.ofNat_eq_ofNat, BitVec.toNat_ofNat]
    omega
  rw [encodePdpte, encodeDirEntry_eq, leBits, hword]

theorem slice_legacyDirectory {i : Nat} (hi : i < 1024) :
    slice legacyDirectory (4 * i) 4 = leBytes 4 (i * 2 ^ 22 + 0x87) := by
  rw [legacyDirectory, slice_flatMap (fun _ => encodePde32_length _) (by rwa [List.length_range]), List.getElem_range,
    encodePde32_legacyEntry hi]

theorem slice_longDirectory {i : Nat} (hi : i < 512) :
    slice longDirectory (8 * i) 8 = leBytes 8 (i * 2 ^ 30 + 0x87) := by
  have hlength : ∀ i, (encodePdpte (longEntry i)).length = 8 := fun _ => encodeDirEntry_length _
  rw [longDirectory, slice_flatMap hlength (by rwa [List.length_range]), List.getElem_range,
    encodePdpte_longEntry hi]

/-- The arena holds the identity map's legacy directory at `pd` (R227). -/
structure Memory.HoldsLegacyMap (m : Memory) (pd : Nat) : Prop where
  len : pd + 4096 ≤ m.len
  entry {i : Nat} (hi : i < 1024) : m.read (pd + 4 * i) 4 = leBytes 4 (i * 2 ^ 22 + 0x87)

/-- The arena holds the identity map's long-mode tables at `top` (R228). -/
structure Memory.HoldsLongMap (m : Memory) (top : Nat) : Prop where
  len : top + 8192 ≤ m.len
  first : m.read top 8 = leBytes 8 (top + 4096 + 7)
  rest {i : Nat} (h1 : 1 ≤ i) (hi : i < 512) : m.read (top + 8 * i) 8 = zeroBytes 8
  entry {i : Nat} (hi : i < 512) : m.read (top + 4096 + 8 * i) 8 = leBytes 8 (i * 2 ^ 30 + 0x87)

theorem Memory.holdsLegacyMap_write {m : Memory} (h : m.wf) {pd : Nat} (hpd : m.len ≤ pd) :
    ((m.grow (pd + 4096)).write pd legacyDirectory).HoldsLegacyMap pd where
  len := Nat.le_refl _
  entry {i} hi := by
    rw [Memory.read_write_inside (Memory.wf_grow h (by omega)) (by simp) (by simp; omega), slice_legacyDirectory hi]

theorem Memory.holdsLongMap_write {m : Memory} (h : m.wf) {top : Nat} (htop : m.len ≤ top) (hmod : top % 4096 = 0)
    (hlt : top + 4096 < 2 ^ 52) :
    (((m.grow (top + 8192)).write top (encodePml4e (topEntry (top + 4096)))).write (top + 4096)
      longDirectory).HoldsLongMap top := by
  have hgrow := Memory.wf_grow h (n := top + 8192) (by omega)
  have hfirst : top + (encodePml4e (topEntry (top + 4096))).length ≤ (m.grow (top + 8192)).len := by simp
  have hwrite := Memory.wf_write hgrow hfirst
  have hsecond : top + 4096 + longDirectory.length ≤
      ((m.grow (top + 8192)).write top (encodePml4e (topEntry (top + 4096)))).len := by simp
  refine ⟨Nat.le_refl _, ?_, fun {i} h1 hi => ?_, fun {i} hi => ?_⟩
  · have hsame := Memory.read_write_same hgrow hfirst
    rw [encodePml4e_length] at hsame
    rw [Memory.read_write_disjoint hwrite hsecond (by omega), hsame, encodePml4e_topEntry (by omega) hlt]
  · rw [Memory.read_write_disjoint hwrite hsecond (by omega),
      Memory.read_write_disjoint hgrow hfirst (by rw [encodePml4e_length]; omega),
      Memory.read_grow_of_ge h (by omega) (by omega)]
  · rw [Memory.read_write_inside hwrite hsecond (by rw [longDirectory_length]; omega), slice_longDirectory hi]

/-! The registers. -/

/-- The registers SETUP_PAGING leaves, with the root of its tables in `cr3` (R226). -/
def Regs.enablePaging (r : Regs) (root : Nat) : Regs :=
  ((r.fieldSet (.scalar .cr3) (BitVec.ofNat 64 root)).fieldSet (.cr4 .pse) 1).fieldSet (.cr0 .pg) 1

theorem Regs.enablePaging_cr3 (r : Regs) (root : Nat) : (r.enablePaging root).cr3 = BitVec.ofNat 64 root := rfl

theorem Regs.enablePaging_pse (r : Regs) (root : Nat) : (r.enablePaging root).cr4.toNat / 2 ^ 4 % 2 ≠ 0 := by
  have hpse : (r.enablePaging root).fieldGet (.cr4 .pse) = 1 := by
    rw [enablePaging, Regs.fieldGet_fieldSet_other _ _ (by decide), Regs.fieldGet_fieldSet _ _ _ (by decide)]
  rw [ne_eq, ← pse_eq_false_iff, hpse]
  decide

/-- A SETUP_PAGING that left the latch clear built its tables and then set the registers. -/
theorem exec_setupPaging_of_fault_none {s t : State} (hs : s.accepting = true) (h : exec .setupPaging s = .next t)
    (ht : t.fault = none) :
    ∃ root u, buildTables s = .done root u ∧ t = (u.setRegs (u.regs.enablePaging root)).respond .ok .nothing := by
  rw [exec, execSetupPaging] at h
  rcases stateCommand_next h with ⟨-, r, u, hb, rfl⟩ | ⟨-, k, u, -, rfl⟩ | ⟨hr, -⟩
  · obtain ⟨_, u1, hpaging, hanswer⟩ := Attempt.andThen_eq_done.1 hb
    obtain ⟨_, u2, hassert, hbuild⟩ := Attempt.andThen_eq_done.1 hpaging
    obtain ⟨root, u3, htables, hset⟩ := Attempt.andThen_eq_done.1 hbuild
    obtain ⟨-, rfl⟩ := assertThat_eq_done hassert
    obtain ⟨-, rfl⟩ := Attempt.done.inj hset
    obtain ⟨rfl, rfl⟩ := Attempt.done.inj hanswer
    exact ⟨root, u3, htables, rfl⟩
  · rw [State.takeFailure_fault, Option.or_eq_none_iff] at ht
    cases ht.2
  · rw [hs] at hr
    cases hr

/-- What a completed SETUP_PAGING leaves out of long mode. -/
theorem setupPaging_legacyMap {s t : State} (hs : s.accepting = true) (hw : s.mem.wf)
    (hmode : s.regs.efer.toNat / 2 ^ 10 % 2 = 0) (h : exec .setupPaging s = .next t) (ht : t.fault = none) :
    t.accepting = true ∧ ∃ r pd, t.regs = Regs.enablePaging r pd ∧ pd % 4096 = 0 ∧ pd < 2 ^ 32 ∧
      t.mem.HoldsLegacyMap pd := by
  obtain ⟨pd, u, hb, rfl⟩ := exec_setupPaging_of_fault_none hs h ht
  rw [buildTables, Regs.longMode_eq, hmode, if_neg (by decide)] at hb
  obtain ⟨hpd, hlt, rfl⟩ := buildLegacy_eq_done hb
  obtain ⟨hmod, hle, -⟩ := alignUp_spec s.mem.len 4096 (by decide)
  rw [← hpd] at hmod hle
  exact ⟨by simpa [accepting_iff] using hs, s.regs, pd, rfl, hmod, hlt, Memory.holdsLegacyMap_write hw hle⟩

/-- What a completed SETUP_PAGING leaves in long mode. -/
theorem setupPaging_longMap {s t : State} (hs : s.accepting = true) (hw : s.mem.wf)
    (hmode : s.regs.efer.toNat / 2 ^ 10 % 2 = 1) (h : exec .setupPaging s = .next t) (ht : t.fault = none) :
    t.accepting = true ∧ ∃ r top, t.regs = Regs.enablePaging r top ∧ top % 4096 = 0 ∧ top + 4096 < 2 ^ 52 ∧
      t.mem.HoldsLongMap top := by
  obtain ⟨top, u, hb, rfl⟩ := exec_setupPaging_of_fault_none hs h ht
  rw [buildTables, Regs.longMode_eq, hmode, if_pos (by decide)] at hb
  obtain ⟨root, u1, hlong, hset⟩ := Attempt.andThen_eq_done.1 hb
  obtain ⟨rfl, rfl⟩ := Attempt.done.inj hset
  obtain ⟨htop, hlt, rfl⟩ := buildLong_eq_done hlong
  obtain ⟨hmod, hle, -⟩ := alignUp_spec s.mem.len 4096 (by decide)
  rw [← htop] at hmod hle
  exact ⟨by simpa [accepting_iff] using hs, s.regs.fieldSet (.cr4 .pae) 1, root, rfl, hmod, hlt,
    Memory.holdsLongMap_write hw hle hmod hlt⟩

/-! The walks through the tables. -/

theorem walk32_of_holdsLegacyMap {t : State} {r : Regs} {pd : Nat} (hr : t.regs = r.enablePaging pd)
    (hmod : pd % 4096 = 0) (hlt : pd < 2 ^ 32) (hm : t.mem.HoldsLegacyMap pd) (va : BitVec 32) :
    walk32 va t = .done (.mapped va.toNat .size4M) t := by
  have hva := va.isLt
  have hpage : (va.toNat / 2 ^ 22 * 2 ^ 22 + 0x87) / 2 ^ 22 * 2 ^ 22 + va.toNat % 2 ^ 22 = va.toNat := by omega
  have hpse := r.enablePaging_pse pd
  have haddr : pd + 4 * (va.toNat / 2 ^ 22) = t.regs.cr3.toNat / 2 ^ 12 % 2 ^ 20 * 4096 + 4 * (va.toNat / 2 ^ 22) := by
    rw [hr, Regs.enablePaging_cr3, BitVec.toNat_ofNat]
    omega
  have hentry : va.toNat / 2 ^ 22 * 2 ^ 22 + 0x87 = fromLE (t.mem.read (pd + 4 * (va.toNat / 2 ^ 22)) 4) := by
    rw [hm.entry (by omega), fromLE_leBytes, Nat.mod_eq_of_lt (by omega)]
  have hlen := hm.len
  rw [walk32_eq haddr hentry, if_neg (by omega), if_neg (by omega), if_neg (by omega), hr, if_neg hpse, if_neg (by omega)]
  simp only [hpage]

section LongMap
variable {t : State} {r : Regs} {top : Nat} (hr : t.regs = r.enablePaging top) (hmod : top % 4096 = 0)
  (hlt : top + 4096 < 2 ^ 52) (hm : t.mem.HoldsLongMap top)
include hr hmod hlt hm

/-- Below `2^39` the second-level entry decides. -/
theorem walk64_of_holdsLongMap_of_lt {va : BitVec 64} (hva : va.toNat < 2 ^ 39) :
    walk64 va t = .done (.mapped va.toNat .size1G) t := by
  have hpage : (va.toNat / 2 ^ 30 * 2 ^ 30 + 0x87) / 2 ^ 30 % 2 ^ 22 * 2 ^ 30 + va.toNat % 2 ^ 30 = va.toNat := by omega
  have hlen := hm.len
  have haddr4 : top = t.regs.cr3.toNat / 2 ^ 12 % 2 ^ 40 * 4096 + 8 * (va.toNat / 2 ^ 39 % 2 ^ 9) := by
    rw [hr, Regs.enablePaging_cr3, BitVec.toNat_ofNat]
    omega
  have hentry4 : top + 4096 + 7 = fromLE (t.mem.read top 8) := by
    rw [hm.first, fromLE_leBytes]
    omega
  have haddr3 : top + 4096 + 8 * (va.toNat / 2 ^ 30) =
      (top + 4096 + 7) / 2 ^ 12 % 2 ^ 40 * 4096 + 8 * (va.toNat / 2 ^ 30 % 2 ^ 9) := by omega
  have hentry3 : va.toNat / 2 ^ 30 * 2 ^ 30 + 0x87 = fromLE (t.mem.read (top + 4096 + 8 * (va.toNat / 2 ^ 30)) 8) := by
    rw [hm.entry (by omega), fromLE_leBytes, Nat.mod_eq_of_lt (by omega)]
  rw [walk64_eq haddr4 hentry4, if_neg (by omega), if_neg (by omega), if_neg (by omega), if_neg (by omega),
    walkPdpt_eq haddr3 hentry3, if_neg (by omega), if_neg (by omega), if_pos (by omega), if_neg (by omega)]
  simp only [hpage]

/-- From `2^39` on the top-level entry is 0. -/
theorem walk64_of_holdsLongMap_of_ge {va : BitVec 64} (hva : 2 ^ 39 ≤ va.toNat)
    (hc : va.toNat < 2 ^ 47 ∨ 2 ^ 64 - 2 ^ 47 ≤ va.toNat) :
    walk64 va t = .done (.notPresent .pml4) t := by
  have hlen := hm.len
  have hva64 := va.isLt
  have haddr : top + 8 * (va.toNat / 2 ^ 39 % 2 ^ 9) =
      t.regs.cr3.toNat / 2 ^ 12 % 2 ^ 40 * 4096 + 8 * (va.toNat / 2 ^ 39 % 2 ^ 9) := by
    rw [hr, Regs.enablePaging_cr3, BitVec.toNat_ofNat]
    omega
  have hentry : 0 = fromLE (t.mem.read (top + 8 * (va.toNat / 2 ^ 39 % 2 ^ 9)) 8) := by
    rw [hm.rest (by omega) (by omega), ← leBytes_zero, fromLE_leBytes, Nat.zero_mod]
  rw [walk64_eq haddr hentry, if_neg (by omega), if_neg (by omega), if_pos rfl]

end LongMap

/-! The obligation. -/

/-- Settles O44: the tables SETUP_PAGING wrote, and the walks through them. -/
theorem setupPagingMapsAddressesToThemselves : Obligations.SetupPagingMapsAddressesToThemselves := by
  intro s t hs hw h ht
  refine ⟨fun hmode va => ?_, fun hmode => ?_⟩
  · obtain ⟨hacc, r, pd, hr, hmod, hlt, hm⟩ := setupPaging_legacyMap hs hw hmode h ht
    rw [exec_walk32_of_accepting hacc, walk32_of_holdsLegacyMap hr hmod hlt hm, Attempt.walkState_done]
  · obtain ⟨hacc, r, top, hr, hmod, hlt, hm⟩ := setupPaging_longMap hs hw hmode h ht
    refine ⟨fun va hva => ?_, fun va hva hc => ?_⟩
    · rw [exec_walk64_of_accepting hacc, walk64_of_holdsLongMap_of_lt hr hmod hlt hm hva, Attempt.walkState_done]
    · rw [exec_walk64_of_accepting hacc, walk64_of_holdsLongMap_of_ge hr hmod hlt hm hva hc, Attempt.walkState_done]

end Machine
end Sys2Proof
end

section
/-! PROOFS. The segment loader (44_segment_loader.md R190 to R201): LOAD_SEG as one ladder of checks in the order of R193, by the
number `d` of the descriptor at `a`, and the fields a completed load puts into the cache. -/

namespace Sys2Proof.Machine

/-! The descriptor in the arena. -/

/-- A part of a read is a read of that part. -/
theorem Memory.slice_read {m : Memory} (h : m.wf) {a n i k : Nat} (hi : i + k ≤ n) :
    slice (m.read a n) i k = m.read (a + i) k := by
  apply bytes_ext (by rw [slice_length, Memory.read_length, Memory.read_length]; omega)
  intro j hj
  have hj' : j < k := by
    rw [slice_length] at hj
    omega
  rw [Memory.read_getD h _ hj', Nat.add_assoc, ← Memory.read_getD h a (n := n) (by omega), slice,
    List.getD_eq_getElem?_getD, List.getD_eq_getElem?_getD, List.getElem?_take_of_lt hj', List.getElem?_drop]

/-- The fields LOAD_SEG takes from the descriptor at `a`: of the 16-byte form where it is `wide`, else of the 8-byte form with
its base extended by zeros (R190, R196). -/
def Memory.segFields (m : Memory) (a : Nat) (wide : Bool) : SegFields 64 :=
  if wide then decodeSeg64 (m.read a 16) else widenBase (decodeSeg (m.read a 8))

/-- The 16-byte form differs from the 8-byte form in the base only. -/
theorem Memory.segFields_eq {m : Memory} (h : m.wf) (a : Nat) (wide : Bool) :
    m.segFields a wide = segWithBase (decodeSeg (m.read a 8)) (m.segFields a wide).base := by
  cases wide
  · rfl
  · have hlow : decodeSeg (m.read a 16) = decodeSeg (m.read a 8) := by
      rw [← decodeSeg_take]
      exact congrArg decodeSeg (Memory.slice_read h (i := 0) (by omega))
    rw [← hlow]
    rfl

/-- The base is the 32-bit base, with the extension word above it in the 16-byte form (R133, R197). -/
theorem Memory.segFields_base_toNat {m : Memory} (h : m.wf) (a : Nat) (wide : Bool) :
    (m.segFields a wide).base.toNat =
      (segBase32 (word64 (m.read a 8))).toNat + if wide then fromLE (m.read (a + 8) 4) * 2 ^ 32 else 0 := by
  cases wide
  · exact BitVec.toNat_setWidth_of_le (by decide)
  · have hlow : word64 (m.read a 16) = word64 (m.read a 8) := by
      rw [← word64_take]
      exact congrArg word64 (Memory.slice_read h (i := 0) (by omega))
    have hext : (extWord (m.read a 16)).toNat = fromLE (m.read (a + 8) 4) := by
      rw [extWord, toNat_leAt (w := 32) rfl (by rw [Memory.read_length]; omega), Memory.slice_read h (by omega)]
    rw [← hlow, if_pos rfl, ← hext]
    exact segBase64_toNat _ _

/-! The checks (R191 to R193). -/

/-- A part of a command that begins with a check. -/
theorem assertThat_andThen {α : Type} (c : Bool) (k : FailKind) (s : State) (f : Unit → State → Attempt α) :
    (assertThat c k s).andThen f = if c = false then .failed k s else f () s := by cases c <;> rfl

theorem localTable_check_eq_false_iff (selector : BitVec 16) :
    (selector.extractLsb 2 2 == 0) = false ↔ selector.toNat / 2 ^ 2 % 2 = 1 := by
  rw [beq_eq_false_iff_ne, ne_eq, extractLsb_eq_zero_iff]
  omega

theorem systemTypeAccepted_eq_false_iff (t : BitVec 4) :
    systemTypeAccepted t = false ↔ t.toNat ∉ [0b1100, 0b1011, 0b1001] := by
  revert t
  decide

/-- The system path: in long mode the 16 bytes must lie in the arena (R196). -/
theorem loadSystem_eq {s : State} {a d : Nat} (hd : d = fromLE (s.mem.read a 8)) (sreg : Sreg) (selector : BitVec 16) :
    loadSystem sreg selector a (s.mem.read a 8) s =
      if s.regs.efer.toNat / 2 ^ 10 % 2 = 1 ∧ s.mem.len < a + 16 then .failed .outOfBounds s
      else if d / 2 ^ 40 % 2 ^ 4 = 0b1100 then loadCallGate sreg selector (word64 (s.mem.read a 8)) s
      else loadDescriptor sreg selector (s.mem.segFields a (decide (s.regs.efer.toNat / 2 ^ 10 % 2 = 1))) s := by
  have htype : descType (word64 (s.mem.read a 8)) = callGateType ↔ d / 2 ^ 40 % 2 ^ 4 = 0b1100 := by
    rw [← BitVec.toNat_inj, descType_toNat, word64_toNat (s.mem.read_length a 8), ← hd]
    rfl
  simp only [loadSystem, Regs.longMode_eq, htype, memRead_andThen, Memory.segFields, decide_eq_true_eq]
  by_cases hlong : s.regs.efer.toNat / 2 ^ 10 % 2 = 1
  · by_cases hlen : s.mem.len < a + 16
    · rw [if_pos hlong, if_pos hlen, if_pos ⟨hlong, hlen⟩, Attempt.andThen_failed]
    · rw [if_pos hlong, if_neg hlen, if_neg fun hwide => hlen hwide.2, if_pos hlong, Attempt.andThen_done]
  · rw [if_neg hlong, if_neg fun hwide => hlong hwide.1, if_neg hlong, Attempt.andThen_done]

/-- LOAD_SEG, check by check. -/
theorem loadSeg_eq {s : State} {selector : BitVec 16} {a d : Nat}
    (ha : a = s.regs.gdtr.base.toNat + selector.toNat / 8 * 8) (hd : d = fromLE (s.mem.read a 8)) (sreg : Sreg) :
    loadSeg sreg selector s =
      if selector.toNat / 2 ^ 2 % 2 = 1 then .failed .unsupportedFeature s
      else if s.regs.gdtr.limit.toNat < selector.toNat + 7 then .failed .outOfBounds s
      else if s.mem.len < a + 8 then .failed .outOfBounds s
      else if d / 2 ^ 44 % 2 = 1 then loadDescriptor sreg selector (s.mem.segFields a false) s
      else if d / 2 ^ 40 % 2 ^ 4 ∉ [0b1100, 0b1011, 0b1001] then .failed .unsupportedFeature s
      else loadSystem sreg selector a (s.mem.read a 8) s := by
  have hword : (word64 (s.mem.read a 8)).toNat = d := by rw [word64_toNat (s.mem.read_length a 8), hd]
  have hs : descS (word64 (s.mem.read a 8)) = 1 ↔ d / 2 ^ 44 % 2 = 1 := by
    rw [descS, extractLsb_bit_eq_one_iff, hword]
  simp only [loadSeg, assertThat_andThen, memRead_andThen, Regs.getTable, descAddr_eq, ← ha, localTable_check_eq_false_iff,
    Bool.not_eq_false', decide_eq_true_eq, gt_iff_lt, hs, systemTypeAccepted_eq_false_iff, descType_toNat, hword]
  rfl

/-- The rest of the ladder, once the selector and the first eight bytes have passed their checks. -/
theorem loadSeg_of_inside {s : State} {selector : BitVec 16} {a d : Nat}
    (ha : a = s.regs.gdtr.base.toNat + selector.toNat / 8 * 8) (hd : d = fromLE (s.mem.read a 8))
    (hbit : selector.toNat / 2 ^ 2 % 2 = 0) (hlim : selector.toNat + 7 ≤ s.regs.gdtr.limit.toNat) (hlen : a + 8 ≤ s.mem.len)
    (sreg : Sreg) :
    loadSeg sreg selector s =
      if d / 2 ^ 44 % 2 = 1 then loadDescriptor sreg selector (s.mem.segFields a false) s
      else if d / 2 ^ 40 % 2 ^ 4 ∉ [0b1100, 0b1011, 0b1001] then .failed .unsupportedFeature s
      else loadSystem sreg selector a (s.mem.read a 8) s := by
  rw [loadSeg_eq ha hd, if_neg (by omega), if_neg (by omega), if_neg (by omega)]

/-! The command. -/

section Commands
variable {s : State} {sreg : Sreg} {selector : BitVec 16} (h : s.accepting = true)
include h

theorem exec_loadSeg_of_failed {k : FailKind} (hp : loadSeg sreg selector s = .failed k s) :
    exec (.loadSeg sreg selector) s = .next (s.failedWith k) :=
  stateCommand_andThen_of_failed (fun _ => Result.nothing) h hp

theorem exec_loadSeg_of_done {u : State} (hp : loadSeg sreg selector s = .done () u) :
    exec (.loadSeg sreg selector) s = .next (u.respond .ok .nothing) :=
  stateCommand_andThen_of_done (fun _ => Result.nothing) h hp

end Commands

/-- The fields of a gate's cache, of the gate's number (R200). -/
theorem callGateCache_eq (selector : BitVec 16) (w : BitVec 64) (draw : Nat) :
    callGateCache selector w draw =
      { base := Config.freeBase draw, limit := Config.freeLimit draw, selector := selector, type := 0b1100, s := 0
        dpl := BitVec.ofNat 2 (w.toNat / 2 ^ 45), p := BitVec.ofNat 1 (w.toNat / 2 ^ 47), rsvd := 0
        avl := Config.freeAvl draw, l := Config.freeL draw, db := Config.freeDb draw, g := Config.freeG draw } := by
  rw [callGateCache, descDpl, descP, extractLsb_eq_ofNat, extractLsb_eq_ofNat]
  rfl

/-! The obligations. -/

/-- Settles O37: the ladder of checks, one rung for each clause. -/
theorem loadSegReportsTheFirstFailingCheck : Obligations.LoadSegReportsTheFirstFailingCheck := by
  intro s sreg selector a d hs ha hd
  have hload := loadSeg_eq ha hd sreg
  refine ⟨fun hbit => ?_, fun hbit hlim => ?_, fun hbit hlim hlen => ?_, fun hbit hlim hlen hsys htype => ?_,
    fun hbit hlim hlen hsys htype hlong hwide => ?_⟩
  · exact exec_loadSeg_of_failed hs (by rw [hload, if_pos hbit])
  · exact exec_loadSeg_of_failed hs (by rw [hload, if_neg (by omega), if_pos hlim])
  · exact exec_loadSeg_of_failed hs (by rw [hload, if_neg (by omega), if_neg (by omega), if_pos hlen])
  · exact exec_loadSeg_of_failed hs (by rw [loadSeg_of_inside ha hd hbit hlim hlen, if_neg (by omega), if_pos htype])
  · exact exec_loadSeg_of_failed hs (by
      rw [loadSeg_of_inside ha hd hbit hlim hlen, if_neg (by omega), if_neg (not_not_intro htype), loadSystem_eq hd,
        if_pos ⟨hlong, hwide⟩])

/-- Settles O36: the gate's rung of the system path; the open fields are the model's free values. -/
theorem loadSegOfACallGateDrawsTheOpenFields : Obligations.LoadSegOfACallGateDrawsTheOpenFields := by
  refine ⟨Config.freeBase, Config.freeLimit, Config.freeAvl, Config.freeL, Config.freeDb, Config.freeG, ?_⟩
  intro s sreg selector a d hs _ hbit hlim ha hlen hd hsys htype hwide
  have hload : loadSeg sreg selector s = loadCallGate sreg selector (word64 (s.mem.read a 8)) s := by
    rw [loadSeg_of_inside ha hd hbit hlim hlen, if_neg (by omega), if_neg (by rw [htype]; decide), loadSystem_eq hd,
      if_neg (by omega), if_pos htype]
  rw [exec_loadSeg_of_done hs hload, callGateCache_eq, word64_toNat (s.mem.read_length a 8), ← hd]
  rfl

/-- Settles O35: which form of the descriptor is loaded, and its fields. -/
theorem loadSegFillsTheCacheFromTheDescriptor : Obligations.LoadSegFillsTheCacheFromTheDescriptor := by
  refine ⟨rfl, ?_⟩
  intro s sreg selector a d raw hs hwf hbit hlim ha hlen hd hraw htype hwide
  have hword : (word64 (s.mem.read a 8)).toNat = d := by rw [word64_toNat (s.mem.read_length a 8), hd]
  obtain ⟨wide, hform, hload⟩ : ∃ wide : Bool,
      (wide = true ↔ d / 2 ^ 44 % 2 = 0 ∧ s.regs.efer.toNat / 2 ^ 10 % 2 = 1) ∧
        loadSeg sreg selector s = loadDescriptor sreg selector (s.mem.segFields a wide) s := by
    rw [loadSeg_of_inside ha hd hbit hlim hlen]
    by_cases hsys : d / 2 ^ 44 % 2 = 0
    · have htss := htype.resolve_left (by omega)
      have haccepted : d / 2 ^ 40 % 2 ^ 4 ∈ [0b1100, 0b1011, 0b1001] :=
        List.mem_cons_of_mem _ (by simpa using htss)
      refine ⟨decide (s.regs.efer.toNat / 2 ^ 10 % 2 = 1), by rw [decide_eq_true_eq, and_iff_right hsys], ?_⟩
      rw [if_neg (by omega), if_neg (not_not_intro haccepted), loadSystem_eq hd, if_neg (by omega), if_neg (by omega)]
    · exact ⟨false, iff_of_false (by decide) fun hw => hsys hw.1, if_pos (by omega)⟩
  refine ⟨descriptorCache selector (s.mem.segFields a wide), exec_loadSeg_of_done hs hload, ?_, ?_⟩
  · rw [← hword, ← segBase32_toNat, hword, ← if_congr hform rfl rfl]
    exact Memory.segFields_base_toNat hwf a wide
  · rw [Memory.segFields_eq hwf, hraw, ← hword, ← segLimit_toNat, ← if_congr (extractLsb_bit_eq_one_iff _ 55) rfl rfl]
    exact ⟨cacheLimit_toNat _ _, rfl, descType_toNat _, descS_toNat _, descDpl_toNat _, descP_toNat _,
      toNat_extractLsb _ 52 52, toNat_extractLsb _ 53 53, toNat_extractLsb _ 54 54, toNat_extractLsb _ 55 55⟩

end Sys2Proof.Machine
end

section
/-! PROOFS. The mode setups (45_mode_setup.md): how a check, an allocation and a write go on, what a setup answers, and
SETUP_REAL and SETUP_IDT. A setup is one ladder of checks in the order of its pseudocode, like LOAD_SEG's. -/

namespace Sys2Proof

/-! A flag of a control register (R123). -/

theorem setBitsAt_flag_set (r : BitVec 64) {lo : Nat} (h : lo < 64) : setBitsAt r lo 1 1 = r ||| BitVec.twoPow 64 lo := by
  apply BitVec.eq_of_getLsbD_eq
  intro i hi
  rw [setBitsAt_getLsbD _ _ _ _ _ h, BitVec.getLsbD_or, BitVec.getLsbD_twoPow]
  by_cases hlo : i = lo
  · subst hlo
    simp [h]
  · rw [if_neg (by omega)]
    simp [Ne.symm hlo]

theorem setBitsAt_flag_clear (r : BitVec 64) {lo : Nat} (h : lo < 64) :
    setBitsAt r lo 1 0 = r &&& ~~~ BitVec.twoPow 64 lo := by
  apply BitVec.eq_of_getLsbD_eq
  intro i hi
  rw [setBitsAt_getLsbD _ _ _ _ _ h, BitVec.getLsbD_and, BitVec.getLsbD_not, BitVec.getLsbD_twoPow]
  by_cases hlo : i = lo
  · subst hlo
    simp
  · rw [if_neg (by omega)]
    simp [Ne.symm hlo, hi]

namespace Machine

/-! Parts of a setup. -/

/-- A part of a command that begins with an allocation. -/
theorem alloc_andThen {α : Type} (size alignment : Nat) (s : State) (k : Nat → State → Attempt α) :
    (alloc size alignment s).andThen k =
      if memAdmits s.cfg (alignUp s.mem.len alignment + size) = false then .failed .outOfBounds s
      else k (alignUp s.mem.len alignment) (s.setMem (s.mem.grow (alignUp s.mem.len alignment + size))) := by
  rcases alloc_cases size alignment s with ⟨hm, h⟩ | ⟨hm, h⟩ <;> rw [h, hm] <;> rfl

/-- A part of a command that begins with a write inside the arena. -/
theorem memWrite_andThen_of_le {α : Type} {a : Nat} {v : List Byte} {s : State} (h : a + v.length ≤ s.mem.len)
    (k : Unit → State → Attempt α) : (memWrite a v s).andThen k = k () (s.setMem (s.mem.write a v)) := by
  obtain ⟨_, e⟩ := (memWrite_cases a v s).resolve_right (by omega)
  rw [e, Attempt.andThen_done]

/-- A length a bounded MEM_MAX admits. -/
theorem memAdmits_of_some_le {c : Config} {n m : Nat} (h : c.memMax = some m) (hn : n ≤ m) : memAdmits c n = true := by
  simp [memAdmits, h, hn]

/-! The commands. -/

/-- The state in which a setup leaves the block: answered, or with its failure taken. -/
def Attempt.setupState : Attempt Unit → State
  | .done _ s => s.respond .ok .nothing
  | .failed k s => s.takeFailure k

theorem Attempt.setupState_done (s : State) : (Attempt.done () s).setupState = s.respond .ok .nothing := rfl

theorem Attempt.setupState_failed {s : State} (h : s.accepting = true) (k : FailKind) :
    (Attempt.failed k s).setupState = s.failedWith k := State.takeFailure_of_accepting h k

/-- A completed setup has changed the arena, the registers and the answer. -/
theorem setupState_completed (s : State) (m : Memory) (r : Regs) :
    (Attempt.done () ((s.setMem m).setRegs r)).setupState =
      { s with regs := r, mem := m, response := some ⟨.ok, .nothing⟩ } := rfl

section Commands
variable {s : State} (h : s.accepting = true)
include h

/-- A setup is a state command whose body is one part. -/
theorem stateCommand_setup (part : State → Attempt Unit) :
    stateCommand s (fun s => (part s).andThen fun _ u => .done .nothing u) = .next (part s).setupState := by
  rw [stateCommand_accepting h]
  cases part s <;> rfl

theorem exec_setupReal_of_accepting : exec .setupReal s = .next (setupReal s).setupState := stateCommand_setup h setupReal

theorem exec_setupGdt_of_accepting : exec .setupGdt s = .next (setupGdt s).setupState := stateCommand_setup h setupGdt

theorem exec_setupPaging_of_accepting : exec .setupPaging s = .next (setupPaging s).setupState :=
  stateCommand_setup h setupPaging

theorem exec_setupIdt_of_accepting {ds : List (List Byte)} (hds : ∀ d ∈ ds, d.length = 8 ∨ d.length = 16) :
    exec (.setupIdt ds) s = .next (setupIdt ds s).setupState := by
  have htyped : ds.all descriptorLengthOk = true := by
    rw [List.all_eq_true]
    exact fun d hd => by simpa [descriptorLengthOk] using hds d hd
  rw [exec, execSetupIdt, htyped, typed_true]
  exact stateCommand_setup h (setupIdt ds)

/-- A failure after an allocation leaves the arena lengthened and the registers alone. -/
theorem Attempt.setupState_failed_grow (n : Nat) (k : FailKind) :
    (Attempt.failed k (s.setMem (s.mem.grow n))).setupState = { s with mem := { s.mem with len := n } }.failedWith k :=
  Attempt.setupState_failed (s := s.setMem (s.mem.grow n)) h k

end Commands

/-! SETUP_REAL (R210, R211). -/

theorem setupReal_eq (s : State) :
    setupReal s =
      if s.regs.efer.toNat / 2 ^ 10 % 2 = 1 then .failed .preconditionViolation s
      else .done () (s.setRegs ((s.regs.realSegs s.cfg.realSetsSystemSegs).fieldSet (.cr0 .pe) 0)) := by
  simp only [setupReal, assertThat_andThen, Regs.longMode_eq, Bool.not_eq_false', decide_eq_true_eq]

/-- The caches of a list that are written hold FLAT16. -/
theorem Regs.getSeg_foldl_realSeg (written : Bool) (l : List Sreg) (r : Regs) (n : Sreg) :
    (l.foldl (Regs.realSeg written) r).getSeg n = if written = true ∧ n ∈ l then flat16 else r.getSeg n := by
  induction l generalizing r with
  | nil => simp
  | cons k t ih =>
    rw [List.foldl_cons, ih]
    cases written
    · rfl
    · by_cases hk : n = k
      · subst hk
        simp [Regs.realSeg, Regs.loadCache, flat16]
      · simp [Regs.realSeg, Regs.loadCache, Regs.getSeg_setSeg_other _ _ hk, hk]

theorem Regs.getSeg_realSegs (system : Bool) (r : Regs) (n : Sreg) :
    (r.realSegs system).getSeg n = if n ∉ [Sreg.ldtr, .tr] ∨ system = true then flat16 else r.getSeg n := by
  rw [Regs.realSegs, Regs.getSeg_foldl_realSeg, Regs.getSeg_foldl_realSeg]
  cases n <;> simp

theorem Regs.cr0_foldl_realSeg (written : Bool) (l : List Sreg) (r : Regs) :
    (l.foldl (Regs.realSeg written) r).cr0 = r.cr0 := by
  induction l generalizing r with
  | nil => rfl
  | cons k t ih =>
    rw [List.foldl_cons, ih, Regs.realSeg]
    split
    · exact Regs.setSeg_cr0 ..
    · rfl

theorem Regs.cr0_realSegs (system : Bool) (r : Regs) : (r.realSegs system).cr0 = r.cr0 := by
  rw [Regs.realSegs, Regs.cr0_foldl_realSeg, Regs.cr0_foldl_realSeg]

/-- Settles O38: the caches are those of `Regs.realSegs`, and no other register is among SETUP_REAL's writes. -/
theorem setupRealFlattensTheCaches : Obligations.SetupRealFlattensTheCaches := by
  refine ⟨rfl, fun s hs => ⟨fun hmode => ?_, fun hmode => ?_⟩⟩
  · have he : exec .setupReal s =
        .next ((s.setRegs ((s.regs.realSegs s.cfg.realSetsSystemSegs).fieldSet (.cr0 .pe) 0)).respond .ok .nothing) := by
      rw [exec_setupReal_of_accepting hs, setupReal_eq, if_neg (by omega), Attempt.setupState_done]
    have keeps {k : Register} (hk : ¬ Instr.setupReal.Writes k) := (exec_within rfl s _ he).regs.get_eq hk
    refine ⟨(s.regs.realSegs s.cfg.realSetsSystemSegs).fieldSet (.cr0 .pe) 0, he, fun n hn => ?_, fun n hn hsys => ?_,
      fun n => keeps (k := .scalar n) nofun, fun t => keeps (k := .table t) nofun, keeps (k := .rflags) nofun,
      keeps (k := .cr4) nofun, keeps (k := .efer) nofun, ?_⟩
    · exact (Regs.getSeg_realSegs ..).trans (if_pos hn)
    · exact (Regs.getSeg_realSegs ..).trans (if_neg (by simp [hn, hsys]))
    · exact (setBitsAt_flag_clear _ (by decide)).trans (by rw [Regs.cr0_realSegs]; rfl)
  · rw [exec_setupReal_of_accepting hs, setupReal_eq, if_pos hmode, Attempt.setupState_failed hs]

/-! SETUP_IDT (R222). -/

/-- SETUP_IDT, check by check. -/
theorem setupIdt_eq {ds : List (List Byte)} {n : Nat} (hn : n = ds.flatten.length) (s : State) :
    setupIdt ds s =
      if n = 0 ∨ 65536 < n then .failed .preconditionViolation s
      else if 2 ^ 64 ≤ s.mem.len then .failed .outOfBounds s
      else if memAdmits s.cfg (s.mem.len + n) = false then .failed .outOfBounds s
      else .done ()
        ((s.setMem ((s.mem.grow (s.mem.len + n)).write s.mem.len ds.flatten)).installTable .idtr s.mem.len n) := by
  have hsize : (decide (1 ≤ n) && decide (n ≤ 65536)) = false ↔ n = 0 ∨ 65536 < n := by
    rw [Bool.and_eq_false_iff, decide_eq_false_iff_not, decide_eq_false_iff_not]
    omega
  simp only [setupIdt, assertThat_andThen, alloc_andThen, Config.alignIdt, alignUp_one, ← hn, hsize,
    decide_eq_false_iff_not, Nat.not_lt]
  rw [memWrite_andThen_of_le (by simp [hn])]
  rfl

theorem installTable_idtr_regs (s : State) (base n : Nat) :
    (s.installTable .idtr base n).regs = { s.regs with idtr :=
      { base := BitVec.ofNat 64 base, limit := BitVec.ofNat 16 (n - 1), rsvd := s.regs.idtr.rsvd } } := by
  rw [← BitVec.setWidth_ofNat_of_le (show 16 ≤ 64 by decide)]
  rfl

/-- Settles O41: one rung of the ladder for each clause. -/
theorem setupIdtInstallsTheTable : Obligations.SetupIdtInstallsTheTable := by
  refine ⟨rfl, fun s ds n hs hw hds hn => ?_⟩
  rw [exec_setupIdt_of_accepting hs hds, setupIdt_eq hn]
  refine ⟨fun h1 h2 hlen hmax => ?_, fun h1 h2 hfails => ?_, fun hsize => ?_⟩
  · have hgrow := Memory.wf_grow hw (n := s.mem.len + n) (by omega)
    rw [if_neg (by omega), if_neg (by omega), memAdmits_of_le hmax, if_neg (by decide), Attempt.setupState_done]
    refine ⟨(s.mem.grow (s.mem.len + n)).write s.mem.len ds.flatten, ?_, rfl, ?_, fun x hx => ?_⟩
    · rw [← installTable_idtr_regs]
      rfl
    · rw [hn]
      exact Memory.read_write_same hgrow (by simp [hn])
    · rw [Memory.readByte_write_of_not_mem hgrow (.inl hx), Memory.readByte_grow_of_lt (by omega) hx]
  · rw [if_neg (by omega)]
    rcases hfails with hlen | ⟨m, hm, hlt⟩
    · rw [if_pos hlen, Attempt.setupState_failed hs]
    · rw [memAdmits_of_lt hm hlt, if_pos rfl, ite_self, Attempt.setupState_failed hs]
  · rw [if_pos hsize, Attempt.setupState_failed hs]

end Machine
end Sys2Proof
end

section
/-! PROOFS. SETUP_PAGING (45_mode_setup.md R226 to R228): the builds of the tables, check by check, and the registers and the
arena a completed one leaves. -/

namespace Sys2Proof.Machine

/-! The builds. -/

/-- BuildLegacy, check by check (R227). -/
theorem buildLegacy_eq {s : State} {pd : Nat} (hpd : alignUp s.mem.len 4096 = pd) :
    buildLegacy s =
      if memAdmits s.cfg (pd + 4096) = false then .failed .outOfBounds s
      else if 2 ^ 32 ≤ pd then .failed .outOfBounds (s.setMem (s.mem.grow (pd + 4096)))
      else .done pd (s.setMem ((s.mem.grow (pd + 4096)).write pd legacyDirectory)) := by
  simp only [buildLegacy, alloc_andThen, assertThat_andThen, Config.alignPt, hpd, decide_eq_false_iff_not, Nat.not_lt]
  rw [memWrite_andThen_of_le (by simp)]
  rfl

/-- BuildLong, check by check: the second table is allocated right after the first (R228). -/
theorem buildLong_eq {s : State} {top : Nat} (hmod : top % 4096 = 0) (htop : alignUp s.mem.len 4096 = top) :
    buildLong s =
      if memAdmits s.cfg (top + 4096) = false then .failed .outOfBounds s
      else if memAdmits s.cfg (top + 8192) = false then .failed .outOfBounds (s.setMem (s.mem.grow (top + 4096)))
      else if 2 ^ 52 ≤ top + 4096 then .failed .outOfBounds (s.setMem (s.mem.grow (top + 8192)))
      else .done top (s.setMem
        (((s.mem.grow (top + 8192)).write top (encodePml4e (topEntry (top + 4096)))).write (top + 4096) longDirectory)) := by
  have hnext : alignUp (top + 4096) 4096 = top + 4096 := alignUp_eq (by omega) (Nat.le_refl _) (by omega)
  have hfits : (decide (top < 2 ^ 52) && decide (top + 4096 < 2 ^ 52)) = false ↔ 2 ^ 52 ≤ top + 4096 := by
    rw [Bool.and_eq_false_iff, decide_eq_false_iff_not, decide_eq_false_iff_not]
    omega
  simp only [buildLong, alloc_andThen, assertThat_andThen, Config.alignPt, htop, State.setMem_mem, Memory.grow_len,
    State.setMem_cfg, hnext, hfits]
  rw [memWrite_andThen_of_le (by simp), memWrite_andThen_of_le (by simp)]
  rfl

/-! The registers (R226). -/

theorem Regs.enablePaging_eq (r : Regs) (root : Nat) :
    r.enablePaging root =
      { r with cr3 := BitVec.ofNat 64 root, cr4 := r.cr4 ||| 0x10, cr0 := r.cr0 ||| 0x80000000 } := by
  have hpse : setBitsAt r.cr4 Cr4Field.pse.lo 1 1 = r.cr4 ||| 0x10 := setBitsAt_flag_set _ (by decide)
  have hpg : setBitsAt r.cr0 Cr0Field.pg.lo 1 1 = r.cr0 ||| 0x80000000 := setBitsAt_flag_set _ (by decide)
  rw [← hpse, ← hpg]
  rfl

theorem Regs.enablePaging_pae_eq (r : Regs) (root : Nat) :
    (r.fieldSet (.cr4 .pae) 1).enablePaging root =
      { r with cr3 := BitVec.ofNat 64 root, cr4 := r.cr4 ||| 0x30, cr0 := r.cr0 ||| 0x80000000 } := by
  have hpae : setBitsAt r.cr4 Cr4Field.pae.lo 1 1 = r.cr4 ||| 0x20 := setBitsAt_flag_set _ (by decide)
  have hboth : r.cr4 ||| 0x30 = setBitsAt r.cr4 Cr4Field.pae.lo 1 1 ||| 0x10 := by rw [hpae, BitVec.or_assoc]; rfl
  rw [Regs.enablePaging_eq, hboth]
  rfl

/-! The command. -/

/-- The end of SETUP_PAGING: paging enabled with `root` in `cr3`, over the registers as `r` has changed them before. -/
def enablePagingOver (r : Regs → Regs) (root : Nat) (u : State) : Attempt Unit :=
  .done () (u.setRegs ((r u.regs).enablePaging root))

section Commands
variable {s : State} (hs : s.accepting = true)
include hs

theorem exec_setupPaging_of_enabled (hpg : s.regs.cr0.toNat / 2 ^ 31 % 2 = 1) :
    exec .setupPaging s = .next (s.failedWith .preconditionViolation) := by
  rw [exec_setupPaging_of_accepting hs, setupPaging, Regs.pagingEnabled_eq, decide_eq_true hpg, Bool.not_true,
    assertThat_false, Attempt.andThen_failed, Attempt.setupState_failed hs]

theorem exec_setupPaging_of_legacy (hpg : s.regs.cr0.toNat / 2 ^ 31 % 2 = 0) (hmode : s.regs.efer.toNat / 2 ^ 10 % 2 = 0) :
    exec .setupPaging s = .next ((buildLegacy s).andThen (enablePagingOver id)).setupState := by
  rw [exec_setupPaging_of_accepting hs, setupPaging, Regs.pagingEnabled_eq, decide_eq_false (by omega), Bool.not_false,
    assertThat_true, Attempt.andThen_done, buildTables, Regs.longMode_eq, decide_eq_false (by omega), if_neg (by decide)]
  rfl

theorem exec_setupPaging_of_long (hpg : s.regs.cr0.toNat / 2 ^ 31 % 2 = 0) (hmode : s.regs.efer.toNat / 2 ^ 10 % 2 = 1) :
    exec .setupPaging s =
      .next ((buildLong s).andThen (enablePagingOver (Regs.fieldSet · (.cr4 .pae) 1))).setupState := by
  rw [exec_setupPaging_of_accepting hs, setupPaging, Regs.pagingEnabled_eq, decide_eq_false (by omega), Bool.not_false,
    assertThat_true, Attempt.andThen_done, buildTables, Regs.longMode_eq, decide_eq_true hmode, if_pos rfl]
  cases buildLong s <;> rfl

end Commands

/-! The obligations. -/

/-- Settles O42: the arena holds the legacy map, and the one write lies above its old bytes. -/
theorem setupPagingBuildsTheLegacyDirectory : Obligations.SetupPagingBuildsTheLegacyDirectory := by
  refine ⟨rfl, fun s pd hs hw hpg hmode hmod hle hlt hfits hmax => ?_⟩
  have hgrow := Memory.wf_grow hw (n := pd + 4096) (by omega)
  refine ⟨(s.mem.grow (pd + 4096)).write pd legacyDirectory, ?_, rfl, fun x hx => ?_, fun x hx hx' => ?_,
    fun i hi => (Memory.holdsLegacyMap_write hw hle).entry hi⟩
  · rw [exec_setupPaging_of_legacy hs hpg hmode, buildLegacy_eq (alignUp_eq hmod hle hlt), memAdmits_of_le hmax,
      if_neg (by decide), if_neg (by omega), ← Regs.enablePaging_eq, Attempt.andThen_done, enablePagingOver,
      setupState_completed, State.setMem_regs, id]
  · rw [Memory.readByte_write_of_not_mem hgrow (.inl (by omega)), Memory.readByte_grow_of_lt (by omega) hx]
  · rw [Memory.readByte_write_of_not_mem hgrow (.inl hx'), Memory.readByte_grow_of_ge hw hx (by omega)]

/-- Settles O43: the arena holds the long-mode tables, and of the two writes only the first entry's lies in the top-level
table. -/
theorem setupPagingBuildsTheLongModeTables : Obligations.SetupPagingBuildsTheLongModeTables := by
  refine ⟨rfl, fun s top hs hw hpg hmode hmod hle hlt hfits hmax => ?_⟩
  have hgrow := Memory.wf_grow hw (n := top + 8192) (by omega)
  have hfirst : top + (encodePml4e (topEntry (top + 4096))).length ≤ (s.mem.grow (top + 8192)).len := by simp
  have hwrite := Memory.wf_write hgrow hfirst
  have hmap := Memory.holdsLongMap_write hw hle hmod hfits
  have houtside {x : Nat} (hx : x < top ∨ top + 8 ≤ x ∧ x < top + 4096) :
      (((s.mem.grow (top + 8192)).write top (encodePml4e (topEntry (top + 4096)))).write (top + 4096)
        longDirectory).readByte x = (s.mem.grow (top + 8192)).readByte x := by
    rw [Memory.readByte_write_of_not_mem hwrite (.inl (by omega)),
      Memory.readByte_write_of_not_mem hgrow (by rw [encodePml4e_length]; omega)]
  refine ⟨((s.mem.grow (top + 8192)).write top (encodePml4e (topEntry (top + 4096)))).write (top + 4096) longDirectory, ?_,
    rfl, fun x hx => ?_, fun x hx hx' => ?_, hmap.first, fun x hx hx' => ?_, fun i hi => hmap.entry hi⟩
  · rw [exec_setupPaging_of_long hs hpg hmode, buildLong_eq hmod (alignUp_eq hmod hle hlt),
      memAdmits_of_le (n := top + 4096) fun m hm => Nat.le_trans (by omega) (hmax m hm), memAdmits_of_le hmax,
      if_neg (by decide), if_neg (by decide), if_neg (by omega), ← Regs.enablePaging_pae_eq, Attempt.andThen_done,
      enablePagingOver, setupState_completed, State.setMem_regs]
  · rw [houtside (.inl (by omega)), Memory.readByte_grow_of_lt (by omega) hx]
  · rw [houtside (.inl hx'), Memory.readByte_grow_of_ge hw hx (by omega)]
  · rw [houtside (.inr ⟨hx, hx'⟩), Memory.readByte_grow_of_ge hw (by omega) (by omega)]

end Sys2Proof.Machine
end

section
/-! PROOFS. SETUP_GDT (45_mode_setup.md R214 to R216): its ladder of checks, the canonical table byte by byte, and the seven
segment loads, each of which reads the descriptor it needs back from the table just written. -/

namespace Sys2Proof.Machine

/-! The canonical table (R215). -/

/-- The code descriptors are those of the mode: `l` set in long mode, `db` out of it. -/
def codeSegment (long : Bool) : SegFields 32 := flatSegment 0xB 0 (if long then 1 else 0) (if long then 0 else 1)

theorem encodeSeg_tssDescriptor (tss : Nat) :
    encodeSeg (tssDescriptor (BitVec.ofNat 32 tss)) =
      [0x67, 0x00] ++ leBytes 3 tss ++ [0x8B, 0x00] ++ leBytes 1 (tss / 2 ^ 24) := by
  rw [← fromLE_inj (by simp), encodeSeg, leBits, fromLE_leBytes, segWord_toNat]
  simp only [fromLE_append, fromLE_leBytes, fromLE, tssDescriptor, List.length_append, leBytes_length, List.length_cons,
    List.length_nil, BitVec.ofNat_eq_ofNat, BitVec.toNat_ofNat]
  omega

theorem encodeSeg64_tssDescriptor {tss : Nat} (h : tss < 2 ^ 64) :
    encodeSeg64 (tssDescriptor (BitVec.ofNat 64 tss)) =
      encodeSeg (tssDescriptor (BitVec.ofNat 32 tss)) ++ leBytes 4 (tss / 2 ^ 32) ++ zeroBytes 4 := by
  have htss : (BitVec.ofNat 64 tss).toNat = tss := by rw [BitVec.toNat_ofNat, Nat.mod_eq_of_lt h]
  have hlow : segWithBase (tssDescriptor (BitVec.ofNat 64 tss)) ((BitVec.ofNat 64 tss).extractLsb 31 0 : BitVec 32) =
      tssDescriptor (BitVec.ofNat 32 tss) := by
    rw [extractLsb_low, htss]
    rfl
  have hhigh : leBits 4 ((BitVec.ofNat 64 tss).extractLsb 63 32) = leBytes 4 (tss / 2 ^ 32) := by
    rw [leBits, toNat_extractLsb_high, htss]
  rw [encodeSeg64, ← hlow, ← hhigh]
  rfl

/-- The table written out. -/
theorem gdtImage_eq (long : Bool) {tss : Nat} (h : tss < 2 ^ 64) :
    gdtImage long tss =
      [0x00, 0x00, 0x00, 0x00, 0x00, 0x00, 0x00, 0x00] ++
      [0xFF, 0xFF, 0x00, 0x00, 0x00, 0x9B, if long then 0xAF else 0xCF, 0x00] ++
      [0xFF, 0xFF, 0x00, 0x00, 0x00, 0xFB, if long then 0xAF else 0xCF, 0x00] ++
      [0xFF, 0xFF, 0x00, 0x00, 0x00, 0x93, 0xCF, 0x00] ++ [0xFF, 0xFF, 0x00, 0x00, 0x00, 0xF3, 0xCF, 0x00] ++
      [0x67, 0x00] ++ leBytes 3 tss ++ [0x8B, 0x00] ++ leBytes 1 (tss / 2 ^ 24) ++
      (if long then leBytes 4 (tss / 2 ^ 32) ++ [0x00, 0x00, 0x00, 0x00] else []) := by
  cases long
  · rw [gdtImage, if_neg (by decide), encodeSeg_tssDescriptor]
    rfl
  · rw [gdtImage, if_pos rfl, encodeSeg64_tssDescriptor h, encodeSeg_tssDescriptor]
    rfl

theorem gdtImage_length_ge (long : Bool) (tss : Nat) : 48 ≤ (gdtImage long tss).length := by
  rw [gdtImage_length]
  split <;> decide

theorem slice_gdtImage_code (long : Bool) (tss : Nat) :
    slice (gdtImage long tss) (8 * 1) 8 = encodeSeg (codeSegment long) := by cases long <;> rfl

theorem slice_gdtImage_data (long : Bool) (tss : Nat) :
    slice (gdtImage long tss) (8 * 3) 8 = encodeSeg (flatSegment 0x3 0 0 1) := by cases long <;> rfl

/-- The first eight bytes of the last entry are the 8-byte form in both modes. -/
theorem slice_gdtImage_tss (long : Bool) {tss : Nat} (h : tss < 2 ^ 64) :
    slice (gdtImage long tss) (8 * 5) 8 = encodeSeg (tssDescriptor (BitVec.ofNat 32 tss)) := by
  cases long
  · rfl
  · rw [gdtImage, if_pos rfl, encodeSeg64_tssDescriptor h]
    rfl

theorem slice_gdtImage_tss64 (tss : Nat) :
    slice (gdtImage true tss) (8 * 5) 16 = encodeSeg64 (tssDescriptor (BitVec.ofNat 64 tss)) := rfl

/-! A descriptor's number. -/

theorem fromLE_encodeSeg (v : SegFields 32) : fromLE (encodeSeg v) = (segWord v).toNat := by
  rw [encodeSeg, leBits, fromLE_leBytes]
  exact Nat.mod_eq_of_lt (segWord v).isLt

theorem fromLE_encodeSeg_s (v : SegFields 32) : fromLE (encodeSeg v) / 2 ^ 44 % 2 = v.s.toNat := by
  rw [fromLE_encodeSeg, ← descS_toNat]
  exact congrArg (fun f => f.s.toNat) (segOfWord_segWord v)

theorem fromLE_encodeSeg_type (v : SegFields 32) : fromLE (encodeSeg v) / 2 ^ 40 % 2 ^ 4 = v.type.toNat := by
  rw [fromLE_encodeSeg, ← descType_toNat]
  exact congrArg (fun f => f.type.toNat) (segOfWord_segWord v)

/-! The loads (R216). -/

theorem Regs.longMode_of_iff {r : Regs} {long : Bool} (h : long = true ↔ r.efer.toNat / 2 ^ 10 % 2 = 1) :
    r.longMode = long := by
  rw [Regs.longMode_eq, Bool.eq_iff_iff, decide_eq_true_eq, h]

/-- The state's `gdtr` describes the canonical table of its mode for the task-state segment at `tss`, and the arena holds
it. -/
structure State.HoldsGdt (s : State) (long : Bool) (tss : Nat) : Prop where
  wf : s.mem.wf = true
  mode : long = true ↔ s.regs.efer.toNat / 2 ^ 10 % 2 = 1
  fits : tss < if long then 2 ^ 64 else 2 ^ 32
  limit : s.regs.gdtr.limit.toNat + 1 = (gdtImage long tss).length
  inside : s.regs.gdtr.base.toNat + (gdtImage long tss).length ≤ s.mem.len
  table : s.mem.read s.regs.gdtr.base.toNat (gdtImage long tss).length = gdtImage long tss

/-- The cache a selector of the canonical table loads (R217, R218). -/
def gdtCache (long : Bool) (tss : Nat) (selector : BitVec 16) : SegCache :=
  descriptorCache selector
    (if selector = 0x08 then widenBase (codeSegment long)
    else if selector = 0x18 then widenBase (flatSegment 0x3 0 0 1)
    else tssDescriptor (BitVec.ofNat 64 tss))

section Loads
variable {s : State} {long : Bool} {tss : Nat} (h : s.HoldsGdt long tss)
include h

/-- A cache load leaves the table and `gdtr` where they are. -/
theorem State.HoldsGdt.loadCache (n : Sreg) (c : SegCache) : (s.setRegs (s.regs.loadCache n c)).HoldsGdt long tss := by
  have htable : (s.regs.loadCache n c).gdtr = s.regs.gdtr := s.regs.setSeg_getTable n _ .gdtr
  have hefer : (s.regs.loadCache n c).efer = s.regs.efer := s.regs.setSeg_efer n _
  obtain ⟨hwf, hmode, hfits, hlimit, hinside, htab⟩ := h
  refine ⟨hwf, ?_, hfits, ?_, ?_, ?_⟩ <;> simpa only [State.setRegs_regs, State.setRegs_mem, htable, hefer]

theorem State.HoldsGdt.tss_lt : tss < 2 ^ 64 := by
  have := h.fits
  split at this <;> omega

/-- Reading the `k`-th entry of the table. -/
theorem State.HoldsGdt.read_entry {k n : Nat} (hk : 8 * k + n ≤ (gdtImage long tss).length) :
    s.mem.read (s.regs.gdtr.base.toNat + 8 * k) n = slice (gdtImage long tss) (8 * k) n := by
  rw [← Memory.slice_read h.wf hk, h.table]

/-- LOAD_SEG of an entry, up to the branch on the descriptor's kind: the checks before it pass. -/
theorem State.HoldsGdt.loadSeg_entry {k : Nat} {selector : BitVec 16} {v : SegFields 32} (hsel : selector.toNat = 8 * k)
    (hk : k < 6) (hv : slice (gdtImage long tss) (8 * k) 8 = encodeSeg v) (n : Sreg) :
    loadSeg n selector s =
      if v.s.toNat = 1 then
        loadDescriptor n selector (s.mem.segFields (s.regs.gdtr.base.toNat + 8 * k) false) s
      else if v.type.toNat ∉ [0b1100, 0b1011, 0b1001] then .failed .unsupportedFeature s
      else loadSystem n selector (s.regs.gdtr.base.toNat + 8 * k) (s.mem.read (s.regs.gdtr.base.toNat + 8 * k) 8) s := by
  have hlength := gdtImage_length_ge long tss
  have hinside := h.inside
  have hlimit := h.limit
  have haddr : s.regs.gdtr.base.toNat + 8 * k = s.regs.gdtr.base.toNat + selector.toNat / 8 * 8 := by omega
  have hread : encodeSeg v = s.mem.read (s.regs.gdtr.base.toNat + 8 * k) 8 := by rw [h.read_entry (by omega), hv]
  rw [loadSeg_of_inside haddr (congrArg fromLE hread) (by omega) (by omega) (by omega), fromLE_encodeSeg_s,
    fromLE_encodeSeg_type]

/-- A load of a flat segment. -/
theorem State.HoldsGdt.loadSeg_flat {k : Nat} {selector : BitVec 16} {v : SegFields 32} (hsel : selector.toNat = 8 * k)
    (hk : k < 5) (hv : slice (gdtImage long tss) (8 * k) 8 = encodeSeg v) (hs : v.s.toNat = 1) (n : Sreg) :
    loadSeg n selector s = .done () (s.setRegs (s.regs.loadCache n (descriptorCache selector (widenBase v)))) := by
  have hlength := gdtImage_length_ge long tss
  have hfields : s.mem.segFields (s.regs.gdtr.base.toNat + 8 * k) false = widenBase v := by
    rw [Memory.segFields, if_neg (by decide), h.read_entry (by omega), hv, (encodeSeg_eq_iff (encodeSeg_length v) v).1 rfl]
  rw [h.loadSeg_entry hsel (by omega) hv, if_pos hs, hfields, loadDescriptor]

/-- The fields read from the last entry: the 16-byte form is read in long mode, so the whole base arrives in both. -/
theorem State.HoldsGdt.segFields_tss :
    s.mem.segFields (s.regs.gdtr.base.toNat + 8 * 5) long = tssDescriptor (BitVec.ofNat 64 tss) := by
  have hfits := h.fits
  cases long
  · have hbase : (BitVec.ofNat 32 tss).setWidth 64 = BitVec.ofNat 64 tss := by
      apply BitVec.eq_of_toNat_eq
      rw [BitVec.toNat_setWidth, BitVec.toNat_ofNat, BitVec.toNat_ofNat]
      rw [if_neg (by decide)] at hfits
      omega
    rw [Memory.segFields, if_neg (by decide), h.read_entry (by rw [gdtImage_length]; decide),
      slice_gdtImage_tss false h.tss_lt, (encodeSeg_eq_iff (encodeSeg_length _) _).1 rfl, ← hbase]
    rfl
  · rw [Memory.segFields, if_pos rfl, h.read_entry (by rw [gdtImage_length]; decide), slice_gdtImage_tss64,
      ((encodeSeg64_eq_iff (encodeSeg64_length _) _).1 rfl).1]

/-- The load of the task-state segment. -/
theorem State.HoldsGdt.loadSeg_tss (n : Sreg) :
    loadSeg n 0x28 s =
      .done () (s.setRegs (s.regs.loadCache n (descriptorCache 0x28 (tssDescriptor (BitVec.ofNat 64 tss))))) := by
  have hentry := slice_gdtImage_tss long h.tss_lt
  have hlength := gdtImage_length long tss
  have hinside := h.inside
  have hread : encodeSeg (tssDescriptor (BitVec.ofNat 32 tss)) = s.mem.read (s.regs.gdtr.base.toNat + 8 * 5) 8 := by
    rw [h.read_entry (by split at hlength <;> omega), hentry]
  have hwide : ¬ (s.regs.efer.toNat / 2 ^ 10 % 2 = 1 ∧ s.mem.len < s.regs.gdtr.base.toNat + 8 * 5 + 16) := by
    rintro ⟨hlong, hlt⟩
    rw [if_pos (h.mode.2 hlong)] at hlength
    omega
  have hsystem : (tssDescriptor (BitVec.ofNat 32 tss)).s.toNat = 0 := rfl
  have htype : (tssDescriptor (BitVec.ofNat 32 tss)).type.toNat = 0b1011 := rfl
  rw [h.loadSeg_entry (k := 5) rfl (by decide) hentry, hsystem, if_neg (by decide), htype, if_neg (by decide),
    loadSystem_eq (congrArg fromLE hread), if_neg hwide, fromLE_encodeSeg_type, htype, if_neg (by decide),
    ← Regs.longMode_eq, Regs.longMode_of_iff h.mode, h.segFields_tss, loadDescriptor]

theorem State.HoldsGdt.loadSeg_eq {selector : BitVec 16} (hsel : selector ∈ [0x08#16, 0x18#16, 0x28#16]) (n : Sreg) :
    loadSeg n selector s = .done () (s.setRegs (s.regs.loadCache n (gdtCache long tss selector))) := by
  simp only [List.mem_cons, List.not_mem_nil, or_false] at hsel
  rcases hsel with rfl | rfl | rfl
  · exact h.loadSeg_flat (k := 1) rfl (by decide) (slice_gdtImage_code long tss) rfl n
  · exact h.loadSeg_flat (k := 3) rfl (by decide) (slice_gdtImage_data long tss) rfl n
  · exact h.loadSeg_tss n

end Loads

/-- The registers after loads of selectors of the canonical table. -/
def Regs.loadGdtCaches (long : Bool) (tss : Nat) (l : List (Sreg × BitVec 16)) (r : Regs) : Regs :=
  l.foldl (fun r p => r.loadCache p.1 (gdtCache long tss p.2)) r

/-- Such loads cannot fail. -/
theorem State.HoldsGdt.loadSegs_eq {s : State} {long : Bool} {tss : Nat} (h : s.HoldsGdt long tss)
    {l : List (Sreg × BitVec 16)} (hl : ∀ p ∈ l, p.2 ∈ [0x08#16, 0x18#16, 0x28#16]) :
    loadSegs l s = .done () (s.setRegs (s.regs.loadGdtCaches long tss l)) := by
  induction l generalizing s with
  | nil => rfl
  | cons p t ih =>
    rw [loadSegs, h.loadSeg_eq (hl p (List.mem_cons_self ..)), Attempt.andThen_done,
      ih (h.loadCache p.1 _) fun q hq => hl q (List.mem_cons_of_mem p hq)]
    rfl

/-! The ladder (R214). -/

/-- The arena SETUP_GDT leaves: 104 zero bytes for the task-state segment, then the table. -/
def Memory.withGdt (m : Memory) (long : Bool) : Memory :=
  (m.grow (m.len + 104 + (gdtImage long m.len).length)).write (m.len + 104) (gdtImage long m.len)

/-- The registers before the segment loads: `gdtr` describes the table of `n` bytes at `gdt`, and `cr0.pe` is set. -/
def Regs.withGdt (r : Regs) (gdt n : Nat) : Regs :=
  { r with
    gdtr := { base := BitVec.ofNat 64 gdt, limit := BitVec.ofNat 16 (n - 1), rsvd := r.gdtr.rsvd }
    cr0 := r.cr0 ||| 1 }

theorem Regs.withGdt_eq (r : Regs) (gdt n : Nat) :
    (((r.fieldSet (.tableBase .gdtr) (BitVec.ofNat 64 gdt)).fieldSet (.tableLimit .gdtr) (BitVec.ofNat 64 (n - 1))).fieldSet
      (.cr0 .pe) 1) = r.withGdt gdt n := by
  have hpe : setBitsAt r.cr0 Cr0Field.pe.lo 1 1 = r.cr0 ||| 1 := setBitsAt_flag_set _ (by decide)
  rw [Regs.withGdt, ← hpe, ← BitVec.setWidth_ofNat_of_le (show 16 ≤ 64 by decide)]
  rfl

/-- The state in which SETUP_GDT loads the segments. -/
def State.withGdt (s : State) (long : Bool) : State :=
  (s.setMem (s.mem.withGdt long)).setRegs (s.regs.withGdt (s.mem.len + 104) (gdtImage long s.mem.len).length)

theorem Regs.gdtInstalled_iff (r : Regs) : r.gdtInstalled = true ↔ ¬ (r.gdtr.base = 0 ∧ r.gdtr.limit = 0) := by
  rw [Regs.gdtInstalled, Bool.not_eq_true', ← Bool.not_eq_true, Bool.and_eq_true, beq_iff_eq, beq_iff_eq]

/-- SETUP_GDT, check by check. -/
theorem setupGdt_eq {s : State} {long : Bool} {n fits : Nat} (hlong : long = true ↔ s.regs.efer.toNat / 2 ^ 10 % 2 = 1)
    (hn : n = if long then 56 else 48) (hfits : fits = if long then 2 ^ 64 else 2 ^ 32) :
    setupGdt s =
      if ¬ (s.regs.gdtr.base = 0 ∧ s.regs.gdtr.limit = 0) then .failed .preconditionViolation s
      else if memAdmits s.cfg (s.mem.len + 104) = false then .failed .outOfBounds s
      else if fits ≤ s.mem.len then .failed .outOfBounds (s.setMem (s.mem.grow (s.mem.len + 104)))
      else if memAdmits s.cfg (s.mem.len + 104 + n) = false then
        .failed .outOfBounds (s.setMem (s.mem.grow (s.mem.len + 104)))
      else if 2 ^ 64 ≤ s.mem.len + 104 then .failed .outOfBounds (s.setMem (s.mem.grow (s.mem.len + 104 + n)))
      else loadSegs gdtLoads (s.withGdt long) := by
  have hlength : (gdtImage long s.mem.len).length = n := by rw [gdtImage_length, hn]
  simp only [setupGdt, assertThat_andThen, alloc_andThen, Config.alignTss, Config.alignGdt, alignUp_one, State.setMem_mem,
    State.setMem_cfg, Memory.grow_len, Regs.longMode_of_iff hlong, ← hfits, decide_eq_false_iff_not, Nat.not_lt, hlength,
    Bool.not_eq_false', Regs.gdtInstalled_iff]
  rw [memWrite_andThen_of_le (by simp [hlength])]
  simp only [State.installTable, State.setRegs_regs, Regs.withGdt_eq]
  rw [State.withGdt, Memory.withGdt, hlength]
  rfl

end Sys2Proof.Machine
end

section
/-! PROOFS. The state a completed SETUP_GDT leaves (45_mode_setup.md R214 to R216): its arena, its registers and the caches it
has loaded. -/

namespace Sys2Proof.Machine

/-! The arena. -/

theorem Memory.wf_grow_gdt {m : Memory} (h : m.wf) (long : Bool) :
    (m.grow (m.len + 104 + (gdtImage long m.len).length)).wf = true := Memory.wf_grow h (by omega)

theorem Memory.withGdt_len (m : Memory) (long : Bool) :
    (m.withGdt long).len = m.len + 104 + (gdtImage long m.len).length := rfl

theorem Memory.wf_withGdt {m : Memory} (h : m.wf) (long : Bool) : (m.withGdt long).wf = true :=
  Memory.wf_write (Memory.wf_grow_gdt h long) (Nat.le_refl _)

theorem Memory.read_withGdt_table {m : Memory} (h : m.wf) (long : Bool) :
    (m.withGdt long).read (m.len + 104) (gdtImage long m.len).length = gdtImage long m.len :=
  Memory.read_write_same (Memory.wf_grow_gdt h long) (Nat.le_refl _)

theorem Memory.read_withGdt_tss {m : Memory} (h : m.wf) (long : Bool) :
    (m.withGdt long).read m.len 104 = List.replicate 104 0 := by
  rw [Memory.withGdt, Memory.read_write_disjoint (Memory.wf_grow_gdt h long) (Nat.le_refl _) (.inl (Nat.le_refl _)),
    Memory.read_grow_of_ge h (by omega) (Nat.le_refl _)]
  rfl

theorem Memory.readByte_withGdt_of_lt {m : Memory} (h : m.wf) (long : Bool) {x : Nat} (hx : x < m.len) :
    (m.withGdt long).readByte x = m.readByte x := by
  rw [Memory.withGdt, Memory.readByte_write_of_not_mem (Memory.wf_grow_gdt h long) (.inl (by omega)),
    Memory.readByte_grow_of_lt (by omega) hx]

/-! The registers. -/

theorem Regs.withGdt_base_toNat (r : Regs) {gdt : Nat} (h : gdt < 2 ^ 64) (n : Nat) :
    (r.withGdt gdt n).gdtr.base.toNat = gdt := by
  rw [Regs.withGdt, BitVec.toNat_ofNat, Nat.mod_eq_of_lt h]

theorem Regs.withGdt_limit_toNat (r : Regs) (gdt : Nat) (long : Bool) (tss : Nat) :
    (r.withGdt gdt (gdtImage long tss).length).gdtr.limit.toNat = (gdtImage long tss).length - 1 := by
  rw [Regs.withGdt, gdtImage_length]
  cases long <;> rfl

theorem Regs.loadGdtCaches_eq (long : Bool) (tss : Nat) (r : Regs) :
    r.loadGdtCaches long tss gdtLoads =
      { r with
        cs := gdtCache long tss 0x08, ss := gdtCache long tss 0x18, ds := gdtCache long tss 0x18
        es := gdtCache long tss 0x18, fs := gdtCache long tss 0x18, gs := gdtCache long tss 0x18
        tr := gdtCache long tss 0x28 } := by
  cases r
  rfl

/-- The limit of a flat segment, in bytes (R215). -/
theorem cacheLimit_flat : cacheLimit 1 0xFFFFF = 0xFFFFFFFF := by decide

theorem gdtCache_code (long : Bool) (tss : Nat) :
    gdtCache long tss 0x08 =
      { base := 0, limit := 0xFFFFFFFF, selector := 0x0008, type := 0xB, s := 1, dpl := 0, p := 1, rsvd := 0, avl := 0
        l := if long then 1 else 0, db := if long then 0 else 1, g := 1 } := by
  rw [gdtCache, if_pos rfl, ← cacheLimit_flat]
  cases long <;> rfl

theorem gdtCache_data (long : Bool) (tss : Nat) :
    gdtCache long tss 0x18 =
      { base := 0, limit := 0xFFFFFFFF, selector := 0x0018, type := 0x3, s := 1, dpl := 0, p := 1, rsvd := 0, avl := 0
        l := 0, db := 1, g := 1 } := by
  rw [gdtCache, if_neg (by decide), if_pos rfl, ← cacheLimit_flat]
  rfl

theorem gdtCache_tss (long : Bool) (tss : Nat) :
    gdtCache long tss 0x28 =
      { base := BitVec.ofNat 64 tss, limit := 0x67, selector := 0x0028, type := 0xB, s := 0, dpl := 0, p := 1, rsvd := 0
        avl := 0, l := 0, db := 0, g := 0 } := rfl

/-- The registers a completed SETUP_GDT leaves, over an arena of `len` bytes. -/
def Regs.loadGdt (r : Regs) (long : Bool) (len : Nat) : Regs :=
  (r.withGdt (len + 104) (gdtImage long len).length).loadGdtCaches long len gdtLoads

theorem State.withGdt_regs (s : State) (long : Bool) :
    (s.withGdt long).regs = s.regs.withGdt (s.mem.len + 104) (gdtImage long s.mem.len).length := rfl

theorem State.withGdt_setRegs (s : State) (long : Bool) (r : Regs) :
    (s.withGdt long).setRegs r = (s.setMem (s.mem.withGdt long)).setRegs r := rfl

/-! The command. -/

section Commands
variable {s : State} {long : Bool} (hs : s.accepting = true) (hw : s.mem.wf = true)
  (hgdt : s.regs.gdtr.base = 0 ∧ s.regs.gdtr.limit = 0) (hlong : long = true ↔ s.regs.efer.toNat / 2 ^ 10 % 2 = 1)
  (hlen : s.mem.len + 104 < 2 ^ 64) (hfits : long = false → s.mem.len < 2 ^ 32)
include hw hlong hlen hfits

/-- What the segment loads of SETUP_GDT find. -/
theorem State.holdsGdt_withGdt : (s.withGdt long).HoldsGdt long s.mem.len := by
  have hbase : (s.withGdt long).regs.gdtr.base.toNat = s.mem.len + 104 := s.regs.withGdt_base_toNat hlen _
  have hlimit : (s.withGdt long).regs.gdtr.limit.toNat = (gdtImage long s.mem.len).length - 1 :=
    s.regs.withGdt_limit_toNat ..
  refine ⟨Memory.wf_withGdt hw long, hlong, ?_, ?_, ?_, ?_⟩
  · cases long
    · exact hfits rfl
    · exact Nat.lt_of_le_of_lt (Nat.le_add_right ..) hlen
  · have hpos := gdtImage_length_ge long s.mem.len
    omega
  · exact (congrArg (· + _) hbase).le
  · have htable := Memory.read_withGdt_table hw long
    rwa [← hbase] at htable

include hs hgdt

theorem exec_setupGdt_of_fits (hmax : ∀ m, s.cfg.memMax = some m → s.mem.len + 104 + (if long then 56 else 48) ≤ m) :
    exec .setupGdt s = .next { s with
      regs := s.regs.loadGdt long s.mem.len, mem := s.mem.withGdt long, response := some ⟨.ok, .nothing⟩ } := by
  have hloads := (State.holdsGdt_withGdt hw hlong hlen hfits).loadSegs_eq (l := gdtLoads) (by decide)
  have htss : ¬ (if long then 2 ^ 64 else 2 ^ 32) ≤ s.mem.len := by
    have := (State.holdsGdt_withGdt hw hlong hlen hfits).fits
    omega
  rw [exec_setupGdt_of_accepting hs, setupGdt_eq hlong rfl rfl, if_neg (not_not_intro hgdt),
    memAdmits_of_le fun m hm => Nat.le_trans (Nat.le_add_right ..) (hmax m hm), if_neg (by decide), if_neg htss,
    memAdmits_of_le hmax, if_neg (by decide), if_neg (by omega), hloads, State.withGdt_regs,
    State.withGdt_setRegs, setupState_completed, Regs.loadGdt]

end Commands

/-! The obligations. -/

/-- Settles O39: the arena is `Memory.withGdt`'s and the registers are `Regs.loadGdt`'s. -/
theorem setupGdtBuildsTheCanonicalTable : Obligations.SetupGdtBuildsTheCanonicalTable := by
  refine ⟨rfl, fun s long n hs hw hbase hlimit hlong hn hlen hfits hmax => ?_⟩
  have hlength : (gdtImage long s.mem.len).length = n := by rw [gdtImage_length, hn]
  have hpos := gdtImage_length_ge long s.mem.len
  have hgdtr := s.regs.withGdt_base_toNat hlen (gdtImage long s.mem.len).length
  have hbytes := s.regs.withGdt_limit_toNat (s.mem.len + 104) long s.mem.len
  have hlen' : (s.mem.withGdt long).len = s.mem.len + 104 + n := by rw [Memory.withGdt_len, hlength]
  have he := exec_setupGdt_of_fits hs hw ⟨hbase, hlimit⟩ hlong hlen hfits (hn ▸ hmax)
  have keeps {k : Register} (hk : ¬ Instr.setupGdt.Writes k) := (exec_within rfl s _ he).regs.get_eq hk
  refine ⟨s.regs.loadGdt long s.mem.len, s.mem.withGdt long, he, hlen', Memory.wf_withGdt hw long,
    fun x hx => Memory.readByte_withGdt_of_lt hw long hx, Memory.read_withGdt_tss hw long, ?_, ?_⟩
  · rw [← hlength, Memory.read_withGdt_table hw, gdtImage_eq long (by omega)]
  · rw [Regs.loadGdt, Regs.loadGdtCaches_eq] at keeps ⊢
    rw [← gdtCache_code long s.mem.len, ← gdtCache_data long s.mem.len, ← gdtCache_tss long s.mem.len, hlen']
    refine ⟨hgdtr, hbytes.trans (by rw [hlength]), ?_, rfl, ?_, rfl, rfl, rfl, keeps (k := .table .idtr) nofun, rfl,
      keeps (k := .rflags) nofun, keeps (k := .cr4) nofun, keeps (k := .efer) nofun,
      fun r => keeps (k := .scalar r) nofun⟩
    · exact (congrArg₂ (fun a b => a + b + 1) hgdtr hbytes).trans (by omega)
    · simp [Regs.getSeg]

end Sys2Proof.Machine
end

section
/-! PROOFS. SETUP_GDT and SETUP_PAGING right after CONSTRUCT (45_mode_setup.md R217, R218, R229), and the failures of the two
(R214, R226). -/

namespace Sys2Proof.Machine

/-! The states after CONSTRUCT. -/

/-- A longer read is a read and the one after it. -/
theorem Memory.read_add {m : Memory} (h : m.wf) (a n k : Nat) : m.read a (n + k) = m.read a n ++ m.read (a + n) k := by
  have hfirst : slice (m.read a (n + k)) 0 n = m.read a n := Memory.slice_read h (i := 0) (by omega)
  rw [← hfirst, ← Memory.slice_read h (n := n + k) (Nat.le_refl _), slice_join (Nat.zero_add n).symm,
    slice_self (Memory.read_length ..)]

/-- In an empty arena the task-state segment lies at 0, and the table follows it. -/
theorem Memory.toBytes_withGdt_empty (long : Bool) :
    (Memory.empty.withGdt long).toBytes = List.replicate 104 0 ++ gdtImage long 0 := by
  have htss : (Memory.empty.withGdt long).read 0 104 = _ := Memory.read_withGdt_tss Memory.wf_empty long
  have htable : (Memory.empty.withGdt long).read (0 + 104) (gdtImage long 0).length = gdtImage long 0 :=
    Memory.read_withGdt_table Memory.wf_empty long
  have hlen : (Memory.empty.withGdt long).len = 104 + (gdtImage long 0).length := by
    rw [Memory.withGdt_len]
    exact congrArg (· + _) (Nat.zero_add 104)
  rw [Memory.toBytes, hlen, Memory.read_add (Memory.wf_withGdt Memory.wf_empty long), htss, htable]

/-- Settles O40: SETUP_GDT over the registers and the empty arena CONSTRUCT leaves. -/
theorem setupGdtOnFreshStates : Obligations.SetupGdtOnFreshStates := by
  intro s arch hmax
  have hlong : decide (arch = .a64) = true ↔ (constructRegs arch).efer.toNat / 2 ^ 10 % 2 = 1 := by cases arch <;> decide
  have hgdt : (constructRegs arch).gdtr.base = 0 ∧ (constructRegs arch).gdtr.limit = 0 := by cases arch <;> decide
  have hmax' (m : Nat) (hm : s.cfg.memMax = some m) : 0 + 104 + (if decide (arch = .a64) then 56 else 48) ≤ m := by
    have := hmax m hm
    cases arch <;> exact this
  have he := exec_setupGdt_of_fits (s := (s.startOver (constructRegs arch) .empty).respond .ok .nothing) rfl
    Memory.wf_empty hgdt hlong (by simp [Memory.empty]) (fun _ => by simp [Memory.empty]) hmax'
  refine ⟨_, _, (constructRegs arch).loadGdt (decide (arch = .a64)) 0, rfl, he, rfl, ?_, ?_⟩
  · refine (Memory.toBytes_withGdt_empty _).trans ?_
    rw [gdtImage_eq _ (by decide)]
    cases arch <;> rfl
  · rw [Regs.loadGdt, Regs.loadGdtCaches_eq, gdtCache_code, gdtCache_data, gdtCache_tss]
    cases arch <;> rfl

/-- Settles O45: O40 gives the state after SETUP_GDT, and O42 or O43 the tables SETUP_PAGING adds to it at 4096. -/
theorem protectedThenPagedOnFreshStates : Obligations.ProtectedThenPagedOnFreshStates := by
  intro s arch hmax
  obtain ⟨fresh, flat, regs, hconstruct, hsetup, hflat, hbytes, hregs⟩ :=
    setupGdtOnFreshStates s arch fun m hm => by
      have := hmax m hm
      split <;> omega
  obtain ⟨hfresh, hempty⟩ := exec_construct_next hconstruct
  have hw : flat.mem.wf = true := exec_keeps_wf (by rw [hempty, Memory.wf_empty]) hsetup
  have hlen : flat.mem.len = if arch = .a64 then 160 else 152 := by
    rw [← Memory.toBytes_length, hbytes]
    cases arch <;> rfl
  have hs : flat.accepting = true ∧ flat.fault = none ∧ flat.cfg = s.cfg := by
    cases hconstruct
    rw [hflat]
    exact ⟨rfl, rfl, rfl⟩
  have hr : flat.regs.cr0 = 1 ∧ flat.regs.cr4 = 0 ∧ flat.regs.efer = if arch = .a64 then 0x500 else 0 := by
    rw [hflat]
    rw [hfresh] at hregs
    have hcr0 := congrArg Regs.cr0 hregs
    have hcr4 := congrArg Regs.cr4 hregs
    have hefer := congrArg Regs.efer hregs
    cases arch <;> exact ⟨hcr0, hcr4, hefer⟩
  obtain ⟨hacc, hfault, hcfg⟩ := hs
  obtain ⟨hcr0, hcr4, hefer⟩ := hr
  cases arch with
  | a32 =>
    rw [if_neg (by decide)] at hlen hefer
    obtain ⟨mem, he, hlen', -, hzero, -⟩ := setupPagingBuildsTheLegacyDirectory.2 flat 4096 hacc hw (by rw [hcr0]; rfl)
      (by rw [hefer]; rfl) (by decide) (by omega) (by omega) (by decide) fun m hm => by
        rw [hcfg] at hm
        exact Nat.le_trans (by decide) (hmax m hm)
    exact ⟨fresh, flat, _, hconstruct, hsetup, he, hfault, hlen', hzero, rfl, by rw [hcr4]; rfl, by rw [hcr0]; rfl, hefer,
      nofun⟩
  | a64 =>
    rw [if_pos rfl] at hlen hefer
    obtain ⟨mem, he, hlen', -, hzero, hfirst, -, -⟩ := setupPagingBuildsTheLongModeTables.2 flat 4096 hacc hw
      (by rw [hcr0]; rfl) (by rw [hefer]; rfl) (by decide) (by omega) (by omega) (by decide) fun m hm => by
        rw [hcfg] at hm
        exact hmax m hm
    exact ⟨fresh, flat, _, hconstruct, hsetup, he, hfault, hlen', hzero, rfl, by rw [hcr4]; rfl, by rw [hcr0]; rfl, hefer,
      fun _ => hfirst⟩

/-! The failures. -/

/-- Settles O46: one rung of a ladder for each clause. -/
theorem setupFailuresKeepTheRegisters : Obligations.SetupFailuresKeepTheRegisters := by
  constructor
  · intro s long n fits hs hlong hn hfits
    rw [exec_setupGdt_of_accepting hs, setupGdt_eq hlong hn hfits]
    refine ⟨fun hgdt => ?_, fun hbase hlimit => ?_⟩
    · rw [if_pos hgdt, Attempt.setupState_failed hs]
    · rw [if_neg (not_not_intro ⟨hbase, hlimit⟩)]
      refine ⟨fun ⟨m, hm, hlt⟩ => ?_, fun hmax hlen => ?_, fun ⟨m, hm, hle, hlt⟩ hlen => ?_,
        fun hmax hlen hgdt => ?_⟩
      · rw [memAdmits_of_lt hm hlt, if_pos rfl, Attempt.setupState_failed hs]
      · rw [memAdmits_of_le hmax, if_neg (by decide), if_pos hlen, Attempt.setupState_failed_grow hs]
      · rw [memAdmits_of_some_le hm hle, if_neg (by decide), if_neg (by omega), memAdmits_of_lt hm hlt, if_pos rfl,
          Attempt.setupState_failed_grow hs]
      · rw [memAdmits_of_le fun m hm => Nat.le_trans (Nat.le_add_right ..) (hmax m hm), if_neg (by decide),
          if_neg (by omega), memAdmits_of_le hmax, if_neg (by decide), if_pos hgdt, Attempt.setupState_failed_grow hs]
  · intro s a hs hmod hle hlt
    have ha := alignUp_eq hmod hle hlt
    refine ⟨exec_setupPaging_of_enabled hs, fun hpg => ⟨fun ⟨m, hm, hmax⟩ => ?_, fun hmode hmax hfits => ?_,
      fun hmode ⟨m, hm, hle, hmax⟩ => ?_, fun hmode hmax hfits => ?_⟩⟩
    · rcases Nat.mod_two_eq_zero_or_one (s.regs.efer.toNat / 2 ^ 10) with hmode | hmode
      · rw [exec_setupPaging_of_legacy hs hpg hmode, buildLegacy_eq ha, memAdmits_of_lt hm hmax, if_pos rfl,
          Attempt.andThen_failed, Attempt.setupState_failed hs]
      · rw [exec_setupPaging_of_long hs hpg hmode, buildLong_eq hmod ha, memAdmits_of_lt hm hmax, if_pos rfl,
          Attempt.andThen_failed, Attempt.setupState_failed hs]
    · rw [exec_setupPaging_of_legacy hs hpg hmode, buildLegacy_eq ha, memAdmits_of_le hmax, if_neg (by decide),
        if_pos hfits, Attempt.andThen_failed, Attempt.setupState_failed_grow hs]
    · rw [exec_setupPaging_of_long hs hpg hmode, buildLong_eq hmod ha, memAdmits_of_some_le hm hle, if_neg (by decide),
        memAdmits_of_lt hm hmax, if_pos rfl, Attempt.andThen_failed, Attempt.setupState_failed_grow hs]
    · rw [exec_setupPaging_of_long hs hpg hmode, buildLong_eq hmod ha,
        memAdmits_of_le (n := a + 4096) fun m hm => Nat.le_trans (by omega) (hmax m hm), if_neg (by decide),
        memAdmits_of_le hmax, if_neg (by decide), if_pos hfits, Attempt.andThen_failed, Attempt.setupState_failed_grow hs]

end Sys2Proof.Machine
end

section
/-! PROOFS. Failures (60_exceptions.md R240 to R245): how the body of a state command may end, so that a failure is one of a state
that differs from the one before the command in the arena's zero bytes at most; what any command may leave; and the latch. -/

namespace Sys2Proof.Machine

/-! What a command leaves alone while it runs. -/

/-- `u` has the latch, the port, the answer and the parameters of `s`: a command has written registers and arena at most, and
counted draws. -/
def State.WrittenFrom (s u : State) : Prop :=
  ∃ r m d, u = { s with regs := r, mem := m, draws := d }

theorem State.WrittenFrom.refl (s : State) : s.WrittenFrom s := ⟨s.regs, s.mem, s.draws, rfl⟩

theorem State.WrittenFrom.setRegs {s u : State} (h : s.WrittenFrom u) (r : Regs) : s.WrittenFrom (u.setRegs r) := by
  obtain ⟨_, m, d, rfl⟩ := h
  exact ⟨r, m, d, rfl⟩

theorem State.WrittenFrom.setMem {s u : State} (h : s.WrittenFrom u) (m : Memory) : s.WrittenFrom (u.setMem m) := by
  obtain ⟨r, _, d, rfl⟩ := h
  exact ⟨r, m, d, rfl⟩

theorem State.WrittenFrom.countDraw {s u : State} (h : s.WrittenFrom u) : s.WrittenFrom u.countDraw := by
  obtain ⟨r, m, d, rfl⟩ := h
  exact ⟨r, m, d + 1, rfl⟩

theorem State.WrittenFrom.fault_eq {s u : State} (h : s.WrittenFrom u) : u.fault = s.fault := by
  obtain ⟨_, _, _, rfl⟩ := h
  rfl

theorem State.WrittenFrom.port_eq {s u : State} (h : s.WrittenFrom u) : u.port = s.port := by
  obtain ⟨_, _, _, rfl⟩ := h
  rfl

theorem State.WrittenFrom.cfg_eq {s u : State} (h : s.WrittenFrom u) : u.cfg = s.cfg := by
  obtain ⟨_, _, _, rfl⟩ := h
  rfl

/-! How the body of a state command ends. -/

/-- The body of the state command `o`, begun in `s`, has completed; or it has failed before any write; or, in SETUP_GDT and
SETUP_PAGING, it has failed after an allocation (R243). That the loads of SETUP_GDT find the table they need takes a canonical
arena. -/
inductive Attempt.Ends {α : Type} (o : Op) (s : State) : Attempt α → Prop
  | done {a : α} {u : State} (hu : s.WrittenFrom u) : Attempt.Ends o s (.done a u)
  | unchanged (k : FailKind) : Attempt.Ends o s (.failed k s)
  | setup {k : FailKind} {u : State} (ho : o = .setupGdt ∨ o = .setupPaging) (hu : s.WrittenFrom u)
      (hm : s.mem.wf = true → ∃ n, s.mem.len ≤ n ∧ u = s.setMem (s.mem.grow n)) : Attempt.Ends o s (.failed k u)

/-- A failure right after an allocation. -/
theorem Attempt.Ends.grown {α : Type} {o : Op} {s : State} (ho : o = .setupGdt ∨ o = .setupPaging) {n : Nat}
    (hn : s.mem.len ≤ n) (k : FailKind) : (Attempt.failed k (s.setMem (s.mem.grow n)) : Attempt α).Ends o s :=
  .setup ho ((State.WrittenFrom.refl s).setMem _) fun _ => ⟨n, hn, rfl⟩

theorem Attempt.ends_of_state_eq {α : Type} {x : Attempt α} {s : State} (hx : x.state = s) (o : Op) : x.Ends o s := by
  subst hx
  cases x with
  | done a u => exact .done (.refl u)
  | failed k u => exact .unchanged k

theorem Attempt.Ends.andThen {α β : Type} {o : Op} {s : State} {x : Attempt α} {k : α → State → Attempt β}
    (hx : x.Ends o s) (hk : ∀ a u, s.WrittenFrom u → (k a u).Ends o s) : (x.andThen k).Ends o s := by
  cases hx with
  | done hu => exact hk _ _ hu
  | unchanged f => exact .unchanged f
  | setup ho hu hm => exact .setup ho hu hm

theorem Attempt.Ends.answer {α : Type} {o : Op} {s : State} {x : Attempt α} (hx : x.Ends o s) (answer : α → Result) :
    (x.andThen fun a u => .done (answer a) u).Ends o s := hx.andThen fun _ _ hu => .done hu

/-- The state a failed body has reached. -/
theorem Attempt.Ends.writtenFrom {α : Type} {o : Op} {s u : State} {k : FailKind}
    (hx : (Attempt.failed k u : Attempt α).Ends o s) : s.WrittenFrom u := by
  cases hx with
  | unchanged => exact .refl s
  | setup _ hu _ => exact hu

/-- Outside the two setups, every check precedes every write (R243). -/
theorem Attempt.Ends.eq_of_not_setup {α : Type} {o : Op} {s u : State} {k : FailKind}
    (hx : (Attempt.failed k u : Attempt α).Ends o s) (hgdt : o ≠ .setupGdt) (hpaging : o ≠ .setupPaging) : u = s := by
  cases hx with
  | unchanged => rfl
  | setup ho _ _ => exact absurd ho (not_or_intro hgdt hpaging)

/-- In a canonical arena a failed body has lengthened the arena at most. -/
theorem Attempt.Ends.eq_grow {α : Type} {o : Op} {s u : State} {k : FailKind}
    (hx : (Attempt.failed k u : Attempt α).Ends o s) (hw : s.mem.wf = true) :
    ∃ n, s.mem.len ≤ n ∧ u = s.setMem (s.mem.grow n) := by
  cases hx with
  | unchanged => exact ⟨s.mem.len, Nat.le_refl _, rfl⟩
  | setup _ _ hm => exact hm hw

theorem alloc_ends (size alignment : Nat) (s : State) (o : Op) : (alloc size alignment s).Ends o s := by
  rcases alloc_cases size alignment s with ⟨_, e⟩ | ⟨_, e⟩ <;> rw [e]
  · exact .done ((State.WrittenFrom.refl s).setMem _)
  · exact .unchanged _

theorem memWrite_ends (a : Nat) (v : List Byte) (s : State) (o : Op) : (memWrite a v s).Ends o s := by
  rcases memWrite_cases a v s with ⟨_, e⟩ | ⟨_, e⟩ <;> rw [e]
  · exact .done ((State.WrittenFrom.refl s).setMem _)
  · exact .unchanged _

theorem loadSeg_ends (n : Sreg) (selector : BitVec 16) (s : State) (o : Op) : (loadSeg n selector s).Ends o s := by
  rcases loadSeg_cases n selector s with ⟨k, e⟩ | ⟨c, e⟩ | ⟨c, e⟩ <;> rw [e]
  · exact .unchanged k
  · exact .done ((State.WrittenFrom.refl s).setRegs _)
  · exact .done ((State.WrittenFrom.refl s).setRegs _).countDraw

theorem setupReal_ends (s : State) (o : Op) : (setupReal s).Ends o s := by
  rw [setupReal_eq]
  split
  · exact .unchanged _
  · exact .done ((State.WrittenFrom.refl s).setRegs _)

theorem setupIdt_ends (descriptors : List (List Byte)) (s : State) (o : Op) : (setupIdt descriptors s).Ends o s := by
  rw [setupIdt_eq rfl]
  split_ifs
  · exact .unchanged _
  · exact .unchanged _
  · exact .unchanged _
  · exact .done (((State.WrittenFrom.refl s).setMem _).setRegs _)

/-! SETUP_GDT and SETUP_PAGING, whose later checks stand after an allocation (45_mode_setup.md R214, R226). -/

/-- The loads of SETUP_GDT complete in a canonical arena: they find the table just written (R214). -/
theorem gdtLoads_ends {s : State} {long : Bool} (hlong : long = true ↔ s.regs.efer.toNat / 2 ^ 10 % 2 = 1)
    (hlen : s.mem.len + 104 < 2 ^ 64) (hfits : long = false → s.mem.len < 2 ^ 32) :
    (loadSegs gdtLoads (s.withGdt long)).Ends .setupGdt s := by
  have hwritten : s.WrittenFrom (loadSegs gdtLoads (s.withGdt long)).state :=
    loadSegs_keeps (fun _ _ _ h => h.setRegs _) (fun _ h => h.countDraw) _
      (((State.WrittenFrom.refl s).setMem _).setRegs _)
  cases hx : loadSegs gdtLoads (s.withGdt long) with
  | done a u =>
    rw [hx] at hwritten
    exact .done hwritten
  | failed k u =>
    rw [hx] at hwritten
    refine .setup (.inl rfl) hwritten fun hw => ?_
    rw [(State.holdsGdt_withGdt hw hlong hlen hfits).loadSegs_eq (by decide)] at hx
    cases hx

theorem setupGdt_ends (s : State) : (setupGdt s).Ends .setupGdt s := by
  have hlong : s.regs.longMode = true ↔ s.regs.efer.toNat / 2 ^ 10 % 2 = 1 := by
    rw [Regs.longMode_eq, decide_eq_true_eq]
  obtain ⟨n, hn⟩ : ∃ n, n = if s.regs.longMode then 56 else 48 := ⟨_, rfl⟩
  obtain ⟨fits, hfits⟩ : ∃ fits, fits = if s.regs.longMode then 2 ^ 64 else 2 ^ 32 := ⟨_, rfl⟩
  rw [setupGdt_eq hlong hn hfits]
  split_ifs with _ _ htss _ hgdt
  · exact .unchanged _
  · exact .grown (.inl rfl) (by omega) _
  · exact .grown (.inl rfl) (by omega) _
  · exact .grown (.inl rfl) (by omega) _
  · refine gdtLoads_ends hlong (Nat.lt_of_not_le hgdt) fun hmode => ?_
    rw [hfits, hmode, if_neg (by decide)] at htss
    exact Nat.lt_of_not_le htss
  · exact .unchanged _

theorem buildLegacy_ends (s : State) : (buildLegacy s).Ends .setupPaging s := by
  obtain ⟨_, hle, _⟩ := alignUp_spec s.mem.len 4096 (by decide)
  rw [buildLegacy_eq rfl]
  split_ifs
  · exact .unchanged _
  · exact .grown (.inr rfl) (by omega) _
  · exact .done ((State.WrittenFrom.refl s).setMem _)

theorem buildLong_ends (s : State) : (buildLong s).Ends .setupPaging s := by
  obtain ⟨hmod, hle, _⟩ := alignUp_spec s.mem.len 4096 (by decide)
  rw [buildLong_eq hmod rfl]
  split_ifs
  · exact .unchanged _
  · exact .grown (.inr rfl) (by omega) _
  · exact .grown (.inr rfl) (by omega) _
  · exact .done ((State.WrittenFrom.refl s).setMem _)

theorem buildTables_ends (s : State) : (buildTables s).Ends .setupPaging s := by
  unfold buildTables
  split
  · exact (buildLong_ends s).andThen fun _ _ hu => .done (hu.setRegs _)
  · exact buildLegacy_ends s

theorem setupPaging_ends (s : State) : (setupPaging s).Ends .setupPaging s := by
  rw [setupPaging, assertThat_andThen]
  split
  · exact .unchanged _
  · exact (buildTables_ends s).andThen fun _ _ hu => .done (hu.setRegs _)

/-! What a command may leave. -/

/-- A state command checks its operands, then whether the block accepts it, then runs a body that ends as R243 says. -/
theorem exec_of_isState {i : Instr} (hi : i.op.isState = true) (s : State) :
    ∃ body, exec i s = typed i.wellFormed s (stateCommand s body) ∧ (body s).Ends i.op s := by
  cases i with
  | alloc size alignment => exact ⟨_, rfl, (alloc_ends size alignment s _).answer _⟩
  | mwrite addr bytes => exact ⟨_, rfl, (memWrite_ends addr bytes s _).answer _⟩
  | mread addr size => exact ⟨_, rfl, (Attempt.ends_of_state_eq (memRead_state addr size s) _).answer _⟩
  | rget field => exact ⟨_, rfl, .done (.refl s)⟩
  | rset field value => exact ⟨_, rfl, .done ((State.WrittenFrom.refl s).setRegs _)⟩
  | raw => exact ⟨_, rfl, .done (.refl s)⟩
  | loadSeg n selector => exact ⟨_, rfl, (loadSeg_ends n selector s _).answer _⟩
  | setupReal => exact ⟨_, rfl, (setupReal_ends s _).answer _⟩
  | setupGdt => exact ⟨_, rfl, (setupGdt_ends s).answer _⟩
  | setupIdt descriptors => exact ⟨_, rfl, (setupIdt_ends descriptors s _).answer _⟩
  | setupPaging => exact ⟨_, rfl, (setupPaging_ends s).answer _⟩
  | descAddr selector => exact ⟨_, rfl, .done (.refl s)⟩
  | walk32 va => exact ⟨_, rfl, (Attempt.ends_of_state_eq (walk32_state va s) _).answer _⟩
  | walk64 va => exact ⟨_, rfl, (Attempt.ends_of_state_eq (walk64_state va s) _).answer _⟩
  | _ => cases hi

/-- CONSTRUCT and a well-typed LOADIMG start over (R245). -/
theorem exec_of_startsOver {i : Instr} (hi : i.op.startsOver = true) (hw : i.wellFormed = true) (s : State) :
    ∃ r m, exec i s = .next ((s.startOver r m).respond .ok .nothing) := by
  rcases eq_construct_or_loadimg hi with ⟨arch, rfl⟩ | ⟨image, rfl⟩
  · exact ⟨_, _, rfl⟩
  · exact ⟨_, _, exec_loadimg_of_le (of_decide_eq_true hw) s⟩

/-- The three ways in which a command leaves the block: answered, and not with a failure; with a failure taken; or started
over. -/
inductive State.LeftBy (i : Instr) (s : State) : State → Prop
  | answered {u : State} {st : Status} (r : Result) (hst : ∀ k, st ≠ .failed k) (hu : s.WrittenFrom u) :
      State.LeftBy i s (u.respond st r)
  | failed {k : FailKind} {u : State} (hi : i.op.isState = true) (hs : s.accepting = true)
      (hu : (Attempt.failed k u : Attempt Result).Ends i.op s) : State.LeftBy i s (u.takeFailure k)
  | startedOver (hi : i.op.startsOver = true) (r : Regs) (m : Memory) :
      State.LeftBy i s ((s.startOver r m).respond .ok .nothing)

theorem stateCommand_leaves {i : Instr} {s : State} {body : State → Attempt Result} (hi : i.op.isState = true)
    (hbody : (body s).Ends i.op s) : ∃ t, stateCommand s body = .next t ∧ s.LeftBy i t := by
  rcases stateCommand_cases s body with ⟨hs, hc⟩ | ⟨_, hc⟩
  · rw [hc]
    cases hb : body s with
    | done r u =>
      rw [hb] at hbody
      cases hbody with
      | done hu => exact ⟨_, rfl, .answered r nofun hu⟩
    | failed k u => exact ⟨_, rfl, .failed hi hs (hb ▸ hbody)⟩
  · exact ⟨_, hc, .answered _ nofun (.refl s)⟩

/-- No command stops the machine (R240). -/
theorem exec_leaves (i : Instr) (s : State) : ∃ t, exec i s = .next t ∧ s.LeftBy i t := by
  cases hw : i.wellFormed with
  | false => exact ⟨_, exec_of_not_wellFormed hw s, .answered _ nofun (.refl s)⟩
  | true =>
    cases hstate : i.op.isState with
    | true =>
      obtain ⟨body, he, hbody⟩ := exec_of_isState hstate s
      rw [he, hw, typed_true]
      exact stateCommand_leaves hstate hbody
    | false =>
      cases hover : i.op.startsOver with
      | true =>
        obtain ⟨r, m, he⟩ := exec_of_startsOver hover hw s
        exact ⟨_, he, .startedOver hover r m⟩
      | false =>
        obtain ⟨r, hr⟩ := exec_of_isPure (i := i) (by rw [Op.isPure, hstate, hover]; rfl)
        exact ⟨s.respond .ok r, by rw [hr, hw, typed_true, complete], .answered r nofun (.refl s)⟩

theorem exec_next_leftBy {i : Instr} {s t : State} (h : exec i s = .next t) : s.LeftBy i t := by
  obtain ⟨u, hu, hleft⟩ := exec_leaves i s
  rw [hu, Host.Outcome.next.injEq] at h
  exact h ▸ hleft

/-- Whatever it does, a command answers and leaves the port and the parameters alone. -/
theorem State.LeftBy.answers {i : Instr} {s t : State} (h : s.LeftBy i t) :
    t.port = s.port ∧ t.response.isSome = true ∧ t.cfg = s.cfg := by
  cases h with
  | answered r _ hu => exact ⟨hu.port_eq, rfl, hu.cfg_eq⟩
  | failed _ _ hu => exact ⟨hu.writtenFrom.port_eq, rfl, hu.writtenFrom.cfg_eq⟩
  | startedOver => exact ⟨rfl, rfl, rfl⟩

/-- A failure answered is one taken by an accepted state command. -/
theorem State.LeftBy.failure {i : Instr} {s t : State} {k : FailKind} {r : Result} (h : s.LeftBy i t)
    (ht : t.response = some ⟨.failed k, r⟩) :
    i.op.isState = true ∧ s.accepting = true ∧
      ∃ u, (Attempt.failed k u : Attempt Result).Ends i.op s ∧ t = u.takeFailure k := by
  cases h with
  | answered _ hst _ =>
    cases ht
    exact absurd rfl (hst k)
  | failed hi hs hu =>
    cases ht
    exact ⟨hi, hs, _, hu, rfl⟩
  | startedOver => cases ht

/-! The obligations. -/

/-- Settles O53: the body of the failing command has lengthened the arena at most, and the loads of SETUP_GDT do not fail. -/
theorem failingCommandKeepsRegistersAndBytes : Obligations.FailingCommandKeepsRegistersAndBytes := by
  intro s t i k r hw h ht
  obtain ⟨_, _, u, hu, rfl⟩ := (exec_next_leftBy h).failure ht
  obtain ⟨n, hn, rfl⟩ := hu.eq_grow hw
  exact ⟨rfl, rfl, rfl, hn, fun x hx => Memory.readByte_grow_of_lt hn hx,
    fun x hx hxn => Memory.readByte_grow_of_ge hw hx hxn⟩

/-- Settles O9: a frame that is no command is refused, and any command leaves the block answered. -/
theorem everyStepAnswersOneFrame : Obligations.EveryStepAnswersOneFrame := by
  intro s frame rest hp
  cases hd : decodeFrame frame with
  | none => exact ⟨_, step_of_decodeFrame_none hp hd, rfl, rfl, rfl⟩
  | some i =>
    obtain ⟨t, ht, hleft⟩ := exec_leaves i (s.setPort rest)
    exact ⟨t, (step_of_decodeFrame_some hp hd).trans ht, hleft.answers⟩

/-- Settles O50, class by class: a latched block accepts no state command, the commands that start over do not ask, and a pure
command answers the same in every state. -/
theorem latchRefusesStateCommandsOnly : Obligations.LatchRefusesStateCommandsOnly := by
  intro s k i hk hw
  refine ⟨fun hi => ?_, fun hi => ?_, fun hi => ?_⟩
  · have hs : s.accepting = false := by simp [State.accepting, hk]
    obtain ⟨body, he, _⟩ := exec_of_isState hi s
    rw [he, hw, typed_true, stateCommand_refusing hs]
    rfl
  · obtain ⟨r, m, he⟩ := exec_of_startsOver hi hw s
    exact ⟨_, he, rfl, rfl⟩
  · obtain ⟨r, hr⟩ := exec_of_isPure hi
    refine ⟨r, ?_, ?_⟩ <;> rw [hr, hw, typed_true, complete]

/-- Settles O52: a failure is taken from a state that has the latch of the one before, clear in an accepting block. -/
theorem failureLatchesItsKindOnce : Obligations.FailureLatchesItsKindOnce := by
  intro s t i h
  have hleft := exec_next_leftBy h
  have hlatch {k : FailKind} {u : State} (hs : s.accepting = true)
      (hu : (Attempt.failed k u : Attempt Result).Ends i.op s) : (u.takeFailure k).fault = some k := by
    rw [State.takeFailure_fault, hu.writtenFrom.fault_eq, ((accepting_iff s).1 hs).2, Option.none_or]
  constructor
  · intro k r ht
    obtain ⟨hi, hs, u, hu, rfl⟩ := hleft.failure ht
    refine ⟨hi, hs, hlatch hs hu, fun hgdt hpaging => ?_⟩
    rw [hu.eq_of_not_setup hgdt hpaging, State.takeFailure_of_accepting hs]
  · intro hne
    cases hleft with
    | answered _ _ hu => exact absurd hu.fault_eq hne
    | failed hi hs hu => exact .inl ⟨_, hlatch hs hu, rfl⟩
    | startedOver hi => exact .inr ⟨hi, rfl⟩

end Sys2Proof.Machine
end

section
/-! PROOFS. The two initial states: the one before the first command, which refuses state commands until CONSTRUCT or
LOADIMG, and the one CONSTRUCT leaves (70_reset_and_hazards.md R260 to R262). -/

namespace Sys2Proof.Machine

/-! Before the first CONSTRUCT or LOADIMG. -/

theorem State.accepting_of_not_constructed {s : State} (h : s.constructed = false) : s.accepting = false := by
  rw [State.accepting, h, Bool.false_and]

/-- A block that does not accept state commands answers Faulted and changes nothing (R262). -/
theorem exec_isState_of_refusing {i : Instr} {s : State} (hi : i.op.isState = true) (hw : i.wellFormed = true)
    (hs : s.accepting = false) : exec i s = .next (s.respond .faulted .nothing) := by
  obtain ⟨body, he, _⟩ := exec_of_isState hi s
  rw [he, hw, typed_true, stateCommand_refusing hs]

theorem State.WrittenFrom.constructed_eq {s u : State} (h : s.WrittenFrom u) : u.constructed = s.constructed := by
  obtain ⟨_, _, _, rfl⟩ := h
  rfl

/-- No command but CONSTRUCT and LOADIMG makes a block constructed. -/
theorem State.LeftBy.constructed_eq {i : Instr} {s t : State} (h : s.LeftBy i t) (hi : i.op.startsOver = false) :
    t.constructed = s.constructed := by
  cases h with
  | answered _ _ hu => exact hu.constructed_eq
  | failed _ _ hu => exact hu.writtenFrom.constructed_eq
  | startedOver ho => exact absurd (hi.symm.trans ho) Bool.false_ne_true

/-- Settles O51: an unconstructed block accepts no state command, and every command that does not start over leaves it so. -/
theorem nothingRunsBeforeConstruct : Obligations.NothingRunsBeforeConstruct := by
  intro s t i hs hw
  refine ⟨fun hi => exec_isState_of_refusing hi hw (State.accepting_of_not_constructed hs), fun h => ?_⟩
  cases ho : i.op.startsOver with
  | false => rw [(exec_next_leftBy h).constructed_eq ho, hs]
  | true =>
    obtain ⟨r, m, he⟩ := exec_of_startsOver ho hw s
    rw [he, Host.Outcome.next.injEq] at h
    subst h
    exact ⟨fun _ => rfl, fun _ => rfl⟩

/-- Settles O56: the arena is the empty one and the registers are those of CONSTRUCT(32), whose fixed bits the spec fixes. -/
theorem resetMeetsTheInvariants : Obligations.ResetMeetsTheInvariants :=
  ⟨Memory.wf_empty, rfl, constructRegs_fixedOk .a32, rfl, rfl, rfl, rfl, rfl⟩

/-! After CONSTRUCT. -/

/-- The registers CONSTRUCT leaves, with `efer.lme` and `efer.lma` of R260 as one number. -/
theorem constructRegs_eq (arch : Arch) :
    constructRegs arch = { Regs.zero with rflags := 0x2, efer := if arch = .a64 then 0x500 else 0 } := by
  cases arch <;> rfl

set_option maxRecDepth 4096 in
/-- The 400 bytes of R261. -/
theorem constructRegs_image (arch : Arch) :
    (constructRegs arch).image =
      List.replicate 0x88 0 ++ [0x02] ++ List.replicate 0x100 0 ++ [if arch = .a64 then 0x05 else 0x00] ++
        List.replicate 6 0 := by
  cases arch <;> rfl

/-- A state that starts over from an empty arena has its registers as its whole image. -/
theorem State.image_startOver_empty (s : State) (r : Regs) : (s.startOver r .empty).image = r.image := by
  rw [State.image, State.startOver_regs, State.startOver_mem]
  exact List.append_nil _

/-- Settles O34: CONSTRUCT starts over, and the block then accepts RAW. -/
theorem constructLeavesTheFreshState : Obligations.ConstructLeavesTheFreshState := by
  refine ⟨rfl, fun s arch => ⟨(s.startOver (constructRegs arch) .empty).respond .ok .nothing, rfl, ?_, ?_⟩⟩
  · rw [constructRegs_eq]
    rfl
  · have himage : ((s.startOver (constructRegs arch) .empty).respond .ok .nothing).image = (constructRegs arch).image :=
      s.image_startOver_empty _
    rw [exec_raw_of_accepting (State.accepting_startOver_respond ..), himage, constructRegs_image]

end Sys2Proof.Machine
end

section
/-! PROOFS. The idiom APPEND_DESC (70_reset_and_hazards.md R265, R266): a table that ends the arena grows with it. -/

namespace Sys2Proof.Machine

/-- The arena after an allocation of exactly the bytes then written to it. -/
def Memory.append (m : Memory) (bytes : List Byte) : Memory := (m.grow (m.len + bytes.length)).write m.len bytes

theorem Memory.append_len (m : Memory) (bytes : List Byte) : (m.append bytes).len = m.len + bytes.length := rfl

theorem Memory.read_append {m : Memory} (h : m.wf) (bytes : List Byte) :
    (m.append bytes).read m.len bytes.length = bytes :=
  Memory.read_write_same (Memory.wf_grow h (Nat.le_add_right ..)) (Nat.le_refl _)

/-- ALLOC with no alignment answers the length of the arena. -/
theorem exec_alloc_one {s : State} (h : s.accepting = true) {n : Nat}
    (hm : ∀ m, s.cfg.memMax = some m → s.mem.len + n ≤ m) :
    exec (.alloc n 1) s = .next ((s.setMem (s.mem.grow (s.mem.len + n))).respond .ok (.addr s.mem.len)) := by
  have he := exec_alloc_of_admits h (Nat.le_refl 1) (size := n) (by rw [alignUp_one]; exact memAdmits_of_le hm)
  rwa [alignUp_one] at he

/-- A limit that fits its 16 bits is the one RSET leaves. -/
theorem Regs.fieldSet_tableLimit_toNat (r : Regs) (t : TableReg) {n : Nat} (hn : n < 2 ^ 16) :
    ((r.fieldSet (.tableLimit t) (BitVec.ofNat 64 n)).getTable t).limit.toNat = n := by
  rw [Regs.fieldSet, Regs.getTable_setTable, BitVec.toNat_setWidth, BitVec.toNat_ofNat]
  omega

/-- A selector that is a multiple of 8 names the entry at that offset of the table (R175 (a)). -/
theorem exec_descAddr_of_aligned {s : State} (h : s.accepting = true) {offset a : Nat} (hfits : offset < 2 ^ 16)
    (h8 : offset % 8 = 0) (ha : s.regs.gdtr.base.toNat + offset = a) :
    exec (.descAddr (BitVec.ofNat 16 offset)) s = .next (s.respond .ok (.addr a)) := by
  have hmasked : (BitVec.ofNat 16 offset).toNat / 8 * 8 = offset := by
    rw [BitVec.toNat_ofNat]
    omega
  rw [exec_descAddr_of_accepting h, hmasked, ha]

/-- Settles O60: the three commands append the bytes to the arena, and the table's end moves with the arena's. -/
theorem appendingADescriptorExtendsTheTable : Obligations.AppendingADescriptorExtendsTheTable := by
  intro s bytes a limit hs hw hbytes hend ha hlimit hfits h8 hmax
  subst ha
  have hoffset : s.mem.len - s.regs.gdtr.base.toNat = s.regs.gdtr.limit.toNat + 1 := by omega
  have hvalue : (BitVec.ofNat 64 limit).toNat < 2 ^ (Field.tableLimit .gdtr).width :=
    Nat.lt_of_le_of_lt (BitVec.toNat_ofNat .. ▸ Nat.mod_le ..) hfits
  have hnew := s.regs.fieldSet_tableLimit_toNat .gdtr hfits
  refine ⟨_, _, _, exec_alloc_one hs hmax, rfl, exec_mwrite_of_le ?accepts ?inside, rfl, exec_rset_of_lt ?accepts' hvalue,
    rfl, ?bytes, ?ends, ?address⟩
  case accepts | accepts' => exact hs
  case inside => exact Nat.le_refl _
  case bytes => exact Memory.read_append hw bytes
  case ends =>
    have hlen : s.regs.gdtr.base.toNat + limit + 1 = (s.mem.append bytes).len := by
      rw [Memory.append_len]
      omega
    rwa [← hnew] at hlen
  case address =>
    rw [hoffset]
    refine exec_descAddr_of_aligned ?_ (by omega) h8 ?_
    · exact hs
    · exact hend

end Sys2Proof.Machine
end
